-- ==== Sys2Proof/Word.lean ====
section
/-! DEFINITION. The bit vectors of this hardware: the 32-bit word, the byte, the 16-bit immediate, the 26-bit jump
target, the 5-bit register index and shift amount, the 4-bit ALU control code (spec/00_scope.md R10, R13;
spec/30_encoding.md R81), and the type text is held in. -/

namespace Sys2Proof

/-- A register, an operand, a result, an address or an instruction word (R10: XLEN = ILEN = 32). -/
abbrev Word := BitVec 32

/-- One element of a memory segment (R50). -/
abbrev Byte := BitVec 8

/-- The index an `rs`, `rt` or `rd` field holds; every value names a register (R21). -/
abbrev RegIx := BitVec 5

/-- The `shamt` field (R81). -/
abbrev Shamt := BitVec 5

/-- The `imm` field, unsigned until it is extended (R16, R85). -/
abbrev Imm16 := BitVec 16

/-- The `target` field of J and JAL (R84). -/
abbrev Target := BitVec 26

/-- An ALU control code `S` (R112). -/
abbrev AluCode := BitVec 4

/-- Text is handled as its list of characters. -/
abbrev Text := List Char

end Sys2Proof
end

