-- ==== Sys2Proof/Machine/Bytes.lean ====
section
/-! DEFINITION. Byte order, decided once: multi-byte values are big-endian for data and for instruction fetch alike,
the most significant byte at the lowest address (spec/20_memory.md R57). -/

namespace Sys2Proof.Machine

/-- The value of bytes read in address order, zero-extended to a word: `v <- (v << 8) | byte` (R58). -/
def wordOfBytes (bytes : List Byte) : Word :=
  bytes.foldl (fun v b => v <<< 8 ||| b.setWidth 32) 0

/-- The low byte of a word: what a 1-byte write stores (R59). -/
def bytesOfByte (v : Word) : List Byte :=
  [v.extractLsb' 0 8]

/-- The low two bytes of a word in address order: what a 2-byte write stores (R59). -/
def bytesOfHalf (v : Word) : List Byte :=
  [v.extractLsb' 8 8, v.extractLsb' 0 8]

/-- The four bytes of a word in address order: what a 4-byte write stores (R59). -/
def bytesOfWord (v : Word) : List Byte :=
  [v.extractLsb' 24 8, v.extractLsb' 16 8, v.extractLsb' 8 8, v.extractLsb' 0 8]

end Sys2Proof.Machine
end

