-- ==== Sys2Proof/Config.lean ====
section
/-! DEFINITION. What the source of this hardware does not fix (spec/00_scope.md R11): one record of named
parameters, and the free values. The record's defaults stand in Machine/Defaults.lean. -/

namespace Sys2Proof

/-- The 18 instructions selected by the primary opcode (spec/30_encoding.md R89). -/
inductive PrimaryOp where
  | bltz | j | jal | beq | bne | addi | addiu | slti | sltiu | andi | ori | xori | lui
  | lb | lw | lbu | sb | sw
deriving DecidableEq, Repr

/-- The 16 instructions selected by `funct` under opcode 0 (spec/30_encoding.md R90). -/
inductive FunctOp where
  | sll | srl | sra | jr | syscall | mfhi | mflo | mul | div
  | add | sub | and | or | xor | nor | slt
deriving DecidableEq, Repr

/-- The parameters `OP_*`, `FN_*`, `RS_POS`, `RT_POS`, `RD_POS` as ONE record (R91, R11): the numeric opcode of each
primary operation, the numeric `funct` of each R-format operation, and the lowest bit of each register field. -/
structure Encoding where
  opBltz : BitVec 6
  opJ : BitVec 6
  opJal : BitVec 6
  opBeq : BitVec 6
  opBne : BitVec 6
  opAddi : BitVec 6
  opAddiu : BitVec 6
  opSlti : BitVec 6
  opSltiu : BitVec 6
  opAndi : BitVec 6
  opOri : BitVec 6
  opXori : BitVec 6
  opLui : BitVec 6
  opLb : BitVec 6
  opLw : BitVec 6
  opLbu : BitVec 6
  opSb : BitVec 6
  opSw : BitVec 6
  fnSll : BitVec 6
  fnSrl : BitVec 6
  fnSra : BitVec 6
  fnJr : BitVec 6
  fnSyscall : BitVec 6
  fnMfhi : BitVec 6
  fnMflo : BitVec 6
  fnMul : BitVec 6
  fnDiv : BitVec 6
  fnAdd : BitVec 6
  fnSub : BitVec 6
  fnAnd : BitVec 6
  fnOr : BitVec 6
  fnXor : BitVec 6
  fnNor : BitVec 6
  fnSlt : BitVec 6
  rsPos : Nat
  rtPos : Nat
  rdPos : Nat
deriving DecidableEq, Repr

/-- All 18 primary operations. -/
def PrimaryOp.all : List PrimaryOp :=
  [.bltz, .j, .jal, .beq, .bne, .addi, .addiu, .slti, .sltiu] ++
  [.andi, .ori, .xori, .lui, .lb, .lw, .lbu, .sb, .sw]

/-- All 16 R-format operations. -/
def FunctOp.all : List FunctOp :=
  [.sll, .srl, .sra, .jr, .syscall, .mfhi, .mflo, .mul, .div] ++
  [.add, .sub, .and, .or, .xor, .nor, .slt]

/-- The numeric opcode the record gives a primary operation (R89). -/
def Encoding.primary (e : Encoding) : PrimaryOp → BitVec 6
  | .bltz => e.opBltz
  | .j => e.opJ
  | .jal => e.opJal
  | .beq => e.opBeq
  | .bne => e.opBne
  | .addi => e.opAddi
  | .addiu => e.opAddiu
  | .slti => e.opSlti
  | .sltiu => e.opSltiu
  | .andi => e.opAndi
  | .ori => e.opOri
  | .xori => e.opXori
  | .lui => e.opLui
  | .lb => e.opLb
  | .lw => e.opLw
  | .lbu => e.opLbu
  | .sb => e.opSb
  | .sw => e.opSw

/-- The numeric `funct` the record gives an R-format operation (R90). -/
def Encoding.funct (e : Encoding) : FunctOp → BitVec 6
  | .sll => e.fnSll
  | .srl => e.fnSrl
  | .sra => e.fnSra
  | .jr => e.fnJr
  | .syscall => e.fnSyscall
  | .mfhi => e.fnMfhi
  | .mflo => e.fnMflo
  | .mul => e.fnMul
  | .div => e.fnDiv
  | .add => e.fnAdd
  | .sub => e.fnSub
  | .and => e.fnAnd
  | .or => e.fnOr
  | .xor => e.fnXor
  | .nor => e.fnNor
  | .slt => e.fnSlt

/-- `ALU_NONCANONICAL` (spec/40_alu.md R122): the five contested control codes follow the category table, or each is
an invalid operation. -/
inductive AluNoncanonical where
  | table | fault
deriving DecidableEq, Repr

/-- `SEG_OVERRUN` (spec/20_memory.md R61): an access that starts in a segment and runs past its end has no meaning,
reads zeros and drops bytes past the end, or is an addressing fault as a whole. -/
inductive SegOverrun where
  | refuse | zeroFillDrop | fault
deriving DecidableEq, Repr

/-- The named parameters of spec/00_scope.md R11. A machine is built for one value of this record; no step changes
it. -/
structure Config where
  /-- `OP_*`, `FN_*` and the register field positions. -/
  encoding : Encoding
  /-- `REGNAME`: the 32 register names in index order. -/
  regNames : List Text
  /-- `ALU_NONCANONICAL`. -/
  aluNoncanonical : AluNoncanonical
  /-- `ALU_SLT_SIGNED`. -/
  aluSltSigned : Bool
  /-- `BLTZ_SIGNED`. -/
  bltzSigned : Bool
  /-- `MUL_SIGNED`. -/
  mulSigned : Bool
  /-- `UNK_FUNCT_WRITES_RD`. -/
  unkFunctWritesRd : Bool
  /-- `SEG_OVERRUN`. -/
  segOverrun : SegOverrun
  /-- `PC_RESET`. -/
  pcReset : Word
deriving DecidableEq, Repr

/-- One record of the debug channel: text and styling tag (spec/10_state.md R31). -/
structure DebugRecord where
  text : String
  tag : String
deriving DecidableEq, Repr

/-- FREE VALUE. The control code an `AluInvalid` event carries when a word with an unrecognised `funct` is executed
under `UNK_FUNCT_WRITES_RD` = true: "a model leaves it unconstrained" (spec/41_engine_step.md R146). The argument is
the state's counter of free values. Log 9. -/
opaque Config.freeAluCode : Nat → AluCode

/-- FREE VALUE. What one step writes to the debug channel, any number of records: `any value`
(spec/93_implementation_defined.md U18). The argument is the mark the step left in the channel. Log 12. -/
opaque Config.freeDebugRecords : Nat → List DebugRecord

end Sys2Proof
end

