-- ==== Sys2Proof/Machine/Defaults.lean ====
section
/-! DEFINITION. The constants the source fixes (spec/00_scope.md R10) and the default of every parameter it does not
fix (R11): the conventional opcode and `funct` values, field positions and register names, and one choice per open
point. -/

namespace Sys2Proof.Machine

/-! ### Constants of R10 -/

/-- `SEL_PROGRAM` (R10, R52). -/
def selProgram : BitVec 12 := 0x004

/-- `SEL_DATA` (R10, R52). -/
def selData : BitVec 12 := 0x100

/-- `SEL_STACK` (R10, R52). -/
def selStack : BitVec 12 := 0x7FF

/-- `SEG_SIZE`: 1 MiB (R10, R50). -/
def segSize : Nat := 0x100000

/-- `SP_RESET` (R10, R36). -/
def spReset : Word := 0x80000000

/-- `READ_SENTINEL` and `ALU_SENTINEL`: -1 as 32 bits (R10, R56, R123). -/
def sentinel : Word := 0xFFFFFFFF

/-! ### Registers with a role of their own (R22). PRESUMED: the indices are the conventional ones, log 5. -/

/-- `$zero`, an ordinary register (R24). -/
def regZero : RegIx := 0

/-- `$v0`, the service number of SYSCALL (R22, R260). -/
def regV0 : RegIx := 2

/-- `$a0`, the argument of SYSCALL (R22, R260). -/
def regA0 : RegIx := 4

/-- `$sp`, set by reset (R22, R36). -/
def regSp : RegIx := 29

/-- `$ra`, written by JAL (R22, R241). -/
def regRa : RegIx := 31

/-! ### Defaults of R11 -/

/-- The default configuration record of the encoding (spec/30_encoding.md R81, R89, R90). Only ORI's opcode and SLL's
`funct` follow from the source. PRESUMED: the others are the conventional MIPS values, log 2 and 3. -/
def defaultEncoding : Encoding where
  opBltz := 0x01
  opJ := 0x02
  opJal := 0x03
  opBeq := 0x04
  opBne := 0x05
  opAddi := 0x08
  opAddiu := 0x09
  opSlti := 0x0A
  opSltiu := 0x0B
  opAndi := 0x0C
  opOri := 0x0D
  opXori := 0x0E
  opLui := 0x0F
  opLb := 0x20
  opLw := 0x23
  opLbu := 0x24
  opSb := 0x28
  opSw := 0x2B
  fnSll := 0x00
  fnSrl := 0x02
  fnSra := 0x03
  fnJr := 0x08
  fnSyscall := 0x0C
  fnMfhi := 0x10
  fnMflo := 0x12
  fnMul := 0x18
  fnDiv := 0x1A
  fnAdd := 0x20
  fnSub := 0x22
  fnAnd := 0x24
  fnOr := 0x25
  fnXor := 0x26
  fnNor := 0x27
  fnSlt := 0x2A
  rsPos := 21
  rtPos := 16
  rdPos := 11

/-- The default of `REGNAME` (spec/10_state.md R22), in index order. PRESUMED: the conventional table, log 4. -/
def defaultRegNames : List Text :=
  [ ['$', 'z', 'e', 'r', 'o'], ['$', 'a', 't'], ['$', 'v', '0'], ['$', 'v', '1'],
    ['$', 'a', '0'], ['$', 'a', '1'], ['$', 'a', '2'], ['$', 'a', '3'] ] ++
  [ ['$', 't', '0'], ['$', 't', '1'], ['$', 't', '2'], ['$', 't', '3'],
    ['$', 't', '4'], ['$', 't', '5'], ['$', 't', '6'], ['$', 't', '7'] ] ++
  [ ['$', 's', '0'], ['$', 's', '1'], ['$', 's', '2'], ['$', 's', '3'],
    ['$', 's', '4'], ['$', 's', '5'], ['$', 's', '6'], ['$', 's', '7'] ] ++
  [ ['$', 't', '8'], ['$', 't', '9'], ['$', 'k', '0'], ['$', 'k', '1'],
    ['$', 'g', 'p'], ['$', 's', 'p'], ['$', 'f', 'p'], ['$', 'r', 'a'] ]

/-- The defaults of R11. DESIGN CHOICE (the spec's own: decisions D2, D3, D9, D11, D15, D17, D18), logs 6 to 10. -/
def defaultConfig : Config where
  encoding := defaultEncoding
  regNames := defaultRegNames
  aluNoncanonical := .table
  aluSltSigned := false
  bltzSigned := false
  mulSigned := false
  unkFunctWritesRd := false
  segOverrun := .refuse
  pcReset := 0x00400000

end Sys2Proof.Machine
end

