-- ==== Sys2Proof/Syntax.lean ====
section
/-! DEFINITION. The instructions: one constructor for each of the 34 mnemonics of spec/30_encoding.md R88 and of
spec/opcode_table.json. An R-format constructor holds `rs rt rd shamt`, an I-format one `rs rt imm`, a J-format one
`target` (R82 to R84), in the order they stand in the word. Fields an instruction does not use are kept: they are
don't-cares of its execution (R86), but the word a DIV, ADDIU or SLTIU logs is rebuilt from them (R147). -/

namespace Sys2Proof

/-- An instruction (R88). -/
inductive Instr where
  -- R-format
  | sll (rs rt rd : RegIx) (shamt : Shamt)
  | srl (rs rt rd : RegIx) (shamt : Shamt)
  | sra (rs rt rd : RegIx) (shamt : Shamt)
  | jr (rs rt rd : RegIx) (shamt : Shamt)
  | syscall (rs rt rd : RegIx) (shamt : Shamt)
  | mfhi (rs rt rd : RegIx) (shamt : Shamt)
  | mflo (rs rt rd : RegIx) (shamt : Shamt)
  | mul (rs rt rd : RegIx) (shamt : Shamt)
  | div (rs rt rd : RegIx) (shamt : Shamt)
  | add (rs rt rd : RegIx) (shamt : Shamt)
  | sub (rs rt rd : RegIx) (shamt : Shamt)
  | and (rs rt rd : RegIx) (shamt : Shamt)
  | or (rs rt rd : RegIx) (shamt : Shamt)
  | xor (rs rt rd : RegIx) (shamt : Shamt)
  | nor (rs rt rd : RegIx) (shamt : Shamt)
  | slt (rs rt rd : RegIx) (shamt : Shamt)
  -- I-format
  | bltz (rs rt : RegIx) (imm : Imm16)
  | beq (rs rt : RegIx) (imm : Imm16)
  | bne (rs rt : RegIx) (imm : Imm16)
  | addi (rs rt : RegIx) (imm : Imm16)
  | addiu (rs rt : RegIx) (imm : Imm16)
  | slti (rs rt : RegIx) (imm : Imm16)
  | sltiu (rs rt : RegIx) (imm : Imm16)
  | andi (rs rt : RegIx) (imm : Imm16)
  | ori (rs rt : RegIx) (imm : Imm16)
  | xori (rs rt : RegIx) (imm : Imm16)
  | lui (rs rt : RegIx) (imm : Imm16)
  | lb (rs rt : RegIx) (imm : Imm16)
  | lw (rs rt : RegIx) (imm : Imm16)
  | lbu (rs rt : RegIx) (imm : Imm16)
  | sb (rs rt : RegIx) (imm : Imm16)
  | sw (rs rt : RegIx) (imm : Imm16)
  -- J-format
  | j (target : Target)
  | jal (target : Target)
deriving DecidableEq, Repr

/-- The eight field views taken from every word (R81). -/
structure Fields where
  opcode : BitVec 6
  rs : RegIx
  rt : RegIx
  rd : RegIx
  shamt : Shamt
  funct : BitVec 6
  imm : Imm16
  target : Target
deriving DecidableEq, Repr

/-- Why a word, or the bytes of one, selects no instruction (R92). -/
inductive Unrecognised where
  /-- `opcode` is not 0 and is none of the 18 values of R89. -/
  | opcode (value : BitVec 6)
  /-- `opcode` is 0 and `funct` is none of the 16 values of R90. -/
  | funct (value : BitVec 6)
  /-- Fewer than the 4 bytes of a word (R80) were given. -/
  | truncated
deriving DecidableEq, Repr

end Sys2Proof
end

