-- ==== Sys2Proof/Decode.lean ====
section
/-! DEFINITION. Decoding a word, and packing an instruction into its word (spec/30_encoding.md R80 to R95), both for
any configuration record of the encoding (R91), and the host's fixed name `decodeTableWord`. -/

namespace Sys2Proof

open Sys2Proof.Machine

/-! ### Decoding -/

/-- The eight field views of a word (R81); the three register fields stand where the record puts them. -/
def fieldsOf (e : Encoding) (w : Word) : Fields where
  opcode := w.extractLsb' 26 6
  rs := w.extractLsb' e.rsPos 5
  rt := w.extractLsb' e.rtPos 5
  rd := w.extractLsb' e.rdPos 5
  shamt := w.extractLsb' 6 5
  funct := w.extractLsb' 0 6
  imm := w.extractLsb' 0 16
  target := w.extractLsb' 0 26

/-- The R-format instruction a `funct` selected, with the fields of its word (R82). -/
def instrOfFunct (f : Fields) : FunctOp → Instr
  | .sll => .sll f.rs f.rt f.rd f.shamt
  | .srl => .srl f.rs f.rt f.rd f.shamt
  | .sra => .sra f.rs f.rt f.rd f.shamt
  | .jr => .jr f.rs f.rt f.rd f.shamt
  | .syscall => .syscall f.rs f.rt f.rd f.shamt
  | .mfhi => .mfhi f.rs f.rt f.rd f.shamt
  | .mflo => .mflo f.rs f.rt f.rd f.shamt
  | .mul => .mul f.rs f.rt f.rd f.shamt
  | .div => .div f.rs f.rt f.rd f.shamt
  | .add => .add f.rs f.rt f.rd f.shamt
  | .sub => .sub f.rs f.rt f.rd f.shamt
  | .and => .and f.rs f.rt f.rd f.shamt
  | .or => .or f.rs f.rt f.rd f.shamt
  | .xor => .xor f.rs f.rt f.rd f.shamt
  | .nor => .nor f.rs f.rt f.rd f.shamt
  | .slt => .slt f.rs f.rt f.rd f.shamt

/-- The I- or J-format instruction an opcode selected, with the fields of its word (R83, R84). -/
def instrOfPrimary (f : Fields) : PrimaryOp → Instr
  | .bltz => .bltz f.rs f.rt f.imm
  | .j => .j f.target
  | .jal => .jal f.target
  | .beq => .beq f.rs f.rt f.imm
  | .bne => .bne f.rs f.rt f.imm
  | .addi => .addi f.rs f.rt f.imm
  | .addiu => .addiu f.rs f.rt f.imm
  | .slti => .slti f.rs f.rt f.imm
  | .sltiu => .sltiu f.rs f.rt f.imm
  | .andi => .andi f.rs f.rt f.imm
  | .ori => .ori f.rs f.rt f.imm
  | .xori => .xori f.rs f.rt f.imm
  | .lui => .lui f.rs f.rt f.imm
  | .lb => .lb f.rs f.rt f.imm
  | .lw => .lw f.rs f.rt f.imm
  | .lbu => .lbu f.rs f.rt f.imm
  | .sb => .sb f.rs f.rt f.imm
  | .sw => .sw f.rs f.rt f.imm

/-- The R-format operation a `funct` value selects, if any (R90). -/
def functOf (e : Encoding) (value : BitVec 6) : Option FunctOp :=
  FunctOp.all.find? fun o => e.funct o == value

/-- The operation a non-zero opcode value selects, if any (R89). -/
def primaryOf (e : Encoding) (value : BitVec 6) : Option PrimaryOp :=
  PrimaryOp.all.find? fun o => e.primary o == value

/-- The decoder: total on every word, rejecting by name; dispatch on `funct` if `opcode` is 0, else on `opcode`, and
on nothing else (R86, R87, R92). -/
def decode (e : Encoding) (w : Word) : Except Unrecognised Instr :=
  let f := fieldsOf e w
  if f.opcode = 0 then
    match functOf e f.funct with
    | some o => .ok (instrOfFunct f o)
    | none => .error (.funct f.funct)
  else
    match primaryOf e f.opcode with
    | some o => .ok (instrOfPrimary f o)
    | none => .error (.opcode f.opcode)

/-- The decoder over bytes in address order: an instruction is one big-endian word (R57, R80). -/
def decodeBytes (e : Encoding) : List Byte → Except Unrecognised (Instr × List Byte)
  | b0 :: b1 :: b2 :: b3 :: rest =>
    match decode e (wordOfBytes [b0, b1, b2, b3]) with
    | .ok i => .ok (i, rest)
    | .error u => .error u
  | _ => .error .truncated

/-! ### Encoding -/

/-- R-format packing (R94): opcode 0. -/
def packR (e : Encoding) (funct : BitVec 6) (rs rt rd : RegIx) (shamt : Shamt) : Word :=
  rs.setWidth 32 <<< e.rsPos ||| rt.setWidth 32 <<< e.rtPos ||| rd.setWidth 32 <<< e.rdPos |||
    shamt.setWidth 32 <<< 6 ||| funct.setWidth 32

/-- I-format packing (R94). -/
def packI (e : Encoding) (opcode : BitVec 6) (rs rt : RegIx) (imm : Imm16) : Word :=
  opcode.setWidth 32 <<< 26 ||| rs.setWidth 32 <<< e.rsPos ||| rt.setWidth 32 <<< e.rtPos ||| imm.setWidth 32

/-- J-format packing (R94). -/
def packJ (opcode : BitVec 6) (target : Target) : Word :=
  opcode.setWidth 32 <<< 26 ||| target.setWidth 32

/-- The word of an instruction under a configuration record (R89, R90, R94). -/
def encode (e : Encoding) : Instr → Word
  | .sll rs rt rd shamt => packR e e.fnSll rs rt rd shamt
  | .srl rs rt rd shamt => packR e e.fnSrl rs rt rd shamt
  | .sra rs rt rd shamt => packR e e.fnSra rs rt rd shamt
  | .jr rs rt rd shamt => packR e e.fnJr rs rt rd shamt
  | .syscall rs rt rd shamt => packR e e.fnSyscall rs rt rd shamt
  | .mfhi rs rt rd shamt => packR e e.fnMfhi rs rt rd shamt
  | .mflo rs rt rd shamt => packR e e.fnMflo rs rt rd shamt
  | .mul rs rt rd shamt => packR e e.fnMul rs rt rd shamt
  | .div rs rt rd shamt => packR e e.fnDiv rs rt rd shamt
  | .add rs rt rd shamt => packR e e.fnAdd rs rt rd shamt
  | .sub rs rt rd shamt => packR e e.fnSub rs rt rd shamt
  | .and rs rt rd shamt => packR e e.fnAnd rs rt rd shamt
  | .or rs rt rd shamt => packR e e.fnOr rs rt rd shamt
  | .xor rs rt rd shamt => packR e e.fnXor rs rt rd shamt
  | .nor rs rt rd shamt => packR e e.fnNor rs rt rd shamt
  | .slt rs rt rd shamt => packR e e.fnSlt rs rt rd shamt
  | .bltz rs rt imm => packI e e.opBltz rs rt imm
  | .beq rs rt imm => packI e e.opBeq rs rt imm
  | .bne rs rt imm => packI e e.opBne rs rt imm
  | .addi rs rt imm => packI e e.opAddi rs rt imm
  | .addiu rs rt imm => packI e e.opAddiu rs rt imm
  | .slti rs rt imm => packI e e.opSlti rs rt imm
  | .sltiu rs rt imm => packI e e.opSltiu rs rt imm
  | .andi rs rt imm => packI e e.opAndi rs rt imm
  | .ori rs rt imm => packI e e.opOri rs rt imm
  | .xori rs rt imm => packI e e.opXori rs rt imm
  | .lui rs rt imm => packI e e.opLui rs rt imm
  | .lb rs rt imm => packI e e.opLb rs rt imm
  | .lw rs rt imm => packI e e.opLw rs rt imm
  | .lbu rs rt imm => packI e e.opLbu rs rt imm
  | .sb rs rt imm => packI e e.opSb rs rt imm
  | .sw rs rt imm => packI e e.opSw rs rt imm
  | .j target => packJ e.opJ target
  | .jal target => packJ e.opJal target

/-! ### The host's name -/

/-- The instruction the decoder reads from a row of spec/opcode_table.json: the low `nbits` bits of `w`, laid out in
memory order as the hardware stores a word, given to the byte decoder under the default record. -/
def decodeTableWord (nbits w : Nat) : Option Instr :=
  match decodeBytes defaultEncoding (bytesOfWord (BitVec.ofNat 32 (w % 2 ^ nbits))) with
  | .ok (i, _) => some i
  | .error _ => none

end Sys2Proof
end

