-- ==== Sys2Proof/Machine/State.lean ====
section
/-! DEFINITION. The machine's state as plain data (spec/10_state.md R20, a closed list): the Register File, the
snapshot, the Memory and the output sink, beside the three fields of the model's own (the outcome of the last step,
the counter of free values, the configuration). How each is read and written stands in Machine/Ops.lean. -/

namespace Sys2Proof.Machine

/-- The direction of a memory access (spec/10_state.md R31, spec/20_memory.md R56). -/
inductive AccessDir where
  | read | write
deriving DecidableEq, Repr

/-- The size `n` of a memory access: 1, 2 or 4 bytes (R57, R62). -/
inductive Width where
  | byte | half | word
deriving DecidableEq, Repr

/-- The three memory segments (R50, R52). -/
inductive Segment where
  | program | data | stack
deriving DecidableEq, Repr

/-- An event of the normal channel (R31): it carries the raw value, rendering it is the host's (R261). -/
inductive NormalEvent where
  | printInt (v : Word)
  | printChar (v : Word)
deriving DecidableEq, Repr

/-- An event of the error channel (R31): one constructor for each fault kind that is logged (spec/60_exceptions.md
R301, F2 to F5). -/
inductive ErrorEvent where
  | aluInvalid (code : AluCode)
  | addressFault (dir : AccessDir) (addr : Word) (size : Width)
  | regIndexInvalid (index : Int)
  | unknownInstruction (w : Word)
deriving DecidableEq, Repr

/-- The output sink: three append-only lists, oldest first (R31). The debug channel holds one mark per step; the
records a mark stands for are the free value `Config.freeDebugRecords` of it (log 12). -/
structure Sink where
  normal : List NormalEvent
  error : List ErrorEvent
  debug : List Nat
deriving DecidableEq, Repr

/-- The Register File: 32 general registers, `PC`, `HI`, `LO`, 35 values (R20, R21, R26, R28). -/
structure RegFile where
  gpr : Vector Word 32
  pc : Word
  hi : Word
  lo : Word
deriving DecidableEq, Repr

/-- The Memory of three zero-filled segments (R50), as the list of the bytes that are not zero, by full 32-bit address
(selector and offset together, R64), addresses strictly rising. Its canonical form is `Memory.wf`. -/
abbrev Memory := List Host.Cell

/-- The two halt conditions (spec/41_engine_step.md R143, R150, R260). -/
inductive HaltReason where
  | zeroWord | syscall10
deriving DecidableEq, Repr

/-- What `step()` returned (R142, R151). -/
inductive StepOutcome where
  | cont
  | halt (reason : HaltReason)
deriving DecidableEq, Repr

/-- The reasons a step ends in a fault: NONE. No fault of this hardware stops the machine or undoes a step: each is
logged, its result is substituted, and execution goes on (spec/60_exceptions.md R300, R301; spec/41_engine_step.md
R150). Nothing raises a constructor of this type, which is as the spec says (log 31). -/
inductive Fault where
deriving DecidableEq, Repr

/-- The reasons the model gives a step no meaning. -/
inductive Refusal where
  /-- An arm of `exec` whose instruction has no meaning yet. Raised by no arm of this model. Safe. -/
  | notModelled (mnemonic : String)
  /-- An access that starts in a segment and runs past its end, under `SEG_OVERRUN` = REFUSE: "the model gives the
  access no meaning; a step that makes it is refused" (spec/20_memory.md R61). Raised by fetch, LW, SW and the host's
  sized accesses of 2 and 4 bytes. Safe: nothing can be proved about such a step. Log 10. -/
  | segmentOverrun (dir : AccessDir) (addr : Word) (size : Width)
deriving DecidableEq, Repr

/-- The machine state. -/
structure State where
  /-- The 35 register values (R20). -/
  regs : RegFile
  /-- The snapshot `savedState`: empty or a copy of the 35 values (R32). -/
  saved : Option RegFile
  /-- The three segments (R50). -/
  mem : Memory
  /-- The output sink (R31). -/
  sink : Sink
  /-- The model's own: what the last step returned; nothing reads it (R34, R148; log 11). -/
  outcome : StepOutcome
  /-- The model's own: the number of the next free value (log 12). -/
  freeIndex : Nat
  /-- The model's own: the parameters this machine is built for (spec/00_scope.md R11; log 1). -/
  cfg : Config
deriving DecidableEq, Repr

/-- What a step or a meaning answers. -/
abbrev Result := Host.Outcome State Fault Refusal

/-- The Register File after `register.reset()` (R36): all zero but the stack pointer; `PC` is the parameter
`PC_RESET`. -/
def RegFile.reset (pcReset : Word) : RegFile where
  gpr := (Vector.replicate 32 0).set 29 spReset
  pc := pcReset
  hi := 0
  lo := 0

/-- The empty sink of a new machine (R36). -/
def Sink.empty : Sink where
  normal := []
  error := []
  debug := []

/-- A newly created machine for a configuration: the state both resets leave, with an empty sink (R36, R330). -/
def State.create (cfg : Config) : State where
  regs := RegFile.reset cfg.pcReset
  saved := none
  mem := []
  sink := Sink.empty
  outcome := .cont
  freeIndex := 0
  cfg := cfg

/-- The machine right after reset, under the default parameters (R36, R331). -/
def State.reset : State :=
  State.create defaultConfig

end Sys2Proof.Machine
end

