-- ==== Sys2Proof/Machine/Flags.lean ====
section
/-! DEFINITION. The hardware has no flags, condition codes or predicate registers (spec/10_state.md R29): a condition
is computed into a general register or consumed at once. This file holds the conditions. -/

namespace Sys2Proof.Machine

/-- `<s` if `signed`, else `<u` (spec/00_scope.md R14). -/
def lessThan (signed : Bool) (x y : Word) : Bool :=
  if signed then decide (x.toInt < y.toInt) else decide (x.toNat < y.toNat)

/-- The comparison of the ALU's set-less-than, under `ALU_SLT_SIGNED` (spec/40_alu.md R119). -/
def aluLess (c : Config) (x y : Word) : Bool :=
  lessThan c.aluSltSigned x y

/-- The comparison of BLTZ, under `BLTZ_SIGNED` (spec/47_control.md R245). -/
def bltzLess (c : Config) (x y : Word) : Bool :=
  lessThan c.bltzSigned x y

/-- The five contested control codes: category 1 with a non-zero sub-selector, category 2 with `S[1]` = 1 (R122). -/
def contested (code : AluCode) : Bool :=
  (code.extractLsb' 2 2 == 1 && code.extractLsb' 0 2 != 0) || (code.extractLsb' 2 2 == 2 && code.extractLsb' 1 1 == 1)

/-- `INV`: the code is an invalid operation (R111, R123). -/
def aluInvalidCode (c : Config) (code : AluCode) : Bool :=
  c.aluNoncanonical == .fault && contested code

end Sys2Proof.Machine
end

