-- ==== Sys2Proof/Machine/Alu.lean ====
section
/-! DEFINITION. The ALU: a stateless combinational block, two operands and a control code to a result and an
invalid-operation indication (spec/40_alu.md R110 to R128). -/

namespace Sys2Proof.Machine

/-- The ALU's outputs (R111). -/
structure AluOut where
  z : Word
  inv : Bool
deriving DecidableEq, Repr

/-! ### The canonical control codes (R113) -/

def codePass : AluCode := 0b0000
def codeSll : AluCode := 0b0001
def codeSrl : AluCode := 0b0010
def codeSra : AluCode := 0b0011
def codeSlt : AluCode := 0b0100
def codeAdd : AluCode := 0b1000
def codeSub : AluCode := 0b1001
def codeAnd : AluCode := 0b1100
def codeOr : AluCode := 0b1101
def codeXor : AluCode := 0b1110
def codeNor : AluCode := 0b1111

/-- The shift amount: the low 5 bits of `Y` (R118). PRESUMED for `Y` of 32 and above, log 18. -/
def shiftAmount (y : Word) : Nat :=
  (y.extractLsb' 0 5).toNat

/-- Category 0: pass, logical left, logical right, arithmetic right (R114 to R117). -/
def aluShift (sub : BitVec 2) (x y : Word) : Word :=
  if sub = 0 then x
  else if sub = 1 then x <<< shiftAmount y
  else if sub = 2 then x >>> shiftAmount y
  else x.sshiftRight (shiftAmount y)

/-- Category 1: 1 if less, else 0, whatever the sub-selector (R119). -/
def aluSetLess (c : Config) (x y : Word) : Word :=
  if aluLess c x y then 1 else 0

/-- Category 2: bit 0 of the code selects add or subtract; both wrap (R120, R121). -/
def aluAddSub (sub : BitVec 2) (x y : Word) : Word :=
  if sub.extractLsb' 0 1 = 0 then x + y else x - y

/-- Category 3: and, or, exclusive or, nor (R124 to R127). -/
def aluLogic (sub : BitVec 2) (x y : Word) : Word :=
  if sub = 0 then x &&& y
  else if sub = 1 then x ||| y
  else if sub = 2 then x ^^^ y
  else ~~~(x ||| y)

/-- The category table read for all 16 codes (R112): `S[3:2]` selects the category, `S[1:0]` the operation in it. -/
def aluTable (c : Config) (x y : Word) (code : AluCode) : Word :=
  let sub := code.extractLsb' 0 2
  if code.extractLsb' 2 2 = 0 then aluShift sub x y
  else if code.extractLsb' 2 2 = 1 then aluSetLess c x y
  else if code.extractLsb' 2 2 = 2 then aluAddSub sub x y
  else aluLogic sub x y

/-- `ALU(X, Y, S)` (R112): an invalid code gives the sentinel and `INV` = 1 (R123), any other the table's result. -/
def alu (c : Config) (x y : Word) (code : AluCode) : AluOut :=
  if aluInvalidCode c code then { z := sentinel, inv := true }
  else { z := aluTable c x y code, inv := false }

end Sys2Proof.Machine
end

