-- ==== Sys2Proof/Machine/Operands.lean ====
section
/-! DEFINITION. The operand forms: immediates, the load and store address, branch and jump targets
(spec/30_encoding.md R85). -/

namespace Sys2Proof.Machine

/-- `sext_32` (spec/00_scope.md R15). -/
def sext32 (imm : Imm16) : Word :=
  imm.signExtend 32

/-- `zext_32` of an immediate (R15). -/
def zext32 (imm : Imm16) : Word :=
  imm.setWidth 32

/-- A shift amount as the ALU's second operand, 0 to 31 (R85). -/
def shamtOperand (shamt : Shamt) : Word :=
  shamt.setWidth 32

/-- `ea`: base plus sign-extended displacement, modulo 2^32 (spec/46_load_store.md R220). -/
def effectiveAddress (base : Word) (imm : Imm16) : Word :=
  base + sext32 imm

/-- `(PCf + 4 * signed(sext_32(imm))) mod 2^32` (spec/47_control.md R243). -/
def branchTarget (pcf : Word) (imm : Imm16) : Word :=
  pcf + BitVec.ofInt 32 (4 * (sext32 imm).toInt)

/-- `(((PCf + 4) mod 2^32) & 0xF0000000) | (target << 2)`: the documented double increment (R240). -/
def jumpTarget (pcf : Word) (target : Target) : Word :=
  ((pcf + 4) &&& 0xF0000000) ||| (target.setWidth 32 <<< 2)

end Sys2Proof.Machine
end

