-- ==== Sys2Proof/Machine/Ops.lean ====
section
/-! DEFINITION. The named operations over registers, sink and memory that the meanings and the host operations share.
There is no operation that takes an exception and none that returns from one: "No fault and no instruction saves a
return address, switches a mode, loads a vector or enters a handler" (spec/60_exceptions.md R300, R308). What a fault
does is `State.logError` and a substituted result. -/

namespace Sys2Proof.Machine

/-! ### Registers (spec/10_state.md R21 to R28) -/

/-- `R[i]`: no register is hard-wired (R24). -/
def State.reg (s : State) (i : RegIx) : Word :=
  s.regs.gpr[i.toNat]'i.isLt

/-- `R[i] <- v`: a write to any register, `R[0]` included, stores the value (R24). -/
def State.setReg (s : State) (i : RegIx) (v : Word) : State :=
  { s with regs := { s.regs with gpr := s.regs.gpr.set i.toNat v i.isLt } }

/-- `PC`. -/
def State.pc (s : State) : Word :=
  s.regs.pc

/-- `PC <- v`: no alignment or segment check (R26). -/
def State.setPc (s : State) (v : Word) : State :=
  { s with regs := { s.regs with pc := v } }

/-- `HI`. -/
def State.hi (s : State) : Word :=
  s.regs.hi

/-- `LO`. -/
def State.lo (s : State) : Word :=
  s.regs.lo

/-- `HI <- hi; LO <- lo` (R28). -/
def State.setHiLo (s : State) (hi lo : Word) : State :=
  { s with regs := { s.regs with hi := hi, lo := lo } }

/-- Replace the memory. -/
def State.setMem (s : State) (m : Memory) : State :=
  { s with mem := m }

/-! ### The output sink and the step's outcome (R31, R34) -/

/-- `log <Fault>(info)`: append one event to the error channel; control flow never changes (spec/00_scope.md R15). -/
def State.logError (s : State) (e : ErrorEvent) : State :=
  { s with sink := { s.sink with error := s.sink.error ++ [e] } }

/-- `emit <Event>(v)`: append one event to the normal channel (R15). -/
def State.emit (s : State) (e : NormalEvent) : State :=
  { s with sink := { s.sink with normal := s.sink.normal ++ [e] } }

/-- `HALT(reason)`: the step's outcome is halt; nothing latches (R15, spec/41_engine_step.md R148). -/
def State.haltWith (s : State) (reason : HaltReason) : State :=
  { s with outcome := .halt reason }

/-- What every step starts with: the outcome is continue until a halt, and whatever the step writes to the debug
channel is the free value of a fresh mark (spec/93_implementation_defined.md U18; log 11, 12). -/
def State.beginStep (s : State) : State :=
  { s with
    outcome := .cont
    freeIndex := s.freeIndex + 1
    sink := { s.sink with debug := s.sink.debug ++ [s.freeIndex] } }

/-! ### Address translation (spec/20_memory.md R51 to R55) -/

/-- The segment selector `a[31:20]` (R51). -/
def selectorOf (a : Word) : BitVec 12 :=
  a.extractLsb' 20 12

/-- The offset `a[19:0]` (R51). -/
def offsetOf (a : Word) : BitVec 20 :=
  a.extractLsb' 0 20

/-- `Translate(a)`: the segment, or none for an addressing fault (R55). -/
def translateAddr (a : Word) : Option Segment :=
  if selectorOf a = selProgram then some .program
  else if selectorOf a = selData then some .data
  else if selectorOf a = selStack then some .stack
  else none

/-- An address that names a byte of some segment. -/
def mapped (a : Word) : Bool :=
  (translateAddr a).isSome

/-- The number of bytes of an access. -/
def Width.bytes : Width → Nat
  | .byte => 1
  | .half => 2
  | .word => 4

/-- "`off + n - 1 > 0xFFFFF`": the access runs past the end of the segment it starts in (R61). -/
def overruns (a : Word) (n : Width) : Bool :=
  decide ((offsetOf a).toNat + n.bytes > segSize)

/-- How the memory answers an access: one translation, on its first address, then the overrun parameter (R55, R61). -/
inductive Answer where
  | served | addressFault | refused
deriving DecidableEq, Repr

/-- R56 for an invalid selector; R61 for an overrun; any other access is performed, aligned or not (R60). -/
def answerOf (c : Config) (a : Word) (n : Width) : Answer :=
  match translateAddr a with
  | none => .addressFault
  | some _ =>
    if overruns a n then
      match c.segOverrun with
      | .refuse => .refused
      | .zeroFillDrop => .served
      | .fault => .addressFault
    else .served

/-! ### The bytes of memory -/

/-- What an address that the list does not name reads as: the segments are zero-filled (R36, R50, R65). -/
def blankByte : Byte := 0

/-- The byte stored at a key of the list. -/
def Memory.get : Memory → Nat → Byte
  | [], _ => blankByte
  | (k, b) :: m, a => if k = a then b else Memory.get m a

/-- Store a byte under a key, keeping the canonical form: the keys rise and no entry holds the blank byte. -/
def Memory.put : Memory → Nat → Byte → Memory
  | [], a, v => if v = blankByte then [] else [(a, v)]
  | (k, b) :: m, a, v =>
    if a < k then
      if v = blankByte then (k, b) :: m else (a, v) :: (k, b) :: m
    else if a = k then
      if v = blankByte then m else (a, v) :: m
    else (k, b) :: Memory.put m a v

/-- The canonical form: strictly rising addresses, every one in a segment, no entry that holds the blank byte. -/
def Memory.wf (m : Memory) : Bool :=
  decide (m.Pairwise fun x y => x.1 < y.1) &&
    m.all fun c => c.2 != blankByte && decide (c.1 < 2 ^ 32) && mapped (BitVec.ofNat 32 c.1)

/-- `SEG[g][off]` for the address of that byte; a byte past the end of a segment reads as 0 (R61, ZERO_FILL_DROP). -/
def Memory.byte (m : Memory) (a : Word) : Byte :=
  if mapped a then m.get a.toNat else 0

/-- `SEG[g][off] <- v`; a byte past the end of a segment is dropped (R61, ZERO_FILL_DROP). -/
def Memory.setByte (m : Memory) (a : Word) (v : Byte) : Memory :=
  if mapped a then m.put a.toNat v else m

/-- The bytes at `n` consecutive addresses from `a`. -/
def Memory.bytesFrom (m : Memory) (a : Word) : Nat → List Byte
  | 0 => []
  | n + 1 => m.byte a :: Memory.bytesFrom m (a + 1) n

/-- Store bytes at consecutive addresses from `a`. -/
def Memory.setBytes (m : Memory) (a : Word) : List Byte → Memory
  | [] => m
  | b :: bs => Memory.setBytes (m.setByte a b) (a + 1) bs

/-- The bytes a write of width `n` stores, in address order (R59). -/
def bytesOf (n : Width) (v : Word) : List Byte :=
  match n with
  | .byte => bytesOfByte v
  | .half => bytesOfHalf v
  | .word => bytesOfWord v

/-- The value a served read of width `n` gives: big-endian, zero-extended (R57, R58). -/
def Memory.read (m : Memory) (a : Word) (n : Width) : Word :=
  wordOfBytes (m.bytesFrom a n.bytes)

/-- The memory after a served write of width `n`: the low `n` bytes of the value, big-endian (R57, R59). -/
def Memory.write (m : Memory) (a : Word) (n : Width) (v : Word) : Memory :=
  m.setBytes a (bytesOf n v)

/-! ### The sized accesses -/

/-- `MemRead(a, n)` (R58): on an addressing fault the event is logged and the value is the sentinel (R56). -/
def State.memRead (s : State) (a : Word) (n : Width) : Except Refusal (Word × State) :=
  match answerOf s.cfg a n with
  | .served => .ok (s.mem.read a n, s)
  | .addressFault => .ok (sentinel, s.logError (.addressFault .read a n))
  | .refused => .error (.segmentOverrun .read a n)

/-- `MemWrite(a, n, v)` (R59): on an addressing fault the event is logged and no byte changes (R56). -/
def State.memWrite (s : State) (a : Word) (n : Width) (v : Word) : Except Refusal State :=
  match answerOf s.cfg a n with
  | .served => .ok (s.setMem (s.mem.write a n v))
  | .addressFault => .ok (s.logError (.addressFault .write a n))
  | .refused => .error (.segmentOverrun .write a n)

/-! ### What the meanings are made of -/

/-- Instantiate the ALU: whoever does appends `AluInvalid(S)` when `INV` = 1 (spec/40_alu.md R111, R123). -/
def State.aluOp (s : State) (x y : Word) (code : AluCode) : Word × State :=
  let out := alu s.cfg x y code
  (out.z, if out.inv then s.logError (.aluInvalid code) else s)

/-- `R[d] <- ALU(x, y, code)` (R130). -/
def State.aluTo (s : State) (d : RegIx) (x y : Word) (code : AluCode) : State :=
  (s.aluOp x y code).2.setReg d (s.aluOp x y code).1

/-- `R[d] <- MemRead(a, n)` (spec/46_load_store.md R221 to R223, R226). -/
def State.loadTo (s : State) (d : RegIx) (a : Word) (n : Width) : Result :=
  match s.memRead a n with
  | .ok (v, s') => .next (s'.setReg d v)
  | .error r => .refused r

/-- `MemWrite(a, n, v)` as a whole instruction (R224, R225, R226). -/
def State.storeTo (s : State) (a : Word) (n : Width) (v : Word) : Result :=
  match s.memWrite a n v with
  | .ok s' => .next s'
  | .error r => .refused r

/-- `PC <- v` if the condition holds, else `PC` stays `PCf` (spec/47_control.md R243 to R245). -/
def State.branchIf (s : State) (taken : Bool) (imm : Imm16) : State :=
  if taken then s.setPc (branchTarget s.pc imm) else s

/-- An unrecognised instruction: logged, nothing executed (spec/41_engine_step.md R146). -/
def State.unrecognised (s : State) (w : Word) : State :=
  s.logError (.unknownInstruction w)

/-- An unrecognised R-format instruction: under `UNK_FUNCT_WRITES_RD` the ALU's invalid-operation event follows, with
a code nothing constrains, and `R[rd]` receives the sentinel (R146; log 9). -/
def State.unrecognisedR (s : State) (w : Word) (rd : RegIx) : State :=
  if s.cfg.unkFunctWritesRd then
    ((s.unrecognised w).logError (.aluInvalid (Config.freeAluCode s.freeIndex))).setReg rd sentinel
  else s.unrecognised w

/-! ### Fetch -/

/-- `fetch()`: read the word at `PC`, then `PC <- PC + 4` (spec/41_engine_step.md R141, spec/10_state.md R27). -/
def State.fetch (s : State) : Except Refusal (Word × State) :=
  match s.memRead s.pc .word with
  | .ok (w, s') => .ok (w, s'.setPc (s'.pc + 4))
  | .error r => .error r

end Sys2Proof.Machine
end

