-- ==== Sys2Proof/Machine/Arith.lean ====
section
/-! DEFINITION. Three-register arithmetic and logic (spec/43_arith_logic.md): both sources are read before `R[rd]` is written;
`shamt` is ignored; no flag, no overflow trap. -/

namespace Sys2Proof.Machine

/-- ADD: `R[rs] + R[rt]`, wrapping (R170). -/
def execAdd (rs rt rd : RegIx) (s : State) : Result :=
  .next (s.aluTo rd (s.reg rs) (s.reg rt) codeAdd)

/-- SUB: `R[rs] - R[rt]`, wrapping (R171). -/
def execSub (rs rt rd : RegIx) (s : State) : Result :=
  .next (s.aluTo rd (s.reg rs) (s.reg rt) codeSub)

/-- AND: `R[rs] & R[rt]` (R172). -/
def execAnd (rs rt rd : RegIx) (s : State) : Result :=
  .next (s.aluTo rd (s.reg rs) (s.reg rt) codeAnd)

/-- OR: `R[rs] | R[rt]` (R173). -/
def execOr (rs rt rd : RegIx) (s : State) : Result :=
  .next (s.aluTo rd (s.reg rs) (s.reg rt) codeOr)

/-- XOR: `R[rs] ^ R[rt]` (R174). -/
def execXor (rs rt rd : RegIx) (s : State) : Result :=
  .next (s.aluTo rd (s.reg rs) (s.reg rt) codeXor)

/-- NOR: `~(R[rs] | R[rt])` (R175). -/
def execNor (rs rt rd : RegIx) (s : State) : Result :=
  .next (s.aluTo rd (s.reg rs) (s.reg rt) codeNor)

/-- SLT: 1 if `R[rs] < R[rt]` else 0, signed or not by `ALU_SLT_SIGNED` (R176). -/
def execSlt (rs rt rd : RegIx) (s : State) : Result :=
  .next (s.aluTo rd (s.reg rs) (s.reg rt) codeSlt)

end Sys2Proof.Machine
end

