-- ==== Sys2Proof/Machine/Control.lean ====
section
/-! DEFINITION. Control transfer (spec/47_control.md). `PC` is `PCf` when these run; there are no delay slots; no target is
checked for alignment or for lying in a segment. -/

namespace Sys2Proof.Machine

/-- J: the top four bits of `PCf + 4` and the target (R240). -/
def execJ (target : Target) (s : State) : Result :=
  .next (s.setPc (jumpTarget s.pc target))

/-- JAL: `$ra` receives `PCf`, then as J (R241). -/
def execJal (target : Target) (s : State) : Result :=
  .next ((s.setReg regRa s.pc).setPc (jumpTarget s.pc target))

/-- JR: `PC <- R[rs]`, all 32 bits (R242). -/
def execJr (rs : RegIx) (s : State) : Result :=
  .next (s.setPc (s.reg rs))

/-- BEQ (R243). -/
def execBeq (rs rt : RegIx) (imm : Imm16) (s : State) : Result :=
  .next (s.branchIf (decide (s.reg rs = s.reg rt)) imm)

/-- BNE (R244). -/
def execBne (rs rt : RegIx) (imm : Imm16) (s : State) : Result :=
  .next (s.branchIf (decide (s.reg rs ≠ s.reg rt)) imm)

/-- BLTZ: compares `R[rs]` with `R[rt]`, signed or not by `BLTZ_SIGNED` (R245). -/
def execBltz (rs rt : RegIx) (imm : Imm16) (s : State) : Result :=
  .next (s.branchIf (bltzLess s.cfg (s.reg rs) (s.reg rt)) imm)

end Sys2Proof.Machine
end

