-- ==== Sys2Proof/Machine/Immediate.lean ====
section
/-! DEFINITION. Immediate instructions (spec/45_immediate.md): the source `R[rs]` is read before the destination `R[rt]` is
written. Each goes through the ALU with the code of spec/40_alu.md R130. -/

namespace Sys2Proof.Machine

/-- ADDI: `R[rs] + sext_32(imm)`, wrapping, no overflow trap (R200). -/
def execAddi (rs rt : RegIx) (imm : Imm16) (s : State) : Result :=
  .next (s.aluTo rt (s.reg rs) (sext32 imm) codeAdd)

/-- SLTI: 1 if `R[rs] < sext_32(imm)` else 0, compared as SLT compares (R202). -/
def execSlti (rs rt : RegIx) (imm : Imm16) (s : State) : Result :=
  .next (s.aluTo rt (s.reg rs) (sext32 imm) codeSlt)

/-- ANDI: `R[rs] & zext_32(imm)` (R204). -/
def execAndi (rs rt : RegIx) (imm : Imm16) (s : State) : Result :=
  .next (s.aluTo rt (s.reg rs) (zext32 imm) codeAnd)

/-- ORI: `R[rs] | zext_32(imm)` (R205). -/
def execOri (rs rt : RegIx) (imm : Imm16) (s : State) : Result :=
  .next (s.aluTo rt (s.reg rs) (zext32 imm) codeOr)

/-- XORI: `R[rs] ^ zext_32(imm)` (R206). -/
def execXori (rs rt : RegIx) (imm : Imm16) (s : State) : Result :=
  .next (s.aluTo rt (s.reg rs) (zext32 imm) codeXor)

/-- LUI: `imm` in bits 31:16, zeros below, as a left shift by 16; `rs` is ignored (R207). PRESUMED: the mnemonic's meaning,
log 17. -/
def execLui (rt : RegIx) (imm : Imm16) (s : State) : Result :=
  .next (s.aluTo rt (zext32 imm) 16 codeSll)

/-- ADDIU: handled exactly as an unrecognised opcode; no register is written (R201, R147). The word logged is
the one the instruction was decoded from, rebuilt by `encode`. DEDUCED, log 21. -/
def execAddiu (rs rt : RegIx) (imm : Imm16) (s : State) : Result :=
  .next (s.unrecognised (encode s.cfg.encoding (.addiu rs rt imm)))

/-- SLTIU: handled exactly as an unrecognised opcode; no register is written (R203, R147). The word logged is
the one the instruction was decoded from, rebuilt by `encode`. DEDUCED, log 21. -/
def execSltiu (rs rt : RegIx) (imm : Imm16) (s : State) : Result :=
  .next (s.unrecognised (encode s.cfg.encoding (.sltiu rs rt imm)))

end Sys2Proof.Machine
end

