-- ==== Sys2Proof/Machine/LoadStore.lean ====
section
/-! DEFINITION. Loads and stores (spec/46_load_store.md): one addressing mode, base plus signed displacement (R220); the base
register is never modified. An invalid selector is logged and does not stop the step (R226). -/

namespace Sys2Proof.Machine

/-- LW: `R[rt] <- MemRead(ea, 4)`, four bytes, big-endian (R221). -/
def execLw (rs rt : RegIx) (imm : Imm16) (s : State) : Result :=
  s.loadTo rt (effectiveAddress (s.reg rs) imm) .word

/-- LB: `R[rt] <- MemRead(ea, 1)`, one byte, ZERO-extended: the preserved deviation (R222). -/
def execLb (rs rt : RegIx) (imm : Imm16) (s : State) : Result :=
  s.loadTo rt (effectiveAddress (s.reg rs) imm) .byte

/-- LBU: `R[rt] <- MemRead(ea, 1)`, one byte, zero-extended (R223). -/
def execLbu (rs rt : RegIx) (imm : Imm16) (s : State) : Result :=
  s.loadTo rt (effectiveAddress (s.reg rs) imm) .byte

/-- SW: `MemWrite(ea, 4, R[rt])` (R224). -/
def execSw (rs rt : RegIx) (imm : Imm16) (s : State) : Result :=
  s.storeTo (effectiveAddress (s.reg rs) imm) .word (s.reg rt)

/-- SB: `MemWrite(ea, 1, R[rt])` (R225). -/
def execSb (rs rt : RegIx) (imm : Imm16) (s : State) : Result :=
  s.storeTo (effectiveAddress (s.reg rs) imm) .byte (s.reg rt)

end Sys2Proof.Machine
end

