-- ==== Sys2Proof/Machine/MulDiv.lean ====
section
/-! DEFINITION. Multiply, divide and HI/LO moves (spec/44_muldiv_hilo.md). The ALU takes no part in MUL. -/

namespace Sys2Proof.Machine

/-- The 64-bit product, of the unsigned or of the two's-complement values by `MUL_SIGNED` (R190). -/
def product (signed : Bool) (x y : Word) : BitVec 64 :=
  if signed then BitVec.ofInt 64 (x.toInt * y.toInt) else BitVec.ofNat 64 (x.toNat * y.toNat)

/-- MUL: HI and LO receive the upper and lower half of the product; `rd` is ignored (R190). -/
def execMul (rs rt _rd : RegIx) (s : State) : Result :=
  let p := product s.cfg.mulSigned (s.reg rs) (s.reg rt)
  .next (s.setHiLo (p.extractLsb' 32 32) (p.extractLsb' 0 32))

/-- DIV: handled exactly as an unrecognised `funct`; it never divides and never writes HI or LO (R191, R147). The word
logged is the one the instruction was decoded from, rebuilt by `encode`. DEDUCED, log 21. -/
def execDiv (rs rt rd : RegIx) (shamt : Shamt) (s : State) : Result :=
  .next (s.unrecognisedR (encode s.cfg.encoding (.div rs rt rd shamt)) rd)

/-- MFHI: `R[rd] <- HI` (R192). -/
def execMfhi (rd : RegIx) (s : State) : Result :=
  .next (s.setReg rd s.hi)

/-- MFLO: `R[rd] <- LO` (R193). -/
def execMflo (rd : RegIx) (s : State) : Result :=
  .next (s.setReg rd s.lo)

end Sys2Proof.Machine
end

