-- ==== Sys2Proof/Machine/Shift.lean ====
section
/-! DEFINITION. Shift instructions (spec/42_shift.md). Each is executed after the fetch, so `PC` already holds `PCf`, and none
changes it further; `rs` is ignored; `R[0]` is written like any other register. -/

namespace Sys2Proof.Machine

/-- SLL: shift `R[rt]` left, zeros enter at the bottom (R160). -/
def execSll (rt rd : RegIx) (shamt : Shamt) (s : State) : Result :=
  .next (s.aluTo rd (s.reg rt) (shamtOperand shamt) codeSll)

/-- SRL: shift `R[rt]` right, zeros enter at the top (R161). -/
def execSrl (rt rd : RegIx) (shamt : Shamt) (s : State) : Result :=
  .next (s.aluTo rd (s.reg rt) (shamtOperand shamt) codeSrl)

/-- SRA: shift `R[rt]` right, copies of the sign bit enter at the top (R162). -/
def execSra (rt rd : RegIx) (shamt : Shamt) (s : State) : Result :=
  .next (s.aluTo rd (s.reg rt) (shamtOperand shamt) codeSra)

end Sys2Proof.Machine
end

