-- ==== Sys2Proof/Machine/System.lean ====
section
/-! DEFINITION. SYSCALL (spec/48_system.md): executed wholly inside the step; it is not a trap. -/

namespace Sys2Proof.Machine

/-- SYSCALL: service 1 prints an integer, 10 halts, 11 prints a character, any other does nothing (R260, R262). The whole
32 bits of `R[2]` select; no register is written; `PC` stays `PCf`. -/
def execSyscall (s : State) : Result :=
  if s.reg regV0 = 1 then .next (s.emit (.printInt (s.reg regA0)))
  else if s.reg regV0 = 10 then .next (s.haltWith .syscall10)
  else if s.reg regV0 = 11 then .next (s.emit (.printChar (s.reg regA0)))
  else .next s

end Sys2Proof.Machine
end

