-- ==== Sys2Proof/Machine/Dispatch.lean ====
section
/-! DEFINITION. The dispatch of spec/41_engine_step.md R144: one arm per instruction, each one call of its meaning. The
state given to `exec` is the one left by the fetch, so its `PC` is `PCf` (R145). -/

namespace Sys2Proof.Machine

def exec (i : Instr) (s : State) : Host.Outcome State Fault Refusal :=
  match i with
  -- R-format (spec/30_encoding.md R82, R90)
  | .sll _ rt rd shamt => Sys2Proof.Machine.execSll rt rd shamt s
  | .srl _ rt rd shamt => Sys2Proof.Machine.execSrl rt rd shamt s
  | .sra _ rt rd shamt => Sys2Proof.Machine.execSra rt rd shamt s
  | .jr rs _ _ _ => Sys2Proof.Machine.execJr rs s
  | .syscall _ _ _ _ => Sys2Proof.Machine.execSyscall s
  | .mfhi _ _ rd _ => Sys2Proof.Machine.execMfhi rd s
  | .mflo _ _ rd _ => Sys2Proof.Machine.execMflo rd s
  | .mul rs rt rd _ => Sys2Proof.Machine.execMul rs rt rd s
  | .div rs rt rd shamt => Sys2Proof.Machine.execDiv rs rt rd shamt s
  | .add rs rt rd _ => Sys2Proof.Machine.execAdd rs rt rd s
  | .sub rs rt rd _ => Sys2Proof.Machine.execSub rs rt rd s
  | .and rs rt rd _ => Sys2Proof.Machine.execAnd rs rt rd s
  | .or rs rt rd _ => Sys2Proof.Machine.execOr rs rt rd s
  | .xor rs rt rd _ => Sys2Proof.Machine.execXor rs rt rd s
  | .nor rs rt rd _ => Sys2Proof.Machine.execNor rs rt rd s
  | .slt rs rt rd _ => Sys2Proof.Machine.execSlt rs rt rd s
  -- I-format (R83, R89)
  | .bltz rs rt imm => Sys2Proof.Machine.execBltz rs rt imm s
  | .beq rs rt imm => Sys2Proof.Machine.execBeq rs rt imm s
  | .bne rs rt imm => Sys2Proof.Machine.execBne rs rt imm s
  | .addi rs rt imm => Sys2Proof.Machine.execAddi rs rt imm s
  | .addiu rs rt imm => Sys2Proof.Machine.execAddiu rs rt imm s
  | .slti rs rt imm => Sys2Proof.Machine.execSlti rs rt imm s
  | .sltiu rs rt imm => Sys2Proof.Machine.execSltiu rs rt imm s
  | .andi rs rt imm => Sys2Proof.Machine.execAndi rs rt imm s
  | .ori rs rt imm => Sys2Proof.Machine.execOri rs rt imm s
  | .xori rs rt imm => Sys2Proof.Machine.execXori rs rt imm s
  | .lui _ rt imm => Sys2Proof.Machine.execLui rt imm s
  | .lb rs rt imm => Sys2Proof.Machine.execLb rs rt imm s
  | .lw rs rt imm => Sys2Proof.Machine.execLw rs rt imm s
  | .lbu rs rt imm => Sys2Proof.Machine.execLbu rs rt imm s
  | .sb rs rt imm => Sys2Proof.Machine.execSb rs rt imm s
  | .sw rs rt imm => Sys2Proof.Machine.execSw rs rt imm s
  -- J-format (R84, R89)
  | .j target => Sys2Proof.Machine.execJ target s
  | .jal target => Sys2Proof.Machine.execJal target s

end Sys2Proof.Machine
end

