-- ==== Sys2Proof/Machine/Unknown.lean ====
section
/-! DEFINITION. The two words a step does not dispatch to an instruction: a word that selects none, and the
execution-terminator sentinel (spec/41_engine_step.md R143, R146). -/

namespace Sys2Proof.Machine

/-- The engine on a word the decoder rejects: logged, the outcome is continue, `PC` stays `PCf` (R146). -/
def execUnrecognised (w : Word) (s : State) : State :=
  if (fieldsOf s.cfg.encoding w).opcode = 0 then s.unrecognisedR w (fieldsOf s.cfg.encoding w).rd
  else s.unrecognised w

/-- The engine on the word 0x00000000: halt, before decoding; `PC` has already advanced (R143). -/
def execZeroWord (s : State) : State :=
  s.haltWith .zeroWord

/-- The test for the execution-terminator sentinel: all 32 bits (R143). -/
def isZeroWord (w : Word) : Bool :=
  decide (w = 0)

/-- Where a word can be stored so that the next fetch reads it: the `PC`, if its four bytes lie in one segment, else
the base of the program segment, where the conventional boot sequence puts a program (spec/70_reset_and_hazards.md
R333). -/
def fetchSlot (s : State) : Word :=
  if mapped s.pc && !overruns s.pc .word then s.pc else 0x00400000

/-- Store the low `nbits` bits of `w` as one word in the slot, and point `PC` at it. -/
def placeFetchWord (s : State) (nbits w : Nat) : State :=
  (s.setMem (s.mem.write (fetchSlot s) .word (BitVec.ofNat 32 (w % 2 ^ nbits)))).setPc (fetchSlot s)

end Sys2Proof.Machine
end

