-- ==== Sys2Proof/Machine/Step.lean ====
section
/-! DEFINITION. One step: fetch, the zero-word test, decode, execute (spec/41_engine_step.md R142). -/

namespace Sys2Proof.Machine

/-- `step()`: exactly one fetch; a zero word halts before decoding; a word that selects no instruction is logged; any
other is executed on the state the fetch left (R142 to R147). -/
def step (s : State) : Host.Outcome State Fault Refusal :=
  match s.beginStep.fetch with
  | .error r => .refused r
  | .ok (w, s') =>
    if isZeroWord w then .next (execZeroWord s')
    else
      match decode s'.cfg.encoding w with
      | .ok i => exec i s'
      | .error _ => .next (execUnrecognised w s')

/-- `s` with the instruction whose bits are `w` stored where `step` fetches its next one (log 30). -/
def State.withFetchWord (s : State) (nbits w : Nat) : State :=
  placeFetchWord s nbits w

end Sys2Proof.Machine
end

