-- ==== Sys2Proof/Machine/Chars.lean ====
section
/-! DEFINITION. Characters and numerals as the text functions read and print them (spec/49_decoder_encoder.md R271,
R281, R284). -/

namespace Sys2Proof.Machine

/-- White space inside a line: space, tab, carriage return, line feed. DESIGN CHOICE: the source says only
"whitespace", log 25. -/
def isBlank (c : Char) : Bool :=
  c == ' ' || c == '\t' || c == '\r' || c == '\n'

/-- One character of preprocessing: a comma becomes a space, a letter becomes lower case (R281). DESIGN CHOICE: the
letters are the ASCII ones, log 25. -/
def normalChar (c : Char) : Char :=
  if c == ',' then ' ' else c.toLower

/-- The digit of a number below 16, lower case (R271, R278). -/
def digitChar (d : Nat) : Char :=
  if d < 10 then Char.ofNat (48 + d) else Char.ofNat (87 + d)

/-- The value of a digit, if it is one below `base` (R284). -/
def digitValue (base : Nat) (c : Char) : Option Nat :=
  let n := c.toNat
  if 48 ≤ n ∧ n ≤ 57 ∧ n - 48 < base then some (n - 48)
  else if 97 ≤ n ∧ n ≤ 102 ∧ n - 87 < base then some (n - 87)
  else none

/-- The digits of `n` in `base`, least significant first; `fuel` bounds their number. -/
def digitsRev (base : Nat) : Nat → Nat → Text
  | 0, _ => []
  | fuel + 1, n => digitChar (n % base) :: if n < base then [] else digitsRev base fuel (n / base)

/-- The numeral of `n` without leading zeros; 0 prints one digit (R271, R278). -/
def printNat (base n : Nat) : Text :=
  (digitsRev base (n + 1) n).reverse

/-- Decimal with a leading `-` when negative (R271). -/
def printInt (n : Int) : Text :=
  if n < 0 then '-' :: printNat 10 n.natAbs else printNat 10 n.natAbs

/-- The value of a digit string, `acc` being what stands before it; fails on any other character. -/
def parseDigits (base : Nat) : Nat → Text → Option Nat
  | acc, [] => some acc
  | acc, c :: cs =>
    match digitValue base c with
    | some d => parseDigits base (acc * base + d) cs
    | none => none

/-- An unsigned literal: decimal digits, or `0x` and hexadecimal digits (R284). -/
def parseNat : Text → Option Nat
  | [] => none
  | '0' :: 'x' :: [] => none
  | '0' :: 'x' :: c :: cs => parseDigits 16 0 (c :: cs)
  | c :: cs => parseDigits 10 0 (c :: cs)

/-- An integer literal: an unsigned one, or one after a `-` for the negated value (R284). -/
def parseInt : Text → Option Int
  | '-' :: cs => (parseNat cs).map fun n => -(n : Int)
  | cs => (parseNat cs).map fun n => (n : Int)

end Sys2Proof.Machine
end

