-- ==== Sys2Proof/Machine/Mnemonics.lean ====
section
/-! DEFINITION. The mnemonics, in lower case (spec/49_decoder_encoder.md R271, R272, R274 to R276). -/

namespace Sys2Proof.Machine

/-- The mnemonic of an R-format operation (R272). -/
def functText : FunctOp → Text
  | .sll => ['s', 'l', 'l']
  | .srl => ['s', 'r', 'l']
  | .sra => ['s', 'r', 'a']
  | .jr => ['j', 'r']
  | .syscall => ['s', 'y', 's', 'c', 'a', 'l', 'l']
  | .mfhi => ['m', 'f', 'h', 'i']
  | .mflo => ['m', 'f', 'l', 'o']
  | .mul => ['m', 'u', 'l']
  | .div => ['d', 'i', 'v']
  | .add => ['a', 'd', 'd']
  | .sub => ['s', 'u', 'b']
  | .and => ['a', 'n', 'd']
  | .or => ['o', 'r']
  | .xor => ['x', 'o', 'r']
  | .nor => ['n', 'o', 'r']
  | .slt => ['s', 'l', 't']

/-- The mnemonic of an I- or J-format operation (R274 to R276). -/
def primaryText : PrimaryOp → Text
  | .bltz => ['b', 'l', 't', 'z']
  | .j => ['j']
  | .jal => ['j', 'a', 'l']
  | .beq => ['b', 'e', 'q']
  | .bne => ['b', 'n', 'e']
  | .addi => ['a', 'd', 'd', 'i']
  | .addiu => ['a', 'd', 'd', 'i', 'u']
  | .slti => ['s', 'l', 't', 'i']
  | .sltiu => ['s', 'l', 't', 'i', 'u']
  | .andi => ['a', 'n', 'd', 'i']
  | .ori => ['o', 'r', 'i']
  | .xori => ['x', 'o', 'r', 'i']
  | .lui => ['l', 'u', 'i']
  | .lb => ['l', 'b']
  | .lw => ['l', 'w']
  | .lbu => ['l', 'b', 'u']
  | .sb => ['s', 'b']
  | .sw => ['s', 'w']

end Sys2Proof.Machine
end

