-- ==== Sys2Proof/Machine/Asm.lean ====
section
/-! DEFINITION. The Encoder's text input (spec/49_decoder_encoder.md R280 to R291): one line to a word or to a failure,
never a partially formed word. -/

namespace Sys2Proof.Machine

/-! ### Preprocessing (R281) -/

/-- The tokens of normalised text; `cur` holds the token being read, reversed. -/
def tokensFrom (cur : Text) : Text → List Text
  | [] => if cur.isEmpty then [] else [cur.reverse]
  | c :: cs =>
    if isBlank c then
      if cur.isEmpty then tokensFrom [] cs else cur.reverse :: tokensFrom [] cs
    else tokensFrom (c :: cur) cs

/-- Commas to spaces, white space collapsed, lower case, trimmed: the line as its tokens (R281). -/
def lineTokens (line : Text) : List Text :=
  tokensFrom [] (line.map normalChar)

/-! ### Operands (R283, R284, R289) -/

/-- A register operand: exactly one of the 32 names (R283). -/
def parseReg (names : List Text) (t : Text) : Option RegIx :=
  (names.idxOf? t).map fun i => BitVec.ofNat 5 i

/-- An immediate: any literal, cut to the low 16 bits (R289). -/
def parseImm (t : Text) : Option Imm16 :=
  (parseInt t).map fun n => BitVec.ofInt 16 n

/-- A jump target: any literal, cut to the low 26 bits (R289). -/
def parseTarget (t : Text) : Option Target :=
  (parseInt t).map fun n => BitVec.ofInt 26 n

/-- A shift amount: a literal outside 0 .. 31 fails (R289). -/
def parseShamt (t : Text) : Option Shamt :=
  match parseInt t with
  | some n => if 0 ≤ n ∧ n ≤ 31 then some (BitVec.ofInt 5 n) else none
  | none => none

/-- `<imm>(<rs>)` as one token: the displacement's text and the base's text (R285). -/
def splitMemOperand (t : Text) : Option (Text × Text) :=
  match t.dropWhile (· != '(') with
  | [] => none
  | _ :: rest => if rest.getLast? = some ')' then some (t.takeWhile (· != '('), rest.dropLast) else none

/-! ### The twelve families (R285)

A family answers `none` if its pattern does not match the line, `some none` if it matches and an operand cannot be
resolved, `some (some i)` for the instruction assembled. Fields the line does not name are 0 (R287). -/

/-- Every field 0. -/
def noFields : Fields where
  opcode := 0
  rs := 0
  rt := 0
  rd := 0
  shamt := 0
  funct := 0
  imm := 0
  target := 0

/-- The R-format operation among `ops` that a mnemonic names. -/
def functNamed (ops : List FunctOp) (m : Text) : Option FunctOp :=
  ops.find? fun o => functText o == m

/-- The I- or J-format operation among `ops` that a mnemonic names. -/
def primaryNamed (ops : List PrimaryOp) (m : Text) : Option PrimaryOp :=
  ops.find? fun o => primaryText o == m

/-- 1 shift: `<m> <rd> <rt> <shamt>`. -/
def asmShift (names : List Text) : List Text → Option (Option Instr)
  | [m, d, t, n] => (functNamed [.sll, .srl, .sra] m).map fun o =>
    match parseReg names d, parseReg names t, parseShamt n with
    | some rd, some rt, some shamt => some (instrOfFunct { noFields with rd := rd, rt := rt, shamt := shamt } o)
    | _, _, _ => none
  | _ => none

/-- 2 jr: `jr <rs>`. -/
def asmJr (names : List Text) : List Text → Option (Option Instr)
  | [m, a] => (functNamed [.jr] m).map fun o =>
    (parseReg names a).map fun rs => instrOfFunct { noFields with rs := rs } o
  | _ => none

/-- 3 syscall: no operand. -/
def asmSyscall : List Text → Option (Option Instr)
  | [m] => (functNamed [.syscall] m).map fun o => some (instrOfFunct noFields o)
  | _ => none

/-- 4 mfhi/mflo: `<m> <rd>`. -/
def asmMoveFrom (names : List Text) : List Text → Option (Option Instr)
  | [m, d] => (functNamed [.mfhi, .mflo] m).map fun o =>
    (parseReg names d).map fun rd => instrOfFunct { noFields with rd := rd } o
  | _ => none

/-- Three registers `<m> <rd> <rs> <rt>` with a mnemonic among `ops`. -/
def asmThree (ops : List FunctOp) (names : List Text) : List Text → Option (Option Instr)
  | [m, d, a, t] => (functNamed ops m).map fun o =>
    match parseReg names d, parseReg names a, parseReg names t with
    | some rd, some rs, some rt => some (instrOfFunct { noFields with rd := rd, rs := rs, rt := rt } o)
    | _, _, _ => none
  | _ => none

/-- 5 three-register arithmetic and logic, DIV and SLT among them. -/
def asmArith (names : List Text) : List Text → Option (Option Instr) :=
  asmThree [.add, .sub, .and, .or, .xor, .nor, .slt, .div] names

/-- 6 j/jal: `<m> <target>`. -/
def asmJump : List Text → Option (Option Instr)
  | [m, n] => (primaryNamed [.j, .jal] m).map fun o =>
    (parseTarget n).map fun target => instrOfPrimary { noFields with target := target } o
  | _ => none

/-- 7 bltz: `bltz <rs> <imm>`; `rt` is 0. -/
def asmBltz (names : List Text) : List Text → Option (Option Instr)
  | [m, a, n] => (primaryNamed [.bltz] m).map fun o =>
    match parseReg names a, parseImm n with
    | some rs, some imm => some (instrOfPrimary { noFields with rs := rs, imm := imm } o)
    | _, _ => none
  | _ => none

/-- 8 beq/bne: `<m> <rs> <rt> <imm>`. -/
def asmBranch (names : List Text) : List Text → Option (Option Instr)
  | [m, a, t, n] => (primaryNamed [.beq, .bne] m).map fun o =>
    match parseReg names a, parseReg names t, parseImm n with
    | some rs, some rt, some imm => some (instrOfPrimary { noFields with rs := rs, rt := rt, imm := imm } o)
    | _, _, _ => none
  | _ => none

/-- 9 addi-family: `<m> <rt> <rs> <imm>`. -/
def asmImmediate (names : List Text) : List Text → Option (Option Instr)
  | [m, t, a, n] => (primaryNamed [.addi, .addiu, .slti, .sltiu, .andi, .ori, .xori] m).map fun o =>
    match parseReg names t, parseReg names a, parseImm n with
    | some rt, some rs, some imm => some (instrOfPrimary { noFields with rs := rs, rt := rt, imm := imm } o)
    | _, _, _ => none
  | _ => none

/-- 10 lui: `lui <rt> <imm>`. -/
def asmLui (names : List Text) : List Text → Option (Option Instr)
  | [m, t, n] => (primaryNamed [.lui] m).map fun o =>
    match parseReg names t, parseImm n with
    | some rt, some imm => some (instrOfPrimary { noFields with rt := rt, imm := imm } o)
    | _, _ => none
  | _ => none

/-- 11 load/store: `<m> <rt> <imm>(<rs>)`. -/
def asmLoadStore (names : List Text) : List Text → Option (Option Instr)
  | [m, t, operand] => (primaryNamed [.lw, .sw, .lb, .sb, .lbu] m).map fun o =>
    match splitMemOperand operand with
    | some (n, a) =>
      match parseReg names t, parseImm n, parseReg names a with
      | some rt, some imm, some rs => some (instrOfPrimary { noFields with rs := rs, rt := rt, imm := imm } o)
      | _, _, _ => none
    | none => none
  | _ => none

/-- 12 mul: `mul <rd> <rs> <rt>` (R288). -/
def asmMul (names : List Text) : List Text → Option (Option Instr) :=
  asmThree [.mul] names

/-! ### The Encoder -/

/-- The twelve families in the fixed priority order: the first whose pattern matches decides (R282). -/
def asmFamilies (names : List Text) : List (List Text → Option (Option Instr)) :=
  [asmShift names, asmJr names, asmSyscall, asmMoveFrom names, asmArith names, asmJump] ++
  [asmBltz names, asmBranch names, asmImmediate names, asmLui names, asmLoadStore names, asmMul names]

/-- The instruction of a line's tokens, or the failure of R286. -/
def assembleTokens (names : List Text) (tokens : List Text) : Option Instr :=
  match (asmFamilies names).findSome? fun family => family tokens with
  | some i => i
  | none => none

/-- The Encoder on a line given as characters. -/
def assembleText (c : Config) (line : Text) : Option Word :=
  (assembleTokens c.regNames (lineTokens line)).map (encode c.encoding)

/-- `encode(line: String) -> Option<u32>` (R280). -/
def assemble (c : Config) (line : String) : Option Word :=
  assembleText c line.toList

end Sys2Proof.Machine
end

