-- ==== Sys2Proof/Machine/Disasm.lean ====
section
/-! DEFINITION. The Decoder's text output (spec/49_decoder_encoder.md R270 to R278): pure and total. -/

namespace Sys2Proof.Machine

/-- The name of a register (spec/10_state.md R22, R271). -/
def regText (names : List Text) (i : RegIx) : Text :=
  names.getD i.toNat []

/-- `<imm>(<rs>)`, no space between (R276). -/
def memOperand (imm : Imm16) (base : Text) : Text :=
  printInt imm.toInt ++ '(' :: base ++ [')']

/-- The mnemonic and the printed operands, in order (R272, R274, R275, R276): immediates as signed decimal even where
execution zero-extends them (R271); BLTZ's `rt` is not printed. `r` prints a register. -/
def instrTokens (r : RegIx → Text) : Instr → List Text
  | .sll _ rt rd shamt => [functText .sll, r rd, r rt, printNat 10 shamt.toNat]
  | .srl _ rt rd shamt => [functText .srl, r rd, r rt, printNat 10 shamt.toNat]
  | .sra _ rt rd shamt => [functText .sra, r rd, r rt, printNat 10 shamt.toNat]
  | .jr rs _ _ _ => [functText .jr, r rs]
  | .syscall _ _ _ _ => [functText .syscall]
  | .mfhi _ _ rd _ => [functText .mfhi, r rd]
  | .mflo _ _ rd _ => [functText .mflo, r rd]
  | .mul rs rt rd _ => [functText .mul, r rd, r rs, r rt]
  | .div rs rt rd _ => [functText .div, r rd, r rs, r rt]
  | .add rs rt rd _ => [functText .add, r rd, r rs, r rt]
  | .sub rs rt rd _ => [functText .sub, r rd, r rs, r rt]
  | .and rs rt rd _ => [functText .and, r rd, r rs, r rt]
  | .or rs rt rd _ => [functText .or, r rd, r rs, r rt]
  | .xor rs rt rd _ => [functText .xor, r rd, r rs, r rt]
  | .nor rs rt rd _ => [functText .nor, r rd, r rs, r rt]
  | .slt rs rt rd _ => [functText .slt, r rd, r rs, r rt]
  | .bltz rs _ imm => [primaryText .bltz, r rs, printInt imm.toInt]
  | .beq rs rt imm => [primaryText .beq, r rs, r rt, printInt imm.toInt]
  | .bne rs rt imm => [primaryText .bne, r rs, r rt, printInt imm.toInt]
  | .addi rs rt imm => [primaryText .addi, r rt, r rs, printInt imm.toInt]
  | .addiu rs rt imm => [primaryText .addiu, r rt, r rs, printInt imm.toInt]
  | .slti rs rt imm => [primaryText .slti, r rt, r rs, printInt imm.toInt]
  | .sltiu rs rt imm => [primaryText .sltiu, r rt, r rs, printInt imm.toInt]
  | .andi rs rt imm => [primaryText .andi, r rt, r rs, printInt imm.toInt]
  | .ori rs rt imm => [primaryText .ori, r rt, r rs, printInt imm.toInt]
  | .xori rs rt imm => [primaryText .xori, r rt, r rs, printInt imm.toInt]
  | .lui _ rt imm => [primaryText .lui, r rt, printInt imm.toInt]
  | .lb rs rt imm => [primaryText .lb, r rt, memOperand imm (r rs)]
  | .lw rs rt imm => [primaryText .lw, r rt, memOperand imm (r rs)]
  | .lbu rs rt imm => [primaryText .lbu, r rt, memOperand imm (r rs)]
  | .sb rs rt imm => [primaryText .sb, r rt, memOperand imm (r rs)]
  | .sw rs rt imm => [primaryText .sw, r rt, memOperand imm (r rs)]
  | .j target => [primaryText .j, '0' :: 'x' :: printNat 16 target.toNat]
  | .jal target => [primaryText .jal, '0' :: 'x' :: printNat 16 target.toNat]

/-- Tokens separated by single spaces (R270). -/
def joinTokens : List Text → Text
  | [] => []
  | [t] => t
  | t :: u :: ts => t ++ ' ' :: joinTokens (u :: ts)

/-- "`Unknown Instruction 0x<word hex>`": lower case, no leading zeros, for an unrecognised opcode and for an unrecognised
`funct` alike (R273, R278). DESIGN CHOICE (the spec's D23, D25), log 26. -/
def unknownText (w : Word) : Text :=
  "Unknown Instruction 0x".toList ++ printNat 16 w.toNat

/-- The Decoder's text of a word, as characters. -/
def disassembleText (c : Config) (w : Word) : Text :=
  match decode c.encoding w with
  | .ok i => joinTokens (instrTokens (regText c.regNames) i)
  | .error _ => unknownText w

/-- `decode(word) -> String` (R270). -/
def disassemble (c : Config) (w : Word) : String :=
  String.ofList (disassembleText c w)

end Sys2Proof.Machine
end

