-- ==== Sys2Proof/Machine/HostOps.lean ====
section
/-! DEFINITION. What the host may do between steps (spec/00_scope.md R6, R9): the Register File's `set`, `jump`, `reset`,
snapshot and view, the Memory's sized accessors, `reset` and `view`, the sink's clear, and the boot sequence. -/

namespace Sys2Proof.Machine

/-! ### Register File -/

/-- `set(index, value)`: an index outside [0, 32) is logged and changes no register (spec/10_state.md R25). -/
def State.hostSet (s : State) (index value : Int) : State :=
  if 0 ≤ index ∧ index < 32 then s.setReg (BitVec.ofInt 5 index) (BitVec.ofInt 32 value)
  else s.logError (.regIndexInvalid index)

/-- `jump(address)`: unconditional, no alignment check, no segment check (R26). -/
def State.hostJump (s : State) (address : Word) : State :=
  s.setPc address

/-- `register.reset()`: the Register File rows of R36, and the snapshot is cleared (R37). -/
def State.registerReset (s : State) : State :=
  { s with regs := RegFile.reset s.cfg.pcReset, saved := none }

/-- `saveState()`: copy the 35 values into the snapshot (R32). -/
def State.saveState (s : State) : State :=
  { s with saved := some s.regs }

/-- The named-entries view of a Register File: `PC`, `HI`, `LO` and the 32 named registers (R33). -/
def namedEntries (names : List Text) (r : RegFile) : List (Text × Word) :=
  [(['P', 'C'], r.pc), (['H', 'I'], r.hi), (['L', 'O'], r.lo)] ++ names.zip r.gpr.toList

/-- The view as the host shows it, each value hexadecimal (R33). DESIGN CHOICE: `0x` and lower-case digits without leading
zeros, log 24. -/
def State.namedView (s : State) : List (Text × Text) :=
  (namedEntries s.cfg.regNames s.regs).map fun p => (p.1, '0' :: 'x' :: printNat 16 p.2.toNat)

/-- The names under which two Register Files differ. -/
def differingNames (names : List Text) (r t : RegFile) : List Text :=
  ((namedEntries names r).zip (namedEntries names t)).filterMap fun p => if p.1.2 = p.2.2 then none else some p.1.1

/-- `compareState()`: the names whose values differ from the snapshot; none if nothing was saved (R32). DESIGN CHOICE
(the spec's D24), log 24. -/
def State.compareState (s : State) : List Text :=
  match s.saved with
  | none => []
  | some r => differingNames s.cfg.regNames s.regs r

/-! ### Memory -/

/-- `getByte`, `getHalfWord`, `getWord` (spec/20_memory.md R54, R58). -/
def State.hostGet (s : State) (n : Width) (a : Word) : Except Refusal (Word × State) :=
  s.memRead a n

/-- `setByte`, `setHalfWord`, `setWord` (R54, R59). -/
def State.hostPut (s : State) (n : Width) (a v : Word) : Except Refusal State :=
  s.memWrite a n v

/-- `memory.reset()`: every byte of every segment becomes 0 (R65). -/
def State.memoryReset (s : State) : State :=
  s.setMem []

/-- `count` pairs `(a, MemRead(a, 4))` from `a` in steps of 4; a faulting address logs as any read. -/
def State.viewFrom (s : State) (a : Word) : Nat → Except Refusal (List (Word × Word) × State)
  | 0 => .ok ([], s)
  | count + 1 =>
    match s.memRead a .word with
    | .error r => .error r
    | .ok (v, s') =>
      match State.viewFrom s' (a + 4) count with
      | .error r => .error r
      | .ok (rest, t) => .ok ((a, v) :: rest, t)

/-- `view(start, end)`: the words at start, start + 4, ... below end (R66). DESIGN CHOICE (the spec's D24), log 24. -/
def State.view (s : State) (start stop : Word) : Except Refusal (List (Word × Word) × State) :=
  s.viewFrom start ((stop.toNat - start.toNat + 3) / 4)

/-! ### The output sink (R31) -/

/-- The host's clear of the normal channel. -/
def State.clearNormal (s : State) : State :=
  { s with sink := { s.sink with normal := [] } }

/-- The host's clear of the error channel. -/
def State.clearError (s : State) : State :=
  { s with sink := { s.sink with error := [] } }

/-- The host's clear of the debug channel. -/
def State.clearDebug (s : State) : State :=
  { s with sink := { s.sink with debug := [] } }

/-- What the host reads in the debug channel: nothing constrains it (spec/93_implementation_defined.md U18). -/
def State.debugRecords (s : State) : List DebugRecord :=
  (s.sink.debug).flatMap Config.freeDebugRecords

/-! ### Boot (spec/70_reset_and_hazards.md R333) -/

/-- Store words at `base`, `base + 4`, ... with `setWord`. -/
def State.loadWords (s : State) (base : Word) : List Word → Except Refusal State
  | [] => .ok s
  | w :: ws =>
    match s.hostPut .word base w with
    | .error r => .error r
    | .ok s' => State.loadWords s' (base + 4) ws

/-- The conventional boot sequence: both resets, the program's words at `base`, then `jump(entry)` (R333). -/
def State.boot (s : State) (base entry : Word) (program : List Word) : Except Refusal State :=
  match s.registerReset.memoryReset.loadWords base program with
  | .error r => .error r
  | .ok s' => .ok (s'.hostJump entry)

end Sys2Proof.Machine
end

