-- ==== Sys2Proof/Machine/Run.lean ====
section
/-! DEFINITION. `run()`: step until a step's outcome is halt (spec/41_engine_step.md R149, R151). The hardware has no
iteration guard; the model runs it under fuel, and running out of fuel is no result, never a halt. -/

namespace Sys2Proof.Machine

/-- How a run under fuel ends. -/
inductive RunEnd where
  /-- The last step's outcome was halt: its reason and the state after it (R151). -/
  | halted (reason : HaltReason) (s : State)
  /-- No result: the fuel ran out in this state. -/
  | outOfFuel (s : State)
  /-- A step was refused (R61). -/
  | refused (reason : Refusal)
deriving DecidableEq, Repr

/-- `run()` with at most `fuel` steps. -/
def run : Nat → State → RunEnd
  | 0, s => .outOfFuel s
  | fuel + 1, s =>
    match step s with
    | .next t =>
      match t.outcome with
      | .halt reason => .halted reason t
      | .cont => run fuel t
    | .fault f => nomatch f
    | .refused r => .refused r

end Sys2Proof.Machine
end

