-- ==== Sys2Proof/WellFormed.lean ====
section
/-! DEFINITION. The checks. The width of every field of an instruction is its type, so every term of `Instr` is an
instruction some word holds (spec/30_encoding.md R81, spec/10_state.md R21). What can be ill formed is a configuration
record (R89, R90, R22), and what can be uncanonical is an instruction whose unprinted fields are not zero
(spec/49_decoder_encoder.md R277, R287). -/

namespace Sys2Proof

open Sys2Proof.Machine

/-- "The 18 values are distinct and none is 0" (R89). -/
def Encoding.opcodesWf (e : Encoding) : Bool :=
  decide (PrimaryOp.all.map e.primary).Nodup && !(PrimaryOp.all.map e.primary).contains 0

/-- "The 16 values are distinct" (R90). -/
def Encoding.functsWf (e : Encoding) : Bool :=
  decide (FunctOp.all.map e.funct).Nodup

/-- The register fields lie in the 15 bits that opcode, `shamt` and `funct` leave, and `rs`, `rt` above the 16-bit
immediate (R81, R95). -/
def Encoding.positionsWf (e : Encoding) : Bool :=
  (decide (e.rsPos = 21 ∧ e.rtPos = 16) || decide (e.rsPos = 16 ∧ e.rtPos = 21)) && decide (e.rdPos = 11)

/-- A configuration record a decoder can be built from. -/
def Encoding.wf (e : Encoding) : Bool :=
  e.opcodesWf && e.functsWf && e.positionsWf

/-- A register name is a token of preprocessed text that a load or store operand can hold (R276, R281, R283). -/
def regNameWf (name : Text) : Bool :=
  !name.isEmpty && name.all fun c => !isBlank c && normalChar c == c && c != '(' && c != ')'

/-- "32 name-to-index entries" (R22). -/
def regNamesWf (names : List Text) : Bool :=
  decide (names.length = 32) && decide names.Nodup && names.all regNameWf

/-- A configuration a machine can be built for. -/
def Config.wf (c : Config) : Bool :=
  c.encoding.wf && regNamesWf c.regNames

/-- Every field the instruction's text does not name is 0 (R272, R275, R276, R287): the words the assembler makes. -/
def Instr.canonical : Instr → Bool
  | .sll rs _ _ _ => rs == 0
  | .srl rs _ _ _ => rs == 0
  | .sra rs _ _ _ => rs == 0
  | .jr _ rt rd shamt => rt == 0 && rd == 0 && shamt == 0
  | .syscall rs rt rd shamt => rs == 0 && rt == 0 && rd == 0 && shamt == 0
  | .mfhi rs rt _ shamt => rs == 0 && rt == 0 && shamt == 0
  | .mflo rs rt _ shamt => rs == 0 && rt == 0 && shamt == 0
  | .mul _ _ _ shamt => shamt == 0
  | .div _ _ _ shamt => shamt == 0
  | .add _ _ _ shamt => shamt == 0
  | .sub _ _ _ shamt => shamt == 0
  | .and _ _ _ shamt => shamt == 0
  | .or _ _ _ shamt => shamt == 0
  | .xor _ _ _ shamt => shamt == 0
  | .nor _ _ _ shamt => shamt == 0
  | .slt _ _ _ shamt => shamt == 0
  | .bltz _ rt _ => rt == 0
  | .beq _ _ _ => true
  | .bne _ _ _ => true
  | .addi _ _ _ => true
  | .addiu _ _ _ => true
  | .slti _ _ _ => true
  | .sltiu _ _ _ => true
  | .andi _ _ _ => true
  | .ori _ _ _ => true
  | .xori _ _ _ => true
  | .lui rs _ _ => rs == 0
  | .lb _ _ _ => true
  | .lw _ _ _ => true
  | .lbu _ _ _ => true
  | .sb _ _ _ => true
  | .sw _ _ _ => true
  | .j _ => true
  | .jal _ => true

end Sys2Proof
end

