-- ==== Sys2Proof/Safety.lean ====
section
/-! DEFINITION. The terms claims about this machine are made in: the invariant, what a state leaves of another, the word
a step fetches, which instructions write what, and a run without faults. -/

namespace Sys2Proof.Machine

/-- The invariant every step keeps: memory is in canonical form, with no entry outside the three segments, and the
configuration is one a machine can be built for. -/
def State.Inv (s : State) : Prop :=
  s.mem.wf = true ∧ s.cfg.wf = true

/-- `t` in terms of `s`, with nothing left out: the general registers, `PC`, `HI`, `LO`, every byte of memory, the
sink, and the outcome are as given; the snapshot, the counter of free values and the configuration are those of `s`. -/
def Leaves (s t : State) (gpr : RegIx → Word) (pc hi lo : Word) (bytes : Word → Byte) (sink : Sink)
    (outcome : StepOutcome) : Prop :=
  (∀ r, t.reg r = gpr r) ∧ t.pc = pc ∧ t.hi = hi ∧ t.lo = lo ∧ (∀ a, t.mem.byte a = bytes a) ∧ t.sink = sink ∧
    t.outcome = outcome ∧ t.saved = s.saved ∧ t.freeIndex = s.freeIndex ∧ t.cfg = s.cfg

/-- The register values of `s` with register `d` replaced. -/
def State.regsWith (s : State) (d : RegIx) (v : Word) : RegIx → Word :=
  fun r => if r = d then v else s.reg r

/-- The sink of `s` with events appended to the error channel. -/
def State.sinkWithErrors (s : State) (events : List ErrorEvent) : Sink :=
  { s.sink with error := s.sink.error ++ events }

/-- The sink of `s` with an event appended to the normal channel. -/
def State.sinkWithPrint (s : State) (event : NormalEvent) : Sink :=
  { s.sink with normal := s.sink.normal ++ [event] }

/-- `t` is `s` with one general register written, and nothing else changed. -/
def WritesReg (s t : State) (d : RegIx) (v : Word) : Prop :=
  Leaves s t (s.regsWith d v) s.pc s.hi s.lo s.mem.byte s.sink s.outcome

/-- `t` is `s` with `PC` written, and nothing else changed. -/
def WritesPc (s t : State) (pc : Word) : Prop :=
  Leaves s t s.reg pc s.hi s.lo s.mem.byte s.sink s.outcome

/-- `t` is `s` with events appended to the error channel, and nothing else changed. -/
def OnlyLogs (s t : State) (events : List ErrorEvent) : Prop :=
  Leaves s t s.reg s.pc s.hi s.lo s.mem.byte (s.sinkWithErrors events) s.outcome

/-- An R-format word, field by field from bit 31 down (spec/30_encoding.md R82). -/
def rFormat (funct : BitVec 6) (rs rt rd : RegIx) (shamt : Shamt) : Word :=
  0#6 ++ rs ++ rt ++ rd ++ shamt ++ funct

/-- An I-format word, field by field from bit 31 down (R83). -/
def iFormat (opcode : BitVec 6) (rs rt : RegIx) (imm : Imm16) : Word :=
  opcode ++ rs ++ rt ++ imm

/-- A J-format word, field by field from bit 31 down (R84). -/
def jFormat (opcode : BitVec 6) (target : Target) : Word :=
  opcode ++ target

/-- The word the next step fetches, if the fetch is not refused (spec/41_engine_step.md R141). -/
def State.fetchedWord (s : State) : Option Word :=
  match s.fetch with
  | .ok (w, _) => some w
  | .error _ => none

/-- The access is performed on the bytes of its segment: its first address is in a segment, and it either ends there
or the parameter says that the bytes past the end read as zero and are dropped (spec/20_memory.md R60, R61). -/
def Performed (c : Config) (a : Word) (n : Width) : Prop :=
  mapped a = true ∧ (overruns a n = false ∨ c.segOverrun = .zeroFillDrop)

/-- The access is an addressing fault: an invalid selector, or an overrun under `SEG_OVERRUN` = FAULT (R56, R61). -/
def FaultingAccess (c : Config) (a : Word) (n : Width) : Prop :=
  mapped a = false ∨ (overruns a n = true ∧ c.segOverrun = .fault)

/-- The access is one `SEG_OVERRUN` = REFUSE gives no meaning (R61). -/
def RefusedAccess (c : Config) (a : Word) (n : Width) : Prop :=
  mapped a = true ∧ overruns a n = true ∧ c.segOverrun = .refuse

/-- The general register an instruction may write (spec/10_state.md R23): `rd`, `rt` or `$ra`; DIV writes `rd` only
under `UNK_FUNCT_WRITES_RD` (spec/41_engine_step.md R146, R147). -/
def destination (c : Config) : Instr → Option RegIx
  | .sll _ _ rd _ => some rd
  | .srl _ _ rd _ => some rd
  | .sra _ _ rd _ => some rd
  | .jr _ _ _ _ => none
  | .syscall _ _ _ _ => none
  | .mfhi _ _ rd _ => some rd
  | .mflo _ _ rd _ => some rd
  | .mul _ _ _ _ => none
  | .div _ _ rd _ => if c.unkFunctWritesRd then some rd else none
  | .add _ _ rd _ => some rd
  | .sub _ _ rd _ => some rd
  | .and _ _ rd _ => some rd
  | .or _ _ rd _ => some rd
  | .xor _ _ rd _ => some rd
  | .nor _ _ rd _ => some rd
  | .slt _ _ rd _ => some rd
  | .bltz _ _ _ => none
  | .beq _ _ _ => none
  | .bne _ _ _ => none
  | .addi _ rt _ => some rt
  | .addiu _ _ _ => none
  | .slti _ rt _ => some rt
  | .sltiu _ _ _ => none
  | .andi _ rt _ => some rt
  | .ori _ rt _ => some rt
  | .xori _ rt _ => some rt
  | .lui _ rt _ => some rt
  | .lb _ rt _ => some rt
  | .lw _ rt _ => some rt
  | .lbu _ rt _ => some rt
  | .sb _ _ _ => none
  | .sw _ _ _ => none
  | .j _ => none
  | .jal _ => some 31

/-- The instructions that change `PC` after the fetch (spec/10_state.md R23, R27). -/
def isControlTransfer : Instr → Bool
  | .sll _ _ _ _ => false
  | .srl _ _ _ _ => false
  | .sra _ _ _ _ => false
  | .jr _ _ _ _ => true
  | .syscall _ _ _ _ => false
  | .mfhi _ _ _ _ => false
  | .mflo _ _ _ _ => false
  | .mul _ _ _ _ => false
  | .div _ _ _ _ => false
  | .add _ _ _ _ => false
  | .sub _ _ _ _ => false
  | .and _ _ _ _ => false
  | .or _ _ _ _ => false
  | .xor _ _ _ _ => false
  | .nor _ _ _ _ => false
  | .slt _ _ _ _ => false
  | .bltz _ _ _ => true
  | .beq _ _ _ => true
  | .bne _ _ _ => true
  | .addi _ _ _ => false
  | .addiu _ _ _ => false
  | .slti _ _ _ => false
  | .sltiu _ _ _ => false
  | .andi _ _ _ => false
  | .ori _ _ _ => false
  | .xori _ _ _ => false
  | .lui _ _ _ => false
  | .lb _ _ _ => false
  | .lw _ _ _ => false
  | .lbu _ _ _ => false
  | .sb _ _ _ => false
  | .sw _ _ _ => false
  | .j _ => true
  | .jal _ => true

/-- A step logged no fault (spec/70_reset_and_hazards.md R346). -/
def NoFaultLogged (s t : State) : Prop :=
  t.sink.error = s.sink.error

/-- A safe run: under this fuel it halts, and no fault was logged on the way (R346; spec/41_engine_step.md R151). -/
def SafeRun (fuel : Nat) (s : State) : Prop :=
  ∃ reason t, run fuel s = .halted reason t ∧ NoFaultLogged s t

end Sys2Proof.Machine
end

