-- ==== Sys2Proof/Certificates/Slice0/Obligations.lean ====
section
/-! DEFINITION. The statements for the provers. Each is about every state and operand its hypotheses allow; where it
rests on a value or a behaviour that is the model's choice, its docstring names the log entry. -/

open Sys2Proof Sys2Proof.Machine

/-- For every well-formed configuration record of the encoding (distinct opcodes and functs, legal field positions) and every instruction with every operand value, decode (encode i) is i. -/
def Obligations.DecodeOfEncodeIsTheInstruction : Prop :=
  ∀ (e : Encoding) (i : Instr), e.wf = true → decode e (encode e i) = .ok i

/-- For every configuration record with a legal layout, if a word decodes to an instruction, encoding the instruction gives the word, don't-care fields included. -/
def Obligations.EncodeOfDecodeIsTheWord : Prop :=
  ∀ (e : Encoding) (w : Word) (i : Instr), e.positionsWf = true → decode e w = .ok i → encode e i = w

/-- For each of the 34 instructions and every operand, its word under the default record is the concatenation opcode/rs/rt/rd/shamt/funct, opcode/rs/rt/imm or opcode/target of R82 to R84 with the numeric value of R89 or R90. The default values are the model's choice (log 2, 3). -/
def Obligations.DefaultWordsFollowTheFormats : Prop :=
  ∀ (rs rt rd : RegIx) (sh : Shamt) (imm : Imm16) (target : Target),
    encode defaultEncoding (.sll rs rt rd sh) = rFormat 0x00 rs rt rd sh ∧
    encode defaultEncoding (.srl rs rt rd sh) = rFormat 0x02 rs rt rd sh ∧
    encode defaultEncoding (.sra rs rt rd sh) = rFormat 0x03 rs rt rd sh ∧
    encode defaultEncoding (.jr rs rt rd sh) = rFormat 0x08 rs rt rd sh ∧
    encode defaultEncoding (.syscall rs rt rd sh) = rFormat 0x0C rs rt rd sh ∧
    encode defaultEncoding (.mfhi rs rt rd sh) = rFormat 0x10 rs rt rd sh ∧
    encode defaultEncoding (.mflo rs rt rd sh) = rFormat 0x12 rs rt rd sh ∧
    encode defaultEncoding (.mul rs rt rd sh) = rFormat 0x18 rs rt rd sh ∧
    encode defaultEncoding (.div rs rt rd sh) = rFormat 0x1A rs rt rd sh ∧
    encode defaultEncoding (.add rs rt rd sh) = rFormat 0x20 rs rt rd sh ∧
    encode defaultEncoding (.sub rs rt rd sh) = rFormat 0x22 rs rt rd sh ∧
    encode defaultEncoding (.and rs rt rd sh) = rFormat 0x24 rs rt rd sh ∧
    encode defaultEncoding (.or rs rt rd sh) = rFormat 0x25 rs rt rd sh ∧
    encode defaultEncoding (.xor rs rt rd sh) = rFormat 0x26 rs rt rd sh ∧
    encode defaultEncoding (.nor rs rt rd sh) = rFormat 0x27 rs rt rd sh ∧
    encode defaultEncoding (.slt rs rt rd sh) = rFormat 0x2A rs rt rd sh ∧
    encode defaultEncoding (.bltz rs rt imm) = iFormat 0x01 rs rt imm ∧
    encode defaultEncoding (.beq rs rt imm) = iFormat 0x04 rs rt imm ∧
    encode defaultEncoding (.bne rs rt imm) = iFormat 0x05 rs rt imm ∧
    encode defaultEncoding (.addi rs rt imm) = iFormat 0x08 rs rt imm ∧
    encode defaultEncoding (.addiu rs rt imm) = iFormat 0x09 rs rt imm ∧
    encode defaultEncoding (.slti rs rt imm) = iFormat 0x0A rs rt imm ∧
    encode defaultEncoding (.sltiu rs rt imm) = iFormat 0x0B rs rt imm ∧
    encode defaultEncoding (.andi rs rt imm) = iFormat 0x0C rs rt imm ∧
    encode defaultEncoding (.ori rs rt imm) = iFormat 0x0D rs rt imm ∧
    encode defaultEncoding (.xori rs rt imm) = iFormat 0x0E rs rt imm ∧
    encode defaultEncoding (.lui rs rt imm) = iFormat 0x0F rs rt imm ∧
    encode defaultEncoding (.lb rs rt imm) = iFormat 0x20 rs rt imm ∧
    encode defaultEncoding (.lw rs rt imm) = iFormat 0x23 rs rt imm ∧
    encode defaultEncoding (.lbu rs rt imm) = iFormat 0x24 rs rt imm ∧
    encode defaultEncoding (.sb rs rt imm) = iFormat 0x28 rs rt imm ∧
    encode defaultEncoding (.sw rs rt imm) = iFormat 0x2B rs rt imm ∧
    encode defaultEncoding (.j target) = jFormat 0x02 target ∧
    encode defaultEncoding (.jal target) = jFormat 0x03 target

/-- A word is rejected under the default record if and only if its opcode is not 0 and none of the 18 listed values, or its opcode is 0 and its funct none of the 16 listed values. The default values are the model's choice (log 2). -/
def Obligations.RejectedWordsAreTheUnlistedOnes : Prop :=
  ∀ w : Word,
    (∃ u, decode defaultEncoding w = .error u) ↔
      (w.extractLsb' 26 6 ≠ 0 ∧
        w.extractLsb' 26 6 ∉ ([0x01, 0x02, 0x03, 0x04, 0x05, 0x08, 0x09, 0x0A, 0x0B, 0x0C, 0x0D, 0x0E, 0x0F, 0x20, 0x23,
          0x24, 0x28, 0x2B] : List (BitVec 6))) ∨
      (w.extractLsb' 26 6 = 0 ∧
        w.extractLsb' 0 6 ∉ ([0x00, 0x02, 0x03, 0x08, 0x0C, 0x10, 0x12, 0x18, 0x1A, 0x20, 0x22, 0x24, 0x25, 0x26, 0x27,
          0x2A] : List (BitVec 6)))

/-- One word of every family, as the spec's test vectors write it, decodes under the default record to its instruction with its operands. What a written-out word stands for is the default record's, the model's choice (log 2, 3). -/
def Obligations.SpecWordsDecode : Prop :=
  decode defaultEncoding 0x00094100 = .ok (.sll 0 9 8 4) ∧
  decode defaultEncoding 0x01095020 = .ok (.add 8 9 10 0) ∧
  decode defaultEncoding 0x01090018 = .ok (.mul 8 9 0 0) ∧
  decode defaultEncoding 0x00005812 = .ok (.mflo 0 0 11 0) ∧
  decode defaultEncoding 0x2128FFFF = .ok (.addi 9 8 0xFFFF) ∧
  decode defaultEncoding 0x8D500000 = .ok (.lw 10 16 0) ∧
  decode defaultEncoding 0xA1280002 = .ok (.sb 9 8 2) ∧
  decode defaultEncoding 0x08100008 = .ok (.j 0x100008) ∧
  decode defaultEncoding 0x1509FFFE = .ok (.bne 8 9 0xFFFE) ∧
  decode defaultEncoding 0x03E00008 = .ok (.jr 31 0 0 0) ∧
  decode defaultEncoding 0x0000000C = .ok (.syscall 0 0 0 0)

/-- encode of the line 'ori $v0 $zero 10' is 0x3402000a and decode of 0x3402000a is that line, under the defaults. -/
def Obligations.WorkedExampleBothWays : Prop :=
  assemble defaultConfig "ori $v0 $zero 10" = some 0x3402000A ∧
  disassemble defaultConfig 0x3402000A = "ori $v0 $zero 10"

/-- For every well-formed configuration and every word that selects an instruction: its text assembles; the word assembled disassembles to the same text; and it is the original word if and only if every field the text does not print is 0. -/
def Obligations.DisassembledTextAssemblesBack : Prop :=
  ∀ (c : Config) (w : Word) (i : Instr), c.wf = true → decode c.encoding w = .ok i →
    ∃ w', assemble c (disassemble c w) = some w' ∧ disassemble c w' = disassemble c w ∧
      (w' = w ↔ i.canonical = true)

/-- For every well-formed configuration and every text line at all: if the line assembles to a word, the disassembly of that word assembles to the same word. -/
def Obligations.AssembledLinesReassemble : Prop :=
  ∀ (c : Config) (line : String) (w : Word), c.wf = true → assemble c line = some w →
    assemble c (disassemble c w) = some w

/-- A newly created machine under the defaults: the stack pointer register is 0x80000000, every other general register, HI and LO are 0, every byte of memory is 0, the snapshot and the three channels are empty, and PC is the parameter PC_RESET, by default 0x00400000; the reset stack pointer is outside every segment and the word below it is the last stack word. The model's choices: index 29 for the stack pointer (log 5), the value of PC_RESET (log 6), and that creation leaves what the two resets leave with an empty sink, which a reset itself does not clear (log 22). -/
def Obligations.ResetValues : Prop :=
  (∀ r : RegIx, State.reset.reg r = if r = 29 then 0x80000000 else 0) ∧
  State.reset.hi = 0 ∧ State.reset.lo = 0 ∧ State.reset.saved = none ∧
  (∀ a : Word, State.reset.mem.byte a = 0) ∧
  State.reset.sink.normal = [] ∧ State.reset.sink.error = [] ∧ State.reset.debugRecords = [] ∧
  State.reset.pc = State.reset.cfg.pcReset ∧ State.reset.pc = 0x00400000 ∧
  translateAddr (State.reset.reg 29) = none ∧
  translateAddr (State.reset.reg 29 - 4) = some .stack ∧ overruns (State.reset.reg 29 - 4) .word = false

/-- From every state: register.reset() gives every general register, HI and LO their reset values, PC the parameter PC_RESET, clears the snapshot, and leaves memory and sink; memory.reset() zeroes every byte and leaves the registers, the snapshot and the sink. The model's choices: index 29 for the stack pointer (log 5), PC_RESET (log 6), that a reset does not clear the sink (log 22) and leaves no mark in the debug channel (log 12). -/
def Obligations.TheTwoResetsAreSeparate : Prop :=
  ∀ s : State,
    ((∀ r : RegIx, s.registerReset.reg r = if r = 29 then 0x80000000 else 0) ∧
      s.registerReset.hi = 0 ∧ s.registerReset.lo = 0 ∧ s.registerReset.pc = s.cfg.pcReset ∧
      s.registerReset.saved = none ∧ s.registerReset.mem = s.mem ∧ s.registerReset.sink = s.sink ∧
      s.registerReset.cfg = s.cfg) ∧
    ((∀ a : Word, s.memoryReset.mem.byte a = 0) ∧ s.memoryReset.regs = s.regs ∧ s.memoryReset.saved = s.saved ∧
      s.memoryReset.sink = s.sink ∧ s.memoryReset.cfg = s.cfg)

/-- For every state, index and value: an index in [0, 32) writes that register, R[0] included, with the value modulo 2^32 and changes nothing else; any other index appends RegIndexInvalid(index) to the error channel and changes nothing else. No step appends such an event. That R[0] keeps what is written is the model's choice (log 15); that no step appends the event is R25's own inference ('inside a step this fault cannot occur', derived there from R21). -/
def Obligations.HostSetWritesOrLogs : Prop :=
  (∀ (s : State) (index value : Int),
    (0 ≤ index → index < 32 →
      WritesReg s (s.hostSet index value) (BitVec.ofInt 5 index) (BitVec.ofInt 32 (value % 2 ^ 32))) ∧
    (¬(0 ≤ index ∧ index < 32) → OnlyLogs s (s.hostSet index value) [.regIndexInvalid index])) ∧
  (∀ (s t : State) (index : Int), step s = .next t → ErrorEvent.regIndexInvalid index ∈ t.sink.error →
    ErrorEvent.regIndexInvalid index ∈ s.sink.error)

/-- saveState() copies the 35 values and changes nothing else; with a snapshot held, a name (PC, HI, LO or a register's) is reported if and only if its current value differs from the copy; with none held nothing is reported (the model's choice, log 24). -/
def Obligations.CompareStateNamesExactlyTheDifferences : Prop :=
  (∀ s : State, s.saveState.saved = some s.regs ∧ s.saveState.regs = s.regs ∧ s.saveState.mem = s.mem ∧
    s.saveState.sink = s.sink ∧ s.saveState.compareState = []) ∧
  (∀ s : State, s.saved = none → s.compareState = []) ∧
  (∀ (s : State) (r : RegFile), s.cfg.wf = true → s.saved = some r →
    ("PC".toList ∈ s.compareState ↔ s.pc ≠ r.pc) ∧
    ("HI".toList ∈ s.compareState ↔ s.hi ≠ r.hi) ∧
    ("LO".toList ∈ s.compareState ↔ s.lo ≠ r.lo) ∧
    ∀ i : RegIx, regText s.cfg.regNames i ∈ s.compareState ↔ s.reg i ≠ r.gpr[i.toNat]'i.isLt)

/-- An address is in the program, data or stack segment exactly if it lies in 0x00400000..0x004FFFFF, 0x10000000..0x100FFFFF or 0x7FF00000..0x7FFFFFFF; any other address has no segment, which is an addressing fault; of the 4096 selectors 4093 are invalid. -/
def Obligations.TranslationFollowsTheAddressMap : Prop :=
  (∀ a : Word,
    (translateAddr a = some .program ↔ 0x00400000 ≤ a.toNat ∧ a.toNat ≤ 0x004FFFFF) ∧
    (translateAddr a = some .data ↔ 0x10000000 ≤ a.toNat ∧ a.toNat ≤ 0x100FFFFF) ∧
    (translateAddr a = some .stack ↔ 0x7FF00000 ≤ a.toNat ∧ a.toNat ≤ 0x7FFFFFFF) ∧
    (translateAddr a = none ↔ selectorOf a ≠ 0x004 ∧ selectorOf a ≠ 0x100 ∧ selectorOf a ≠ 0x7FF) ∧
    (∀ (c : Config) (n : Width), translateAddr a = none → answerOf c a n = .addressFault)) ∧
  ((List.range 4096).filter fun k => (translateAddr (BitVec.ofNat 32 (k * 0x100000))).isNone).length = 4093

/-- For every state, size and address without a segment: the read answers 0xFFFFFFFF whatever its size and appends AddressFault(read, a, n) to the error channel; the write appends AddressFault(write, a, n); nothing else changes, and neither is refused. -/
def Obligations.AnAddressingFaultIsLoggedAndSubstituted : Prop :=
  ∀ (s : State) (a v : Word) (n : Width), translateAddr a = none →
    (∃ t, s.memRead a n = .ok (0xFFFFFFFF, t) ∧ OnlyLogs s t [.addressFault .read a n]) ∧
    (∃ t, s.memWrite a n v = .ok t ∧ OnlyLogs s t [.addressFault .write a n])

/-- After a 4-byte write that lies in a segment (any alignment), the word read gives the value, the two half-word reads its halves and the four byte reads its bytes, most significant at the lowest address; the value of R62's example is an instance. That the address needs no alignment is the model's choice (R60, log 14). -/
def Obligations.StoredWordReadsBackBigEndian : Prop :=
  ∀ (s : State) (a v : Word), s.mem.wf = true → mapped a = true → overruns a .word = false →
    ∃ t, s.memWrite a .word v = .ok t ∧
      t.memRead a .word = .ok (v, t) ∧
      t.memRead a .half = .ok ((v.extractLsb' 16 16).setWidth 32, t) ∧
      t.memRead (a + 2) .half = .ok ((v.extractLsb' 0 16).setWidth 32, t) ∧
      t.memRead a .byte = .ok ((v.extractLsb' 24 8).setWidth 32, t) ∧
      t.memRead (a + 1) .byte = .ok ((v.extractLsb' 16 8).setWidth 32, t) ∧
      t.memRead (a + 2) .byte = .ok ((v.extractLsb' 8 8).setWidth 32, t) ∧
      t.memRead (a + 3) .byte = .ok ((v.extractLsb' 0 8).setWidth 32, t)

/-- Whatever a sized write answers next, at any address and size and under any setting of SEG_OVERRUN, every byte whose address lies in another segment reads as before; and two addresses name the same byte only if they are equal. That equal bytes mean equal addresses is R64's own inference (derived there from R51 and R52); SEG_OVERRUN and its settings are the model's choice (R61, log 10). -/
def Obligations.SegmentsShareNothing : Prop :=
  (∀ (s t : State) (a b v : Word) (n : Width), s.mem.wf = true → s.memWrite a n v = .ok t →
    translateAddr b ≠ translateAddr a → t.mem.byte b = s.mem.byte b) ∧
  (∀ (m : Memory) (a b : Word) (v : Byte), m.wf = true → mapped a = true →
    (m.setByte a v).byte b = if b = a then v else m.byte b)

/-- For an access that starts in a segment and overruns it: REFUSE refuses read and write; FAULT logs an addressing fault, reads 0xFFFFFFFF and stores nothing; ZERO_FILL_DROP reads the bytes inside and zeros past the end, stores the bytes inside and drops the rest, with no event. SEG_OVERRUN and its default are the model's choice (log 10). -/
def Obligations.OverrunFollowsItsParameter : Prop :=
  ∀ (s : State) (a v : Word) (n : Width), s.mem.wf = true → mapped a = true → overruns a n = true →
    (s.cfg.segOverrun = .refuse →
      s.memRead a n = .error (.segmentOverrun .read a n) ∧ s.memWrite a n v = .error (.segmentOverrun .write a n)) ∧
    (s.cfg.segOverrun = .fault →
      (∃ t, s.memRead a n = .ok (0xFFFFFFFF, t) ∧ OnlyLogs s t [.addressFault .read a n]) ∧
      (∃ t, s.memWrite a n v = .ok t ∧ OnlyLogs s t [.addressFault .write a n])) ∧
    (s.cfg.segOverrun = .zeroFillDrop →
      (∃ x, s.memRead a n = .ok (x, s) ∧
        ∀ k < n.bytes, x.extractLsb' (8 * (n.bytes - 1 - k)) 8 =
          if (offsetOf a).toNat + k < 0x100000 then s.mem.byte (a + BitVec.ofNat 32 k) else 0) ∧
      (∃ t, s.memWrite a n v = .ok t ∧
        Leaves s t s.reg s.pc s.hi s.lo
          (fun b => if b - a < BitVec.ofNat 32 n.bytes ∧ (offsetOf a).toNat + (b - a).toNat < 0x100000 then
            v.extractLsb' (8 * (n.bytes - 1 - (b - a).toNat)) 8 else s.mem.byte b)
          s.sink s.outcome))

/-- For all operands: 1000 gives (X + Y) mod 2^32 and 1001 gives (X - Y) mod 2^32 = (X + ~Y + 1) mod 2^32, INV 0, under every setting; the operands' two's-complement values give the same 32 bits; 1010 and 1011 give the same under ALU_NONCANONICAL = TABLE. -/
def Obligations.AluAddAndSubtractWrap : Prop :=
  ∀ (c : Config) (x y : Word),
    alu c x y 0b1000 = ⟨BitVec.ofNat 32 ((x.toNat + y.toNat) % 2 ^ 32), false⟩ ∧
    alu c x y 0b1001 = ⟨BitVec.ofInt 32 (((x.toNat : Int) - y.toNat) % 2 ^ 32), false⟩ ∧
    (alu c x y 0b1001).z = x + ~~~y + 1 ∧
    alu c x y 0b1000 = ⟨BitVec.ofInt 32 (x.toInt + y.toInt), false⟩ ∧
    alu c x y 0b1001 = ⟨BitVec.ofInt 32 (x.toInt - y.toInt), false⟩ ∧
    (c.aluNoncanonical = .table →
      alu c x y 0b1010 = alu c x y 0b1000 ∧ alu c x y 0b1011 = alu c x y 0b1001)

/-- For all operands, every setting and every bit position of the 32: the result bit is the and, or, exclusive or, or complement of the or, of the two operand bits; INV is 0. -/
def Obligations.AluLogicIsBitwise : Prop :=
  ∀ (c : Config) (x y : Word),
    (alu c x y 0b1100).inv = false ∧ (alu c x y 0b1101).inv = false ∧
    (alu c x y 0b1110).inv = false ∧ (alu c x y 0b1111).inv = false ∧
    ∀ i < 32,
      (alu c x y 0b1100).z.getLsbD i = (x.getLsbD i && y.getLsbD i) ∧
      (alu c x y 0b1101).z.getLsbD i = (x.getLsbD i || y.getLsbD i) ∧
      (alu c x y 0b1110).z.getLsbD i = (x.getLsbD i ^^ y.getLsbD i) ∧
      (alu c x y 0b1111).z.getLsbD i = !(x.getLsbD i || y.getLsbD i)

/-- For all operands and settings, with n = Y mod 32 (the low five bits, the model's choice for Y of 32 and above, log 18): PASS gives X; SLL gives X * 2^n mod 2^32; SRL gives floor(X / 2^n); SRA gives floor(signed(X) / 2^n) mod 2^32; INV is 0. -/
def Obligations.AluShiftsAreMultiplicationAndFloorDivision : Prop :=
  ∀ (c : Config) (x y : Word),
    alu c x y 0b0000 = ⟨x, false⟩ ∧
    alu c x y 0b0001 = ⟨BitVec.ofNat 32 (x.toNat * 2 ^ (y.toNat % 32)), false⟩ ∧
    alu c x y 0b0010 = ⟨BitVec.ofNat 32 (x.toNat / 2 ^ (y.toNat % 32)), false⟩ ∧
    alu c x y 0b0011 = ⟨BitVec.ofInt 32 (x.toInt.fdiv (2 ^ (y.toNat % 32))), false⟩

/-- Code 0100 gives 1 if X < Y else 0, unsigned under ALU_SLT_SIGNED = false and two's complement under true, with INV 0; for any two configurations that differ in the setting, the results are equal if and only if the top bits of X and Y are equal. -/
def Obligations.SetLessSettingsAgreeOnEqualTopBits : Prop :=
  (∀ (c : Config) (x y : Word),
    alu c x y 0b0100 =
      ⟨if (if c.aluSltSigned then decide (x.toInt < y.toInt) else decide (x.toNat < y.toNat)) then 1 else 0, false⟩) ∧
  (∀ (c d : Config) (x y : Word), c.aluSltSigned = true → d.aluSltSigned = false →
    (alu c x y 0b0100 = alu d x y 0b0100 ↔ x.getLsbD 31 = y.getLsbD 31))

/-- INV is 1 if and only if ALU_NONCANONICAL = FAULT and the code is 0101, 0110, 0111, 1010 or 1011, and then Z is 0xFFFFFFFF; under TABLE the first three give what 0100 gives, 1010 what 1000 gives and 1011 what 1001 gives. The parameter's default is the model's choice (log 7). -/
def Obligations.ContestedAluCodesFollowTheirParameter : Prop :=
  (∀ (c : Config) (x y : Word) (code : AluCode),
    ((alu c x y code).inv = true ↔
      c.aluNoncanonical = .fault ∧ code ∈ ([0b0101, 0b0110, 0b0111, 0b1010, 0b1011] : List AluCode)) ∧
    ((alu c x y code).inv = true → (alu c x y code).z = 0xFFFFFFFF)) ∧
  (∀ (c : Config) (x y : Word), c.aluNoncanonical = .table →
    alu c x y 0b0101 = alu c x y 0b0100 ∧ alu c x y 0b0110 = alu c x y 0b0100 ∧
    alu c x y 0b0111 = alu c x y 0b0100 ∧ alu c x y 0b1010 = alu c x y 0b1000 ∧
    alu c x y 0b1011 = alu c x y 0b1001)

/-- For all operands and settings: adding Y and then subtracting Y gives X; X - Y is 0 exactly if X = Y; SLL by k then SRL by k clears the top k bits (k = Y mod 32); SRA and SRL agree when X[31] = 0; set-less-than gives 0 or 1; NOR is XOR of OR with all ones. That the amount is Y mod 32 for Y of 32 and above is the model's choice (R118, log 18). -/
def Obligations.AluIntegerLaws : Prop :=
  ∀ (c : Config) (x y : Word),
    (alu c (alu c x y 0b1000).z y 0b1001).z = x ∧
    ((alu c x y 0b1001).z = 0 ↔ x = y) ∧
    (alu c (alu c x y 0b0001).z y 0b0010).z = BitVec.ofNat 32 (x.toNat % 2 ^ (32 - y.toNat % 32)) ∧
    (x.getLsbD 31 = false → alu c x y 0b0011 = alu c x y 0b0010) ∧
    ((alu c x y 0b0100).z = 0 ∨ (alu c x y 0b0100).z = 1) ∧
    (alu c x y 0b1111).z = (alu c (alu c x y 0b1101).z 0xFFFFFFFF 0b1110).z

/-- For every state and operands (rd = 0 included): SLL writes R[rt] * 2^shamt mod 2^32, SRL floor(R[rt] / 2^shamt), SRA floor(signed(R[rt]) / 2^shamt) mod 2^32 into R[rd]; every other register, PC, HI, LO, memory byte, event and field is unchanged. That register 0 keeps what is written is the model's choice (R24, log 15). -/
def Obligations.ShiftInstructionsWriteRd : Prop :=
  ∀ (s : State) (rs rt rd : RegIx) (sh : Shamt),
    (∃ t, exec (.sll rs rt rd sh) s = .next t ∧
      WritesReg s t rd (BitVec.ofNat 32 ((s.reg rt).toNat * 2 ^ sh.toNat))) ∧
    (∃ t, exec (.srl rs rt rd sh) s = .next t ∧
      WritesReg s t rd (BitVec.ofNat 32 ((s.reg rt).toNat / 2 ^ sh.toNat))) ∧
    (∃ t, exec (.sra rs rt rd sh) s = .next t ∧
      WritesReg s t rd (BitVec.ofInt 32 ((s.reg rt).toInt.fdiv (2 ^ sh.toNat))))

/-- The words with opcode 0 and funct 0x20, 0x22 decode to ADD and SUB; from every state and operands (rd = 0 included) ADD writes (R[rs] + R[rt]) mod 2^32 and SUB (R[rs] - R[rt]) mod 2^32 into R[rd]; no overflow trap, no event, nothing else changes. The opcode and funct numbers are the default record's, the model's choice (log 2, 3); that register 0 keeps what is written is too (log 15). -/
def Obligations.AddAndSubWriteTheWrappedResult : Prop :=
  ∀ (s : State) (rs rt rd : RegIx) (sh : Shamt),
    decode defaultEncoding (rFormat 0x20 rs rt rd sh) = .ok (.add rs rt rd sh) ∧
    decode defaultEncoding (rFormat 0x22 rs rt rd sh) = .ok (.sub rs rt rd sh) ∧
    (∃ t, exec (.add rs rt rd sh) s = .next t ∧
      WritesReg s t rd (BitVec.ofNat 32 (((s.reg rs).toNat + (s.reg rt).toNat) % 2 ^ 32))) ∧
    (∃ t, exec (.sub rs rt rd sh) s = .next t ∧
      WritesReg s t rd (BitVec.ofInt 32 ((((s.reg rs).toNat : Int) - (s.reg rt).toNat) % 2 ^ 32)))

/-- The words with opcode 0 and funct 0x24, 0x25, 0x26, 0x27 decode to AND, OR, XOR, NOR; from every state and operands (rd = 0 included) each writes R[rd] with R[rs] & R[rt], R[rs] | R[rt], R[rs] ^ R[rt], ~(R[rs] | R[rt]); nothing else changes. The opcode and funct numbers are the default record's, the model's choice (log 2, 3); that register 0 keeps what is written is too (log 15). -/
def Obligations.LogicInstructionsWriteRd : Prop :=
  ∀ (s : State) (rs rt rd : RegIx) (sh : Shamt),
    decode defaultEncoding (rFormat 0x24 rs rt rd sh) = .ok (.and rs rt rd sh) ∧
    decode defaultEncoding (rFormat 0x25 rs rt rd sh) = .ok (.or rs rt rd sh) ∧
    decode defaultEncoding (rFormat 0x26 rs rt rd sh) = .ok (.xor rs rt rd sh) ∧
    decode defaultEncoding (rFormat 0x27 rs rt rd sh) = .ok (.nor rs rt rd sh) ∧
    (∃ t, exec (.and rs rt rd sh) s = .next t ∧ WritesReg s t rd (s.reg rs &&& s.reg rt)) ∧
    (∃ t, exec (.or rs rt rd sh) s = .next t ∧ WritesReg s t rd (s.reg rs ||| s.reg rt)) ∧
    (∃ t, exec (.xor rs rt rd sh) s = .next t ∧ WritesReg s t rd (s.reg rs ^^^ s.reg rt)) ∧
    (∃ t, exec (.nor rs rt rd sh) s = .next t ∧ WritesReg s t rd (~~~(s.reg rs ||| s.reg rt)))

/-- From every state and operands: SLT writes R[rd] with 1 if R[rs] < R[rt] else 0, SLTI writes R[rt] with 1 if R[rs] < sext_32(imm) else 0, compared as unsigned values under ALU_SLT_SIGNED = false and as two's-complement values under true; nothing else changes. The default setting is the model's choice (log 8). -/
def Obligations.SetLessInstructionsWriteOneOrZero : Prop :=
  ∀ (s : State) (rs rt rd : RegIx) (sh : Shamt) (imm : Imm16),
    (s.cfg.aluSltSigned = false →
      (∃ t, exec (.slt rs rt rd sh) s = .next t ∧
        WritesReg s t rd (if (s.reg rs).toNat < (s.reg rt).toNat then 1 else 0)) ∧
      (∃ t, exec (.slti rs rt imm) s = .next t ∧
        WritesReg s t rt (if (s.reg rs).toNat < (imm.signExtend 32).toNat then 1 else 0))) ∧
    (s.cfg.aluSltSigned = true →
      (∃ t, exec (.slt rs rt rd sh) s = .next t ∧
        WritesReg s t rd (if (s.reg rs).toInt < (s.reg rt).toInt then 1 else 0)) ∧
      (∃ t, exec (.slti rs rt imm) s = .next t ∧
        WritesReg s t rt (if (s.reg rs).toInt < imm.toInt then 1 else 0)))

/-- From every state and operands: MUL puts the unsigned (MUL_SIGNED = false) or signed (true) product modulo 2^64 into HI:LO and changes nothing else, whatever rd is; under both settings LO is the low word of the unsigned product, and HI its high word when both factors are below 2^31. The default setting is the model's choice (log 8). -/
def Obligations.MulSplitsTheFullProduct : Prop :=
  ∀ (s : State) (rs rt rd : RegIx) (sh : Shamt),
    ∃ t, exec (.mul rs rt rd sh) s = .next t ∧
      Leaves s t s.reg s.pc t.hi t.lo s.mem.byte s.sink s.outcome ∧
      (s.cfg.mulSigned = false →
        t.hi.toNat * 2 ^ 32 + t.lo.toNat = (s.reg rs).toNat * (s.reg rt).toNat) ∧
      (s.cfg.mulSigned = true →
        ((t.hi.toNat * 2 ^ 32 + t.lo.toNat : Nat) : Int) = ((s.reg rs).toInt * (s.reg rt).toInt) % 2 ^ 64) ∧
      t.lo = BitVec.ofNat 32 ((s.reg rs).toNat * (s.reg rt).toNat) ∧
      ((s.reg rs).toNat < 2 ^ 31 → (s.reg rt).toNat < 2 ^ 31 →
        t.hi = BitVec.ofNat 32 ((s.reg rs).toNat * (s.reg rt).toNat / 2 ^ 32))

/-- From every state and operands (rd = 0 included): MFHI writes R[rd] with HI and MFLO with LO; HI, LO and everything else are unchanged. That register 0 keeps what is written is the model's choice (R24, log 15). -/
def Obligations.MoveFromHiAndLoCopy : Prop :=
  ∀ (s : State) (rs rt rd : RegIx) (sh : Shamt),
    (∃ t, exec (.mfhi rs rt rd sh) s = .next t ∧ WritesReg s t rd s.hi) ∧
    (∃ t, exec (.mflo rs rt rd sh) s = .next t ∧ WritesReg s t rd s.lo)

/-- From every state and operands: ADDIU and SLTIU append UnknownInstruction of their word and change nothing else; so does DIV under UNK_FUNCT_WRITES_RD = false; under true DIV also appends AluInvalid with some code and writes R[rd] with 0xFFFFFFFF. That the three are unrecognised and the parameter's default are the model's choice (log 9, 16); the word is the encoding of the instruction (log 21). -/
def Obligations.DivAddiuSltiuAreLoggedNotExecuted : Prop :=
  ∀ (s : State) (rs rt rd : RegIx) (sh : Shamt) (imm : Imm16),
    (∃ t, exec (.addiu rs rt imm) s = .next t ∧
      OnlyLogs s t [.unknownInstruction (encode s.cfg.encoding (.addiu rs rt imm))]) ∧
    (∃ t, exec (.sltiu rs rt imm) s = .next t ∧
      OnlyLogs s t [.unknownInstruction (encode s.cfg.encoding (.sltiu rs rt imm))]) ∧
    (s.cfg.unkFunctWritesRd = false → ∃ t, exec (.div rs rt rd sh) s = .next t ∧
      OnlyLogs s t [.unknownInstruction (encode s.cfg.encoding (.div rs rt rd sh))]) ∧
    (s.cfg.unkFunctWritesRd = true → ∃ t code, exec (.div rs rt rd sh) s = .next t ∧
      Leaves s t (s.regsWith rd 0xFFFFFFFF) s.pc s.hi s.lo s.mem.byte
        (s.sinkWithErrors [.unknownInstruction (encode s.cfg.encoding (.div rs rt rd sh)), .aluInvalid code]) s.outcome)

/-- The words with opcode 0x08, 0x0C, 0x0D, 0x0E decode to ADDI, ANDI, ORI, XORI; from every state and operands (rt = 0 included) ADDI writes (R[rs] + sext_32(imm)) mod 2^32 without trapping, the others R[rs] combined with the zero-extended immediate; nothing else changes. The opcode and funct numbers are the default record's, the model's choice (log 2, 3); that register 0 keeps what is written is too (log 15). -/
def Obligations.ImmediateInstructionsWriteRt : Prop :=
  ∀ (s : State) (rs rt : RegIx) (imm : Imm16),
    decode defaultEncoding (iFormat 0x08 rs rt imm) = .ok (.addi rs rt imm) ∧
    decode defaultEncoding (iFormat 0x0C rs rt imm) = .ok (.andi rs rt imm) ∧
    decode defaultEncoding (iFormat 0x0D rs rt imm) = .ok (.ori rs rt imm) ∧
    decode defaultEncoding (iFormat 0x0E rs rt imm) = .ok (.xori rs rt imm) ∧
    (∃ t, exec (.addi rs rt imm) s = .next t ∧
      WritesReg s t rt (BitVec.ofInt 32 (((s.reg rs).toNat + imm.toInt) % 2 ^ 32))) ∧
    (∃ t, exec (.andi rs rt imm) s = .next t ∧ WritesReg s t rt (s.reg rs &&& (0#16 ++ imm))) ∧
    (∃ t, exec (.ori rs rt imm) s = .next t ∧ WritesReg s t rt (s.reg rs ||| (0#16 ++ imm))) ∧
    (∃ t, exec (.xori rs rt imm) s = .next t ∧ WritesReg s t rt (s.reg rs ^^^ (0#16 ++ imm)))

/-- From every state and operands (rt = 0 included): LUI writes imm followed by sixteen zero bits into R[rt]; rs is ignored; nothing else changes. The meaning is the model's choice (the spec's D16, log 17). That register 0 keeps what is written is the model's choice (R24, log 15). -/
def Obligations.LuiPutsTheImmediateInTheUpperHalf : Prop :=
  ∀ (s : State) (rs rt : RegIx) (imm : Imm16),
    ∃ t, exec (.lui rs rt imm) s = .next t ∧ WritesReg s t rt (imm ++ 0#16)

/-- The effective address is (R[rs] + imm signed) mod 2^32. Where the access is performed LW writes R[rt] with the four bytes there, lowest address most significant, and changes nothing else; where it is an addressing fault it writes 0xFFFFFFFF (the model's choice, log 13), appends AddressFault(read, ea, 4) and changes nothing else; where SEG_OVERRUN = REFUSE gives it no meaning it is refused by name (log 10). -/
def Obligations.LoadWordReadsFourBigEndianBytes : Prop :=
  ∀ (s : State) (rs rt : RegIx) (imm : Imm16),
    let ea := effectiveAddress (s.reg rs) imm
    ea = BitVec.ofInt 32 (((s.reg rs).toNat + imm.toInt) % 2 ^ 32) ∧
    (Performed s.cfg ea .word → ∃ t, exec (.lw rs rt imm) s = .next t ∧
      WritesReg s t rt (s.mem.byte ea ++ s.mem.byte (ea + 1) ++ s.mem.byte (ea + 2) ++ s.mem.byte (ea + 3))) ∧
    (FaultingAccess s.cfg ea .word → ∃ t, exec (.lw rs rt imm) s = .next t ∧
      Leaves s t (s.regsWith rt 0xFFFFFFFF) s.pc s.hi s.lo s.mem.byte
        (s.sinkWithErrors [.addressFault .read ea .word]) s.outcome) ∧
    (RefusedAccess s.cfg ea .word → exec (.lw rs rt imm) s = .refused (.segmentOverrun .read ea .word))

/-- From every state and operands LB and LBU answer the same next state: at a mapped address R[rt] receives the byte zero-extended and nothing else changes; at any other address R[rt] receives 0xFFFFFFFF whole (the model's choice, log 13) and AddressFault(read, ea, 1) is appended. -/
def Obligations.ByteLoadsZeroExtend : Prop :=
  ∀ (s : State) (rs rt : RegIx) (imm : Imm16),
    let ea := effectiveAddress (s.reg rs) imm
    exec (.lb rs rt imm) s = exec (.lbu rs rt imm) s ∧
    (mapped ea = true → ∃ t, exec (.lb rs rt imm) s = .next t ∧ exec (.lbu rs rt imm) s = .next t ∧
      WritesReg s t rt (0#24 ++ s.mem.byte ea)) ∧
    (mapped ea = false → ∃ t, exec (.lb rs rt imm) s = .next t ∧ exec (.lbu rs rt imm) s = .next t ∧
      Leaves s t (s.regsWith rt 0xFFFFFFFF) s.pc s.hi s.lo s.mem.byte
        (s.sinkWithErrors [.addressFault .read ea .byte]) s.outcome)

/-- Where the access is performed, the byte at ea + k (k below 4, inside the segment) becomes byte k of R[rt] from the top, and every other byte, register, event and field is unchanged; where it is an addressing fault AddressFault(write, ea, 4) is appended and nothing else changes; where SEG_OVERRUN = REFUSE gives it no meaning it is refused by name (log 10). -/
def Obligations.StoreWordWritesFourBigEndianBytes : Prop :=
  ∀ (s : State) (rs rt : RegIx) (imm : Imm16), s.mem.wf = true →
    let ea := effectiveAddress (s.reg rs) imm
    (Performed s.cfg ea .word → ∃ t, exec (.sw rs rt imm) s = .next t ∧
      Leaves s t s.reg s.pc s.hi s.lo
        (fun a =>
          if mapped a = false then 0
          else if a = ea then (s.reg rt).extractLsb' 24 8
          else if a = ea + 1 then (s.reg rt).extractLsb' 16 8
          else if a = ea + 2 then (s.reg rt).extractLsb' 8 8
          else if a = ea + 3 then (s.reg rt).extractLsb' 0 8
          else s.mem.byte a)
        s.sink s.outcome) ∧
    (FaultingAccess s.cfg ea .word → ∃ t, exec (.sw rs rt imm) s = .next t ∧
      OnlyLogs s t [.addressFault .write ea .word]) ∧
    (RefusedAccess s.cfg ea .word → exec (.sw rs rt imm) s = .refused (.segmentOverrun .write ea .word))

/-- At a mapped effective address the byte there becomes R[rt][7:0] and every other byte, register, event and field is unchanged; at any other address AddressFault(write, ea, 1) is appended and nothing else changes. -/
def Obligations.StoreByteWritesOneByte : Prop :=
  ∀ (s : State) (rs rt : RegIx) (imm : Imm16), s.mem.wf = true →
    let ea := effectiveAddress (s.reg rs) imm
    (mapped ea = true → ∃ t, exec (.sb rs rt imm) s = .next t ∧
      Leaves s t s.reg s.pc s.hi s.lo (fun a => if a = ea then (s.reg rt).extractLsb' 0 8 else s.mem.byte a)
        s.sink s.outcome) ∧
    (mapped ea = false → ∃ t, exec (.sb rs rt imm) s = .next t ∧ OnlyLogs s t [.addressFault .write ea .byte])

/-- With PCf the PC of the state the fetch left: J sets PC to the value whose top four bits are those of (PCf + 4) mod 2^32 and whose low 28 bits are target * 4, and changes nothing else; JAL also writes R[31] with PCf. The extra 4 changes the top bits exactly if PCf mod 2^28 is at least 0xFFFFFFC. That $ra is index 31 is the model's choice (log 5). -/
def Obligations.JumpsKeepTheTopBitsOfPcPlusFour : Prop :=
  (∀ (s : State) (target : Target),
    ∃ pc : Word, pc.toNat = (s.pc + 4).toNat / 2 ^ 28 * 2 ^ 28 + target.toNat * 4 ∧
      (∃ t, exec (.j target) s = .next t ∧ WritesPc s t pc) ∧
      (∃ t, exec (.jal target) s = .next t ∧
        Leaves s t (s.regsWith 31 s.pc) pc s.hi s.lo s.mem.byte s.sink s.outcome)) ∧
  (∀ pcf : Word, (pcf + 4).toNat / 2 ^ 28 = pcf.toNat / 2 ^ 28 ↔ pcf.toNat % 2 ^ 28 < 0xFFFFFFC)

/-- From every state and operands: JR sets PC to R[rs], unchecked; BEQ sets PC to (PCf + 4 * imm signed) mod 2^32 if R[rs] = R[rt] and leaves it otherwise; BNE if R[rs] differs from R[rt]; nothing else changes. -/
def Obligations.RegisterJumpAndEqualityBranches : Prop :=
  ∀ (s : State) (rs rt rd : RegIx) (sh : Shamt) (imm : Imm16),
    (∃ t, exec (.jr rs rt rd sh) s = .next t ∧ WritesPc s t (s.reg rs)) ∧
    (∃ t, exec (.beq rs rt imm) s = .next t ∧
      WritesPc s t (if s.reg rs = s.reg rt then BitVec.ofInt 32 ((s.pc.toNat + 4 * imm.toInt) % 2 ^ 32) else s.pc)) ∧
    (∃ t, exec (.bne rs rt imm) s = .next t ∧
      WritesPc s t (if s.reg rs = s.reg rt then s.pc else BitVec.ofInt 32 ((s.pc.toNat + 4 * imm.toInt) % 2 ^ 32)))

/-- From every state and operands: under BLTZ_SIGNED = false BLTZ branches to (PCf + 4 * imm signed) mod 2^32 if R[rs] is below R[rt] as unsigned values, under true if below as two's-complement values; otherwise PC stays; nothing else changes. The default setting is the model's choice (log 8). -/
def Obligations.BltzComparesTwoRegisters : Prop :=
  ∀ (s : State) (rs rt : RegIx) (imm : Imm16),
    (s.cfg.bltzSigned = false → ∃ t, exec (.bltz rs rt imm) s = .next t ∧
      WritesPc s t (if (s.reg rs).toNat < (s.reg rt).toNat then
        BitVec.ofInt 32 ((s.pc.toNat + 4 * imm.toInt) % 2 ^ 32) else s.pc)) ∧
    (s.cfg.bltzSigned = true → ∃ t, exec (.bltz rs rt imm) s = .next t ∧
      WritesPc s t (if (s.reg rs).toInt < (s.reg rt).toInt then
        BitVec.ofInt 32 ((s.pc.toNat + 4 * imm.toInt) % 2 ^ 32) else s.pc))

/-- From every state, selected by the whole of R[2]: 1 appends PrintInt(R[4]) and 11 PrintChar(R[4]) to the normal channel, 10 makes the outcome halt by syscall 10, any other value does nothing (the model's choice, log 19); nothing else changes, PC stays. The register indices are the model's choice (log 5). -/
def Obligations.SyscallServices : Prop :=
  ∀ (s : State) (rs rt rd : RegIx) (sh : Shamt),
    (s.reg 2 = 1 → ∃ t, exec (.syscall rs rt rd sh) s = .next t ∧
      Leaves s t s.reg s.pc s.hi s.lo s.mem.byte (s.sinkWithPrint (.printInt (s.reg 4))) s.outcome) ∧
    (s.reg 2 = 10 → ∃ t, exec (.syscall rs rt rd sh) s = .next t ∧
      Leaves s t s.reg s.pc s.hi s.lo s.mem.byte s.sink (.halt .syscall10)) ∧
    (s.reg 2 = 11 → ∃ t, exec (.syscall rs rt rd sh) s = .next t ∧
      Leaves s t s.reg s.pc s.hi s.lo s.mem.byte (s.sinkWithPrint (.printChar (s.reg 4))) s.outcome) ∧
    (s.reg 2 ≠ 1 → s.reg 2 ≠ 10 → s.reg 2 ≠ 11 → exec (.syscall rs rt rd sh) s = .next s)

/-- If the four bytes at PC lie in a segment and are a non-zero word that decodes to i, the step is exec of i on the state the step began with (outcome continue, one debug mark, the counter of free values advanced: the model's own, log 11, 12), PC advanced by 4; beginning a step changes nothing else. -/
def Obligations.StepRunsTheDecodedInstruction : Prop :=
  (∀ (s : State) (w : Word) (i : Instr), Performed s.cfg s.pc .word → s.mem.read s.pc .word = w → w ≠ 0 →
    decode s.cfg.encoding w = .ok i → step s = exec i (s.beginStep.setPc (s.pc + 4))) ∧
  (∀ s : State, Leaves { s with freeIndex := s.freeIndex + 1 } s.beginStep s.reg s.pc s.hi s.lo s.mem.byte
    { s.sink with debug := s.sink.debug ++ [s.freeIndex] } .cont)

/-- If the word at PC is 0x00000000, under every configuration the step answers a next state whose outcome is halt by zero word and whose PC is advanced by 4; no register, memory byte, normal or error event changes. The debug channel gains the step's mark, whose content is free (the model's own, log 12). -/
def Obligations.ZeroWordHaltsBeforeDecoding : Prop :=
  ∀ s : State, Performed s.cfg s.pc .word → s.mem.read s.pc .word = 0 →
    ∃ t, step s = .next t ∧
      Leaves { s with freeIndex := s.freeIndex + 1 } t s.reg (s.pc + 4) s.hi s.lo s.mem.byte
        { s.sink with debug := s.sink.debug ++ [s.freeIndex] } (.halt .zeroWord)

/-- If the word at PC is not zero and the decoder rejects it, the step answers a next state with outcome continue, PC advanced by 4, UnknownInstruction(w) appended; memory, HI, LO and every register unchanged, except that an R-format word under UNK_FUNCT_WRITES_RD = true also appends AluInvalid with some code and writes 0xFFFFFFFF to its rd (the parameter's default is the model's choice, log 9). -/
def Obligations.UnrecognisedWordIsLoggedAndSkipped : Prop :=
  ∀ (s : State) (w : Word) (u : Unrecognised), Performed s.cfg s.pc .word → s.mem.read s.pc .word = w → w ≠ 0 →
    decode s.cfg.encoding w = .error u →
    ((w.extractLsb' 26 6 ≠ 0 ∨ s.cfg.unkFunctWritesRd = false) → ∃ t, step s = .next t ∧
      Leaves { s with freeIndex := s.freeIndex + 1 } t s.reg (s.pc + 4) s.hi s.lo s.mem.byte
        ⟨s.sink.normal, s.sink.error ++ [.unknownInstruction w], s.sink.debug ++ [s.freeIndex]⟩ .cont) ∧
    (w.extractLsb' 26 6 = 0 → s.cfg.unkFunctWritesRd = true → ∃ t code, step s = .next t ∧
      Leaves { s with freeIndex := s.freeIndex + 1 } t (s.regsWith (fieldsOf s.cfg.encoding w).rd 0xFFFFFFFF) (s.pc + 4)
        s.hi s.lo s.mem.byte
        ⟨s.sink.normal, s.sink.error ++ [.unknownInstruction w, .aluInvalid code], s.sink.debug ++ [s.freeIndex]⟩ .cont)

/-- If the fetch at PC is an addressing fault (PC outside the three segments, or its word overrunning a segment under SEG_OVERRUN = FAULT), under the default encoding the step answers a next state with outcome continue, PC advanced by 4 modulo 2^32, AddressFault(read, PC, 4) and then UnknownInstruction(0xFFFFFFFF) appended, and nothing else changed. The default record (log 2) and SEG_OVERRUN (log 10) are the model's choice; the debug channel gains the step's mark, whose content is free (log 12). -/
def Obligations.InvalidFetchLogsTwoEvents : Prop :=
  ∀ s : State, FaultingAccess s.cfg s.pc .word → s.cfg.encoding = defaultEncoding →
    ∃ t, step s = .next t ∧
      Leaves { s with freeIndex := s.freeIndex + 1 } t s.reg (s.pc + 4) s.hi s.lo s.mem.byte
        ⟨s.sink.normal, s.sink.error ++ [.addressFault .read s.pc .word, .unknownInstruction 0xFFFFFFFF],
          s.sink.debug ++ [s.freeIndex]⟩ .cont

/-- If the word at PC decodes to ADDIU or SLTIU, or to DIV while UNK_FUNCT_WRITES_RD is false, the step answers a next state with UnknownInstruction of that very word appended to the error channel, PC advanced by 4, outcome continue, and every register, memory byte and event otherwise as before; if it decodes to DIV while the parameter is true, R[rd] also receives 0xFFFFFFFF and one AluInvalid with some code follows. That the three are unrecognised (log 16) and the parameter (log 9) are the model's choice; the word is rebuilt by encode (log 21); the debug channel gains the step's mark (log 12). -/
def Obligations.StepLogsTheFetchedWordItself : Prop :=
  ∀ (s : State) (w : Word) (i : Instr), s.cfg.encoding.positionsWf = true → Performed s.cfg s.pc .word →
    s.mem.read s.pc .word = w → w ≠ 0 → decode s.cfg.encoding w = .ok i →
    (((∃ rs rt imm, i = .addiu rs rt imm) ∨ (∃ rs rt imm, i = .sltiu rs rt imm) ∨
        ((∃ rs rt rd sh, i = .div rs rt rd sh) ∧ s.cfg.unkFunctWritesRd = false)) →
      ∃ t, step s = .next t ∧ t.mem = s.mem ∧
        Leaves { s with freeIndex := s.freeIndex + 1 } t s.reg (s.pc + 4) s.hi s.lo s.mem.byte
          ⟨s.sink.normal, s.sink.error ++ [.unknownInstruction w], s.sink.debug ++ [s.freeIndex]⟩ .cont) ∧
    (∀ rs rt rd sh, i = .div rs rt rd sh → s.cfg.unkFunctWritesRd = true →
      ∃ t code, step s = .next t ∧ t.mem = s.mem ∧
        Leaves { s with freeIndex := s.freeIndex + 1 } t (s.regsWith rd 0xFFFFFFFF) (s.pc + 4) s.hi s.lo s.mem.byte
          ⟨s.sink.normal, s.sink.error ++ [.unknownInstruction w, .aluInvalid code],
            s.sink.debug ++ [s.freeIndex]⟩ .cont)

/-- For every step that answers a next state: its outcome is halt by zero word if and only if the fetched word is 0, halt by syscall 10 if and only if the fetched word is not 0, decodes to SYSCALL and R[2] is 10, and otherwise continue, whatever faults were logged. That the service number is in register 2 is the model's choice (log 5). -/
def Obligations.HaltConditionsAreExactlyTwo : Prop :=
  ∀ s t : State, step s = .next t →
    ∃ w, s.fetchedWord = some w ∧
      (t.outcome = .halt .zeroWord ↔ w = 0) ∧
      (t.outcome = .halt .syscall10 ↔
        w ≠ 0 ∧ (∃ rs rt rd sh, decode s.cfg.encoding w = .ok (.syscall rs rt rd sh)) ∧ s.reg 2 = 10) ∧
      (t.outcome = .cont ∨ t.outcome = .halt .zeroWord ∨ t.outcome = .halt .syscall10)

/-- For every state: the step answers a next state, or it is refused for an access that starts in a segment and overruns it while SEG_OVERRUN is REFUSE (the model's choice, log 10); under the two other settings every step answers a next state. -/
def Obligations.StepStopsOnlyOnARefusedOverrun : Prop :=
  (∀ s : State, (∃ t, step s = .next t) ∨
    ∃ dir a n, step s = .refused (.segmentOverrun dir a n) ∧ RefusedAccess s.cfg a n) ∧
  (∀ s : State, s.cfg.segOverrun ≠ .refuse → ∃ t, step s = .next t)

/-- For every instruction and state: if exec answers a next state, every general register other than the instruction's destination is unchanged; in particular an instruction whose destination is not register 0 leaves R[0] as it was. The destination is rd, rt or $ra as R23 lists them, and beside R23's list the rd of DIV while UNK_FUNCT_WRITES_RD is true (R146, R147). The model's choices: that parameter (log 9), that DIV is unrecognised (log 16), index 31 for $ra (log 5). -/
def Obligations.OnlyTheDestinationRegisterChanges : Prop :=
  ∀ (i : Instr) (s t : State) (r : RegIx), exec i s = .next t → destination s.cfg i ≠ some r → t.reg r = s.reg r

/-- For every instruction and state: if exec answers a next state in which HI or LO differs, the instruction is MUL. -/
def Obligations.OnlyMulWritesHiAndLo : Prop :=
  ∀ (i : Instr) (s t : State), exec i s = .next t → (t.hi ≠ s.hi ∨ t.lo ≠ s.lo) →
    ∃ rs rt rd sh, i = .mul rs rt rd sh

/-- For every instruction and state: if exec answers a next state with a different PC, the instruction is one of the six; and a step after which PC is not PC + 4 fetched a word that decodes to one of the six. -/
def Obligations.OnlyControlTransfersMovePc : Prop :=
  (∀ (i : Instr) (s t : State), exec i s = .next t → t.pc ≠ s.pc → isControlTransfer i = true) ∧
  (∀ s t : State, step s = .next t → t.pc ≠ s.pc + 4 →
    ∃ w i, s.fetchedWord = some w ∧ decode s.cfg.encoding w = .ok i ∧ isControlTransfer i = true)

/-- For every instruction and every state with canonical memory: if exec answers a next state in which the byte at some address differs, the instruction is SB and the address is its effective address, or SW and the address is one of the four from its effective address. -/
def Obligations.OnlyStoresWriteMemory : Prop :=
  ∀ (i : Instr) (s t : State) (a : Word), s.mem.wf = true → exec i s = .next t → t.mem.byte a ≠ s.mem.byte a →
    (∃ rs rt imm, i = .sb rs rt imm ∧ a = effectiveAddress (s.reg rs) imm) ∨
    (∃ rs rt imm, i = .sw rs rt imm ∧ (a - effectiveAddress (s.reg rs) imm).toNat < 4)

/-- For every step that answers a next state: the normal channel is the old one followed by at most one event, the error channel the old one followed by at most two, under every setting (a faulting fetch gives the word 0xFFFFFFFF, which is no R-format word), none of them RegIndexInvalid, and the debug channel the old one followed by the step's mark, whose content is free (the model's own, log 12). -/
def Obligations.TheSinkIsAppendOnly : Prop :=
  ∀ s t : State, step s = .next t →
    (∃ prints, t.sink.normal = s.sink.normal ++ prints ∧ prints.length ≤ 1) ∧
    (∃ errors, t.sink.error = s.sink.error ++ errors ∧ errors.length ≤ 2 ∧
      ∀ index, ErrorEvent.regIndexInvalid index ∉ errors) ∧
    t.sink.debug = s.sink.debug ++ [s.freeIndex]

/-- If two states agree in the 35 register values, the memory and the configuration, then either both are refused for the same reason, or both answer next states that agree again in those and in the outcome, with the same events appended to the normal channel and equally many to the error channel: the sink, the snapshot, a halt before, and the counter of free values influence nothing else. -/
def Obligations.SinkSnapshotAndOutcomeNeverInfluenceExecution : Prop :=
  ∀ s u : State, s.regs = u.regs → s.mem = u.mem → s.cfg = u.cfg →
    (∃ r, step s = .refused r ∧ step u = .refused r) ∨
    (∃ t v, step s = .next t ∧ step u = .next v ∧ t.regs = v.regs ∧ t.mem = v.mem ∧ t.cfg = v.cfg ∧
      t.outcome = v.outcome ∧ (∃ prints, t.sink.normal = s.sink.normal ++ prints ∧
        v.sink.normal = u.sink.normal ++ prints) ∧
      (∃ ets evs, t.sink.error = s.sink.error ++ ets ∧ v.sink.error = u.sink.error ++ evs ∧
        ets.length = evs.length ∧ (s.cfg.unkFunctWritesRd = false → ets = evs)))

/-- For every state with the invariant (memory strictly sorted, no blank entry, no entry outside the three segments; a well-formed configuration): if the step answers a next state, the invariant holds of it, and its configuration and snapshot are those before. -/
def Obligations.EveryStepKeepsTheInvariant : Prop :=
  ∀ s t : State, s.Inv → step s = .next t → t.Inv ∧ t.cfg = s.cfg ∧ t.saved = s.saved

/-- Reset memory is canonical and the default configuration is well formed: 18 distinct non-zero opcodes, 16 distinct functs, legal field positions, 32 distinct register names. The defaults are the model's choice (log 2 to 4). -/
def Obligations.ResetHasTheInvariant : Prop :=
  State.reset.Inv

/-- From every state with the invariant: set, jump, saveState, the two resets, the three clears, every sized read and sized write that is not refused, every view and every boot that is not refused lead to a state with the invariant. -/
def Obligations.HostOperationsKeepTheInvariant : Prop :=
  ∀ s : State, s.Inv →
    (∀ index value, (s.hostSet index value).Inv) ∧ (∀ a, (s.hostJump a).Inv) ∧ s.saveState.Inv ∧
    s.registerReset.Inv ∧ s.memoryReset.Inv ∧ s.clearNormal.Inv ∧ s.clearError.Inv ∧ s.clearDebug.Inv ∧
    (∀ n a v t, s.hostGet n a = .ok (v, t) → t.Inv) ∧ (∀ n a v t, s.hostPut n a v = .ok t → t.Inv) ∧
    (∀ start stop l t, s.view start stop = .ok (l, t) → t.Inv) ∧
    (∀ base entry program t, s.boot base entry program = .ok t → t.Inv)

/-- For every state: if the run under n steps of fuel halts with a reason in a state, the run under any larger fuel halts with the same reason in the same state; so fuel bounds a run and never decides it. -/
def Obligations.MoreFuelChangesNoHalt : Prop :=
  ∀ (n k : Nat) (s t : State) (reason : HaltReason), run n s = .halted reason t → run (n + k) s = .halted reason t

/-- From every state with canonical memory and the default encoding whose next two words are those instructions, with R[10] = a and the eight bytes from a in one segment: after two steps the bytes at a+4 to a+7 are those that were at a to a+3, R[16] is that word, PC is advanced by 8, and every other register, byte and event is unchanged. The two words are those of the default record, the model's choice (log 2, 3, 4). -/
def Obligations.LoadThenStoreCopiesAWordForward : Prop :=
  ∀ s : State, s.mem.wf = true → s.cfg.encoding = defaultEncoding →
    Performed s.cfg s.pc .word → Performed s.cfg (s.pc + 4) .word →
    s.mem.read s.pc .word = 0x8D500000 → s.mem.read (s.pc + 4) .word = 0xAD500004 →
    mapped (s.reg 10) = true → (offsetOf (s.reg 10)).toNat + 7 < 0x100000 →
    ∃ u t, step s = .next u ∧ step u = .next t ∧
      (∀ r, t.reg r = if r = 16 then s.mem.read (s.reg 10) .word else s.reg r) ∧
      t.pc = s.pc + 8 ∧ t.hi = s.hi ∧ t.lo = s.lo ∧
      (∀ a, t.mem.byte a = if (a - (s.reg 10 + 4)).toNat < 4 then s.mem.byte (a - 4) else s.mem.byte a) ∧
      t.sink.normal = s.sink.normal ∧ t.sink.error = s.sink.error ∧ t.saved = s.saved ∧ t.outcome = .cont

/-- From every state: if base is in a segment and the whole program fits before its end, booting answers a state in which every word of the program reads back at base + 4i, every byte outside the program is 0, the general registers, HI and LO have their reset values, PC is the entry and the sink is untouched. The model's choices: index 29 for the stack pointer (log 5), that a reset does not clear the sink (log 22) and that no host operation leaves a mark in the debug channel (log 12). -/
def Obligations.BootPlacesTheProgramAndJumps : Prop :=
  ∀ (s : State) (base entry : Word) (program : List Word), mapped base = true →
    (offsetOf base).toNat + 4 * program.length ≤ 0x100000 →
    ∃ t, s.boot base entry program = .ok t ∧
      (∀ (i : Nat) (h : i < program.length), t.mem.read (base + BitVec.ofNat 32 (4 * i)) .word = program[i]) ∧
      (∀ a : Word, 4 * program.length ≤ (a - base).toNat → t.mem.byte a = 0) ∧
      (∀ r : RegIx, t.reg r = if r = 29 then 0x80000000 else 0) ∧ t.hi = 0 ∧ t.lo = 0 ∧ t.pc = entry ∧
      t.sink = s.sink ∧ t.saved = none

/-- For every fuel and state: a safe run (it halts and its error channel is unchanged at the end) has a first step that answers a next state with the error channel unchanged; events are never removed, so the end of a run shows every fault on the way. -/
def Obligations.ASafeRunLogsNoFaultInItsFirstStep : Prop :=
  ∀ (fuel : Nat) (s : State), SafeRun fuel s → ∃ t, step s = .next t ∧ NoFaultLogged s t
end

