-- ==== Sys2Proof/Laws/Alu.lean ====
section
/-! SUPPORT. The ALU at each canonical control code: no canonical code is invalid, and what each gives
(spec/40_alu.md R113, R130). -/

namespace Sys2Proof.Machine

@[simp] theorem alu_pass (c : Config) (x y : Word) : alu c x y codePass = ⟨x, false⟩ := by
  simp [alu, aluInvalidCode, contested, codePass, aluTable, aluShift]

@[simp] theorem alu_sll (c : Config) (x y : Word) : alu c x y codeSll = ⟨x <<< shiftAmount y, false⟩ := by
  simp [alu, aluInvalidCode, contested, codeSll, aluTable, aluShift]

@[simp] theorem alu_srl (c : Config) (x y : Word) : alu c x y codeSrl = ⟨x >>> shiftAmount y, false⟩ := by
  simp [alu, aluInvalidCode, contested, codeSrl, aluTable, aluShift]

@[simp] theorem alu_sra (c : Config) (x y : Word) : alu c x y codeSra = ⟨x.sshiftRight (shiftAmount y), false⟩ := by
  simp [alu, aluInvalidCode, contested, codeSra, aluTable, aluShift]

@[simp] theorem alu_slt (c : Config) (x y : Word) : alu c x y codeSlt = ⟨aluSetLess c x y, false⟩ := by
  simp [alu, aluInvalidCode, contested, codeSlt, aluTable]

@[simp] theorem alu_add (c : Config) (x y : Word) : alu c x y codeAdd = ⟨x + y, false⟩ := by
  simp [alu, aluInvalidCode, contested, codeAdd, aluTable, aluAddSub]

@[simp] theorem alu_sub (c : Config) (x y : Word) : alu c x y codeSub = ⟨x - y, false⟩ := by
  simp [alu, aluInvalidCode, contested, codeSub, aluTable, aluAddSub]

@[simp] theorem alu_and (c : Config) (x y : Word) : alu c x y codeAnd = ⟨x &&& y, false⟩ := by
  simp [alu, aluInvalidCode, contested, codeAnd, aluTable, aluLogic]

@[simp] theorem alu_or (c : Config) (x y : Word) : alu c x y codeOr = ⟨x ||| y, false⟩ := by
  simp [alu, aluInvalidCode, contested, codeOr, aluTable, aluLogic]

@[simp] theorem alu_xor (c : Config) (x y : Word) : alu c x y codeXor = ⟨x ^^^ y, false⟩ := by
  simp [alu, aluInvalidCode, contested, codeXor, aluTable, aluLogic]

@[simp] theorem alu_nor (c : Config) (x y : Word) : alu c x y codeNor = ⟨~~~(x ||| y), false⟩ := by
  simp [alu, aluInvalidCode, contested, codeNor, aluTable, aluLogic]

/-- A shift amount is below 32 (R118). -/
theorem shiftAmount_lt (y : Word) : shiftAmount y < 32 :=
  (y.extractLsb' 0 5).isLt

end Sys2Proof.Machine
end

