-- ==== Sys2Proof/Laws/Decode.lean ====
section
/-! SUPPORT. The field views of a packed word (spec/30_encoding.md R81, R94). -/

namespace Sys2Proof

/-- The two field layouts a record can have (R81, R95). -/
theorem Encoding.positions_cases {e : Encoding} (h : e.positionsWf = true) :
    (e.rsPos = 21 ∧ e.rtPos = 16 ∧ e.rdPos = 11) ∨ (e.rsPos = 16 ∧ e.rtPos = 21 ∧ e.rdPos = 11) := by
  simp only [Encoding.positionsWf, Bool.and_eq_true, Bool.or_eq_true, decide_eq_true_eq] at h
  tauto

/-- What every R-format word shows (R82). -/
structure ShowsR (e : Encoding) (w : Word) (funct : BitVec 6) (rs rt rd : RegIx) (shamt : Shamt) : Prop where
  opcode : (fieldsOf e w).opcode = 0
  funct : (fieldsOf e w).funct = funct
  rs : (fieldsOf e w).rs = rs
  rt : (fieldsOf e w).rt = rt
  rd : (fieldsOf e w).rd = rd
  shamt : (fieldsOf e w).shamt = shamt

/-- What every I-format word shows (R83). -/
structure ShowsI (e : Encoding) (w : Word) (opcode : BitVec 6) (rs rt : RegIx) (imm : Imm16) : Prop where
  opcode : (fieldsOf e w).opcode = opcode
  rs : (fieldsOf e w).rs = rs
  rt : (fieldsOf e w).rt = rt
  imm : (fieldsOf e w).imm = imm

/-- What every J-format word shows (R84). -/
structure ShowsJ (e : Encoding) (w : Word) (opcode : BitVec 6) (target : Target) : Prop where
  opcode : (fieldsOf e w).opcode = opcode
  target : (fieldsOf e w).target = target

theorem packR_shows {e : Encoding} (h : e.positionsWf = true) (fn : BitVec 6) (rs rt rd : RegIx) (sh : Shamt) :
    ShowsR e (packR e fn rs rt rd sh) fn rs rt rd sh := by
  rcases Encoding.positions_cases h with ⟨h1, h2, h3⟩ | ⟨h1, h2, h3⟩ <;> constructor <;>
    simp only [fieldsOf, packR, h1, h2, h3] <;> refine BitVec.eq_of_getLsbD_eq fun i hi => ?_ <;>
    simp only [BitVec.getLsbD_extractLsb', BitVec.getLsbD_or, BitVec.getLsbD_shiftLeft, BitVec.getLsbD_setWidth] <;>
    interval_cases i <;> simp

theorem packI_shows {e : Encoding} (h : e.positionsWf = true) (op : BitVec 6) (rs rt : RegIx) (imm : Imm16) :
    ShowsI e (packI e op rs rt imm) op rs rt imm := by
  rcases Encoding.positions_cases h with ⟨h1, h2, h3⟩ | ⟨h1, h2, h3⟩ <;> constructor <;>
    simp only [fieldsOf, packI, h1, h2] <;> refine BitVec.eq_of_getLsbD_eq fun i hi => ?_ <;>
    simp only [BitVec.getLsbD_extractLsb', BitVec.getLsbD_or, BitVec.getLsbD_shiftLeft, BitVec.getLsbD_setWidth] <;>
    interval_cases i <;> simp

theorem packJ_shows (e : Encoding) (op : BitVec 6) (target : Target) : ShowsJ e (packJ op target) op target := by
  constructor <;> simp only [fieldsOf, packJ] <;> refine BitVec.eq_of_getLsbD_eq fun i hi => ?_ <;>
    simp only [BitVec.getLsbD_extractLsb', BitVec.getLsbD_or, BitVec.getLsbD_shiftLeft, BitVec.getLsbD_setWidth] <;>
    interval_cases i <;> simp

/-- The list of primary operations leaves none out. -/
theorem PrimaryOp.mem_all (o : PrimaryOp) : o ∈ PrimaryOp.all := by cases o <;> decide

/-- The list of R-format operations leaves none out. -/
theorem FunctOp.mem_all (o : FunctOp) : o ∈ FunctOp.all := by cases o <;> decide

end Sys2Proof
end

