-- ==== Sys2Proof/Laws/Memory.lean ====
section
/-! SUPPORT. Memory: the byte list keeps its canonical form, a byte read after a write gives the value written, every
other byte is left alone, and the sized accesses in terms of bytes (spec/20_memory.md R57 to R64). -/

namespace Sys2Proof.Machine

/-! ### The list -/

/-- The keys of a memory rise strictly. -/
abbrev Memory.sorted (m : Memory) : Prop :=
  m.Pairwise fun x y => x.1 < y.1

/-- A stored entry is not blank and lies in a segment. -/
def goodCell (c : Host.Cell) : Bool :=
  c.2 != blankByte && decide (c.1 < 2 ^ 32) && mapped (BitVec.ofNat 32 c.1)

theorem Memory.wf_iff (m : Memory) : m.wf = true ↔ m.sorted ∧ ∀ c ∈ m, goodCell c = true := by
  simp [Memory.wf, goodCell, List.all_eq_true]

@[simp] theorem Memory.wf_nil : Memory.wf [] = true := by decide

theorem Memory.mem_put {m : Memory} {a : Nat} {v : Byte} {c : Host.Cell} (h : c ∈ m.put a v) :
    c ∈ m ∨ (c = (a, v) ∧ v ≠ blankByte) := by
  induction m with
  | nil =>
    simp only [Memory.put] at h
    split at h <;> simp_all
  | cons x m ih =>
    obtain ⟨k, b⟩ := x
    simp only [Memory.put] at h
    split at h
    · split at h <;> simp_all
      tauto
    · split at h
      · split at h <;> simp_all
        tauto
      · rcases List.mem_cons.1 h with h | h
        · exact .inl (List.mem_cons.2 (.inl h))
        · rcases ih h with h | h
          · exact .inl (List.mem_cons.2 (.inr h))
          · exact .inr h

theorem Memory.put_sorted {m : Memory} (a : Nat) (v : Byte) (h : m.sorted) : (m.put a v).sorted := by
  induction m with
  | nil =>
    simp only [Memory.put]
    split <;> simp [Memory.sorted]
  | cons x m ih =>
    obtain ⟨k, b⟩ := x
    have h0 := List.pairwise_cons.1 h
    simp only [Memory.put]
    split
    · split
      · exact h
      · refine List.pairwise_cons.2 ⟨fun c hc => ?_, h⟩
        rcases List.mem_cons.1 hc with rfl | hc
        · assumption
        · exact lt_trans ‹a < k› (h0.1 c hc)
    · split
      · subst a
        split
        · exact h0.2
        · exact List.pairwise_cons.2 ⟨h0.1, h0.2⟩
      · refine List.pairwise_cons.2 ⟨fun c hc => ?_, ih h0.2⟩
        rcases Memory.mem_put hc with hc | ⟨rfl, -⟩
        · exact h0.1 c hc
        · show k < a
          omega

theorem Memory.get_eq_blank {m : Memory} {a : Nat} (h : ∀ c ∈ m, c.1 ≠ a) : m.get a = blankByte := by
  induction m with
  | nil => rfl
  | cons x m ih =>
    obtain ⟨k, b⟩ := x
    simp only [Memory.get]
    rw [if_neg (h (k, b) (by simp))]
    exact ih fun c hc => h c (by simp [hc])

/-- A key's byte after a store: the value under the key stored to, any other key's byte as before. -/
theorem Memory.get_put {m : Memory} (a : Nat) (v : Byte) (h : m.sorted) (b : Nat) :
    (m.put a v).get b = if b = a then v else m.get b := by
  induction m with
  | nil =>
    simp only [Memory.put]
    split <;> simp_all [Memory.get, eq_comm]
  | cons x m ih =>
    obtain ⟨k, y⟩ := x
    have h0 := List.pairwise_cons.1 h
    have key : ∀ c ∈ m, k < c.1 := fun c hc => h0.1 c hc
    simp only [Memory.put]
    split
    · rename_i hak
      split
      · rename_i hv
        by_cases hb : b = a
        · subst hb
          rw [if_pos rfl, hv]
          refine Memory.get_eq_blank fun c hc => ?_
          rcases List.mem_cons.1 hc with rfl | hc
          · show k ≠ b
            omega
          · have := key c hc
            omega
        · rw [if_neg hb]
      · simp only [Memory.get, eq_comm]
    · split
      · rename_i hak
        subst hak
        split
        · rename_i hv
          by_cases hb : b = a
          · subst hb
            rw [if_pos rfl, hv]
            exact Memory.get_eq_blank fun c hc => (by have := key c hc; omega)
          · rw [if_neg hb]
            simp only [Memory.get]
            rw [if_neg (fun e => hb e.symm)]
        · simp only [Memory.get, eq_comm]
          split <;> rfl
      · simp only [Memory.get]
        rw [ih h0.2]
        by_cases hk : k = b
        · subst hk
          rename_i h1 h2
          simp [h2, eq_comm]
        · simp [hk]

/-! ### Bytes -/

theorem ofNat_toNat32 (a : Word) : BitVec.ofNat 32 a.toNat = a := by simp

/-- Every byte write keeps the canonical form. -/
theorem Memory.setByte_wf {m : Memory} (h : m.wf = true) (a : Word) (v : Byte) : (m.setByte a v).wf = true := by
  unfold Memory.setByte
  split
  · rename_i hm
    obtain ⟨hs, hg⟩ := (Memory.wf_iff m).1 h
    refine (Memory.wf_iff _).2 ⟨Memory.put_sorted _ _ hs, fun c hc => ?_⟩
    rcases Memory.mem_put hc with hc | ⟨rfl, hv⟩
    · exact hg c hc
    · simp [goodCell, hv, hm, a.isLt]
  · exact h

/-- Every write of bytes keeps the canonical form. -/
theorem Memory.setBytes_wf {m : Memory} (h : m.wf = true) (a : Word) (bs : List Byte) :
    (m.setBytes a bs).wf = true := by
  induction bs generalizing m a with
  | nil => exact h
  | cons b bs ih => exact ih (Memory.setByte_wf h a b) (a + 1)

/-- Every sized write keeps the canonical form. -/
theorem Memory.write_wf {m : Memory} (h : m.wf = true) (a : Word) (n : Width) (v : Word) :
    (m.write a n v).wf = true :=
  Memory.setBytes_wf h a _

/-- An address outside the segments has no byte. -/
@[simp] theorem Memory.byte_of_not_mapped {m : Memory} {a : Word} (h : mapped a = false) : m.byte a = 0 := by
  simp [Memory.byte, h]

@[simp] theorem Memory.byte_nil (a : Word) : Memory.byte [] a = 0 := by
  simp [Memory.byte, Memory.get, blankByte]

/-- A byte after a byte write (spec/20_memory.md R59, R64). -/
theorem Memory.byte_setByte {m : Memory} (h : m.wf = true) (a : Word) (v : Byte) (b : Word) :
    (m.setByte a v).byte b = if b = a ∧ mapped a = true then v else m.byte b := by
  have hs := ((Memory.wf_iff m).1 h).1
  unfold Memory.setByte Memory.byte
  by_cases hm : mapped a = true
  · rw [if_pos hm, Memory.get_put _ _ hs]
    by_cases hb : b = a
    · subst hb
      simp [hm]
    · have : b.toNat ≠ a.toNat := fun e => hb (BitVec.eq_of_toNat_eq e)
      simp [hb, this]
  · simp [hm]

/-! ### Widths in bytes -/

/-- A served one-byte read. -/
theorem Memory.read_byte (m : Memory) (a : Word) : m.read a .byte = (m.byte a).setWidth 32 := by
  simp [Memory.read, Width.bytes, Memory.bytesFrom, wordOfBytes]

/-- Two bytes accumulated in address order. -/
theorem wordOfBytes_two (x y : Byte) : wordOfBytes [x, y] = (x ++ y).setWidth 32 := by
  refine BitVec.eq_of_getLsbD_eq fun i hi => ?_
  simp only [wordOfBytes, List.foldl, BitVec.getLsbD_append, BitVec.getLsbD_or, BitVec.getLsbD_shiftLeft,
    BitVec.getLsbD_setWidth]
  interval_cases i <;> simp

/-- Four bytes accumulated in address order. -/
theorem wordOfBytes_four (x y z w : Byte) : wordOfBytes [x, y, z, w] = x ++ y ++ z ++ w := by
  refine BitVec.eq_of_getLsbD_eq fun i hi => ?_
  refine Eq.trans ?_ (BitVec.getLsbD_append (x := x ++ y ++ z) (y := w) (i := i)).symm
  simp only [wordOfBytes, List.foldl, BitVec.getLsbD_append, BitVec.getLsbD_or, BitVec.getLsbD_shiftLeft,
    BitVec.getLsbD_setWidth]
  interval_cases i <;> simp

/-- A served two-byte read is big-endian (R57, R58). -/
theorem Memory.read_half (m : Memory) (a : Word) :
    m.read a .half = (m.byte a ++ m.byte (a + 1)).setWidth 32 :=
  wordOfBytes_two _ _

/-- A served four-byte read is big-endian (R57, R58). -/
theorem Memory.read_word (m : Memory) (a : Word) :
    m.read a .word = m.byte a ++ m.byte (a + 1) ++ m.byte (a + 1 + 1) ++ m.byte (a + 1 + 1 + 1) :=
  wordOfBytes_four _ _ _ _

/-- The bytes a four-byte write stores make up its value (R57). -/
theorem wordOfBytes_bytesOfWord (v : Word) : wordOfBytes (bytesOfWord v) = v := by
  refine BitVec.eq_of_getLsbD_eq fun i hi => ?_
  simp only [bytesOfWord, wordOfBytes, List.foldl, BitVec.getLsbD_or, BitVec.getLsbD_shiftLeft,
    BitVec.getLsbD_setWidth, BitVec.getLsbD_extractLsb']
  interval_cases i <;> simp

/-! ### Consecutive bytes -/

/-- The bytes a run of stores does not reach are as before. -/
theorem Memory.byte_setBytes_of_ne {m : Memory} (h : m.wf = true) (bs : List Byte) (a b : Word)
    (hb : ∀ k < bs.length, b ≠ a + BitVec.ofNat 32 k) : (m.setBytes a bs).byte b = m.byte b := by
  induction bs generalizing m a with
  | nil => rfl
  | cons x bs ih =>
    simp only [Memory.setBytes]
    rw [ih (Memory.setByte_wf h a x), Memory.byte_setByte h]
    · have := hb 0 (by simp)
      simp only [BitVec.add_zero] at this
      simp [this]
    · intro k hk e
      refine hb (k + 1) (by simpa using hk) (e.trans ?_)
      rw [BitVec.add_assoc]
      congr 1
      apply BitVec.eq_of_toNat_eq
      simp [Nat.add_comm]

/-- Each byte a run of stores reaches is the byte stored, where the address is in a segment (R59, R61). -/
theorem Memory.byte_setBytes {m : Memory} (h : m.wf = true) (bs : List Byte) (a : Word) (k : Nat)
    (hk : k < bs.length) (hlen : bs.length < 2 ^ 32) :
    (m.setBytes a bs).byte (a + BitVec.ofNat 32 k) =
      if mapped (a + BitVec.ofNat 32 k) = true then bs[k] else 0 := by
  by_cases hm : mapped (a + BitVec.ofNat 32 k) = true
  · rw [if_pos hm]
    induction bs generalizing m a k with
    | nil => simp at hk
    | cons x bs ih =>
      simp only [Memory.setBytes]
      cases k with
      | zero =>
        simp only [BitVec.ofNat_eq_ofNat, BitVec.add_zero] at hm ⊢
        rw [Memory.byte_setBytes_of_ne (Memory.setByte_wf h a x), Memory.byte_setByte h]
        · simp [hm]
        · intro j hj e
          have h1 : (1 + BitVec.ofNat 32 j : Word) = 0 := by
            have : a + (1 + BitVec.ofNat 32 j) = a + 0 := by
              rw [← BitVec.add_assoc]
              exact e.symm.trans (by simp)
            exact (BitVec.add_right_inj a).1 this
          have h2 := congrArg BitVec.toNat h1
          simp only [List.length_cons] at hlen
          simp only [BitVec.ofNat_eq_ofNat, BitVec.toNat_add, BitVec.toNat_ofNat] at h2
          omega
      | succ k =>
        have e : a + BitVec.ofNat 32 (k + 1) = (a + 1) + BitVec.ofNat 32 k := by
          rw [BitVec.add_assoc]
          congr 1
          apply BitVec.eq_of_toNat_eq
          simp [Nat.add_comm]
        rw [e] at hm ⊢
        simp only [List.length_cons] at hk hlen
        rw [ih (Memory.setByte_wf h a x) (a + 1) k (by omega) (by omega) hm]
        simp
  · rw [if_neg hm, Memory.byte_of_not_mapped (by simpa using hm)]

end Sys2Proof.Machine
end

