-- ==== Sys2Proof/Laws/State.lean ====
section
/-! SUPPORT. One lemma per field per update of the state, so that no later proof unfolds a record update. -/

namespace Sys2Proof.Machine

/-! ### `State.setReg` -/

@[simp] theorem State.setReg_pc (s : State) (i : RegIx) (v : Word) : (s.setReg i v).pc = s.pc := rfl
@[simp] theorem State.setReg_hi (s : State) (i : RegIx) (v : Word) : (s.setReg i v).hi = s.hi := rfl
@[simp] theorem State.setReg_lo (s : State) (i : RegIx) (v : Word) : (s.setReg i v).lo = s.lo := rfl
@[simp] theorem State.setReg_mem (s : State) (i : RegIx) (v : Word) : (s.setReg i v).mem = s.mem := rfl
@[simp] theorem State.setReg_saved (s : State) (i : RegIx) (v : Word) : (s.setReg i v).saved = s.saved := rfl
@[simp] theorem State.setReg_sink (s : State) (i : RegIx) (v : Word) : (s.setReg i v).sink = s.sink := rfl
@[simp] theorem State.setReg_outcome (s : State) (i : RegIx) (v : Word) : (s.setReg i v).outcome = s.outcome := rfl
@[simp] theorem State.setReg_freeIndex (s : State) (i : RegIx) (v : Word) : (s.setReg i v).freeIndex = s.freeIndex := rfl
@[simp] theorem State.setReg_cfg (s : State) (i : RegIx) (v : Word) : (s.setReg i v).cfg = s.cfg := rfl

/-- Reading a register after a write to any register, `R[0]` included (spec/10_state.md R24). -/
@[simp] theorem State.setReg_reg (s : State) (i : RegIx) (v : Word) (j : RegIx) :
    (s.setReg i v).reg j = if j = i then v else s.reg j := by
  simp only [State.setReg, State.reg, Vector.getElem_set]
  by_cases h : j = i
  · simp [h]
  · have : i.toNat ≠ j.toNat := fun e => h (BitVec.eq_of_toNat_eq e.symm)
    simp [h, this]

/-! ### `State.setPc` -/

@[simp] theorem State.setPc_reg (s : State) (v : Word) (j : RegIx) : (s.setPc v).reg j = s.reg j := rfl
@[simp] theorem State.setPc_hi (s : State) (v : Word) : (s.setPc v).hi = s.hi := rfl
@[simp] theorem State.setPc_lo (s : State) (v : Word) : (s.setPc v).lo = s.lo := rfl
@[simp] theorem State.setPc_mem (s : State) (v : Word) : (s.setPc v).mem = s.mem := rfl
@[simp] theorem State.setPc_saved (s : State) (v : Word) : (s.setPc v).saved = s.saved := rfl
@[simp] theorem State.setPc_sink (s : State) (v : Word) : (s.setPc v).sink = s.sink := rfl
@[simp] theorem State.setPc_outcome (s : State) (v : Word) : (s.setPc v).outcome = s.outcome := rfl
@[simp] theorem State.setPc_freeIndex (s : State) (v : Word) : (s.setPc v).freeIndex = s.freeIndex := rfl
@[simp] theorem State.setPc_cfg (s : State) (v : Word) : (s.setPc v).cfg = s.cfg := rfl
@[simp] theorem State.setPc_pc (s : State) (v : Word) : (s.setPc v).pc = v := rfl

/-! ### `State.setHiLo` -/

@[simp] theorem State.setHiLo_reg (s : State) (h l : Word) (j : RegIx) : (s.setHiLo h l).reg j = s.reg j := rfl
@[simp] theorem State.setHiLo_pc (s : State) (h l : Word) : (s.setHiLo h l).pc = s.pc := rfl
@[simp] theorem State.setHiLo_mem (s : State) (h l : Word) : (s.setHiLo h l).mem = s.mem := rfl
@[simp] theorem State.setHiLo_saved (s : State) (h l : Word) : (s.setHiLo h l).saved = s.saved := rfl
@[simp] theorem State.setHiLo_sink (s : State) (h l : Word) : (s.setHiLo h l).sink = s.sink := rfl
@[simp] theorem State.setHiLo_outcome (s : State) (h l : Word) : (s.setHiLo h l).outcome = s.outcome := rfl
@[simp] theorem State.setHiLo_freeIndex (s : State) (h l : Word) : (s.setHiLo h l).freeIndex = s.freeIndex := rfl
@[simp] theorem State.setHiLo_cfg (s : State) (h l : Word) : (s.setHiLo h l).cfg = s.cfg := rfl
@[simp] theorem State.setHiLo_hi (s : State) (h l : Word) : (s.setHiLo h l).hi = h := rfl
@[simp] theorem State.setHiLo_lo (s : State) (h l : Word) : (s.setHiLo h l).lo = l := rfl

/-! ### `State.setMem` -/

@[simp] theorem State.setMem_reg (s : State) (m : Memory) (j : RegIx) : (s.setMem m).reg j = s.reg j := rfl
@[simp] theorem State.setMem_pc (s : State) (m : Memory) : (s.setMem m).pc = s.pc := rfl
@[simp] theorem State.setMem_hi (s : State) (m : Memory) : (s.setMem m).hi = s.hi := rfl
@[simp] theorem State.setMem_lo (s : State) (m : Memory) : (s.setMem m).lo = s.lo := rfl
@[simp] theorem State.setMem_saved (s : State) (m : Memory) : (s.setMem m).saved = s.saved := rfl
@[simp] theorem State.setMem_sink (s : State) (m : Memory) : (s.setMem m).sink = s.sink := rfl
@[simp] theorem State.setMem_outcome (s : State) (m : Memory) : (s.setMem m).outcome = s.outcome := rfl
@[simp] theorem State.setMem_freeIndex (s : State) (m : Memory) : (s.setMem m).freeIndex = s.freeIndex := rfl
@[simp] theorem State.setMem_cfg (s : State) (m : Memory) : (s.setMem m).cfg = s.cfg := rfl
@[simp] theorem State.setMem_mem (s : State) (m : Memory) : (s.setMem m).mem = m := rfl

/-! ### `State.logError` -/

@[simp] theorem State.logError_reg (s : State) (e : ErrorEvent) (j : RegIx) : (s.logError e).reg j = s.reg j := rfl
@[simp] theorem State.logError_pc (s : State) (e : ErrorEvent) : (s.logError e).pc = s.pc := rfl
@[simp] theorem State.logError_hi (s : State) (e : ErrorEvent) : (s.logError e).hi = s.hi := rfl
@[simp] theorem State.logError_lo (s : State) (e : ErrorEvent) : (s.logError e).lo = s.lo := rfl
@[simp] theorem State.logError_mem (s : State) (e : ErrorEvent) : (s.logError e).mem = s.mem := rfl
@[simp] theorem State.logError_saved (s : State) (e : ErrorEvent) : (s.logError e).saved = s.saved := rfl
@[simp] theorem State.logError_outcome (s : State) (e : ErrorEvent) : (s.logError e).outcome = s.outcome := rfl
@[simp] theorem State.logError_freeIndex (s : State) (e : ErrorEvent) : (s.logError e).freeIndex = s.freeIndex := rfl
@[simp] theorem State.logError_cfg (s : State) (e : ErrorEvent) : (s.logError e).cfg = s.cfg := rfl
@[simp] theorem State.logError_sink (s : State) (e : ErrorEvent) :
    (s.logError e).sink = { s.sink with error := s.sink.error ++ [e] } := rfl

/-! ### `State.emit` -/

@[simp] theorem State.emit_reg (s : State) (e : NormalEvent) (j : RegIx) : (s.emit e).reg j = s.reg j := rfl
@[simp] theorem State.emit_pc (s : State) (e : NormalEvent) : (s.emit e).pc = s.pc := rfl
@[simp] theorem State.emit_hi (s : State) (e : NormalEvent) : (s.emit e).hi = s.hi := rfl
@[simp] theorem State.emit_lo (s : State) (e : NormalEvent) : (s.emit e).lo = s.lo := rfl
@[simp] theorem State.emit_mem (s : State) (e : NormalEvent) : (s.emit e).mem = s.mem := rfl
@[simp] theorem State.emit_saved (s : State) (e : NormalEvent) : (s.emit e).saved = s.saved := rfl
@[simp] theorem State.emit_outcome (s : State) (e : NormalEvent) : (s.emit e).outcome = s.outcome := rfl
@[simp] theorem State.emit_freeIndex (s : State) (e : NormalEvent) : (s.emit e).freeIndex = s.freeIndex := rfl
@[simp] theorem State.emit_cfg (s : State) (e : NormalEvent) : (s.emit e).cfg = s.cfg := rfl
@[simp] theorem State.emit_sink (s : State) (e : NormalEvent) :
    (s.emit e).sink = { s.sink with normal := s.sink.normal ++ [e] } := rfl

/-! ### `State.haltWith` -/

@[simp] theorem State.haltWith_reg (s : State) (r : HaltReason) (j : RegIx) : (s.haltWith r).reg j = s.reg j := rfl
@[simp] theorem State.haltWith_pc (s : State) (r : HaltReason) : (s.haltWith r).pc = s.pc := rfl
@[simp] theorem State.haltWith_hi (s : State) (r : HaltReason) : (s.haltWith r).hi = s.hi := rfl
@[simp] theorem State.haltWith_lo (s : State) (r : HaltReason) : (s.haltWith r).lo = s.lo := rfl
@[simp] theorem State.haltWith_mem (s : State) (r : HaltReason) : (s.haltWith r).mem = s.mem := rfl
@[simp] theorem State.haltWith_saved (s : State) (r : HaltReason) : (s.haltWith r).saved = s.saved := rfl
@[simp] theorem State.haltWith_sink (s : State) (r : HaltReason) : (s.haltWith r).sink = s.sink := rfl
@[simp] theorem State.haltWith_freeIndex (s : State) (r : HaltReason) : (s.haltWith r).freeIndex = s.freeIndex := rfl
@[simp] theorem State.haltWith_cfg (s : State) (r : HaltReason) : (s.haltWith r).cfg = s.cfg := rfl
@[simp] theorem State.haltWith_outcome (s : State) (r : HaltReason) : (s.haltWith r).outcome = .halt r := rfl

/-! ### `State.beginStep` -/

@[simp] theorem State.beginStep_reg (s : State) (j : RegIx) : s.beginStep.reg j = s.reg j := rfl
@[simp] theorem State.beginStep_pc (s : State) : s.beginStep.pc = s.pc := rfl
@[simp] theorem State.beginStep_hi (s : State) : s.beginStep.hi = s.hi := rfl
@[simp] theorem State.beginStep_lo (s : State) : s.beginStep.lo = s.lo := rfl
@[simp] theorem State.beginStep_mem (s : State) : s.beginStep.mem = s.mem := rfl
@[simp] theorem State.beginStep_saved (s : State) : s.beginStep.saved = s.saved := rfl
@[simp] theorem State.beginStep_cfg (s : State) : s.beginStep.cfg = s.cfg := rfl
@[simp] theorem State.beginStep_sink (s : State) :
    s.beginStep.sink = { s.sink with debug := s.sink.debug ++ [s.freeIndex] } := rfl
@[simp] theorem State.beginStep_outcome (s : State) : s.beginStep.outcome = .cont := rfl
@[simp] theorem State.beginStep_freeIndex (s : State) : s.beginStep.freeIndex = s.freeIndex + 1 := rfl

/-! ### Writing back what is there -/

@[simp] theorem State.setPc_self (s : State) : s.setPc s.pc = s := rfl

@[simp] theorem State.setMem_self (s : State) : s.setMem s.mem = s := rfl

end Sys2Proof.Machine
end

