-- ==== Sys2Proof/Laws/Ops.lean ====
section
/-! SUPPORT. For each shared operation, everything it can do, said once: later proofs cite these and do not unfold the
operation. -/

namespace Sys2Proof.Machine

/-! ### Translation -/

/-- An address is mapped exactly if its selector is one of the three (spec/20_memory.md R53). -/
theorem mapped_iff (a : Word) :
    mapped a = true ↔ selectorOf a = selProgram ∨ selectorOf a = selData ∨ selectorOf a = selStack := by
  unfold mapped translateAddr
  split
  · simp [*]
  · split
    · simp [*]
    · split <;> simp [*]

theorem translateAddr_eq_none {a : Word} (h : mapped a = false) : translateAddr a = none := by
  simpa [mapped] using h

theorem translateAddr_isSome {a : Word} (h : mapped a = true) : ∃ g, translateAddr a = some g :=
  Option.isSome_iff_exists.1 h

/-- A one-byte access never runs past the end of a segment (R61). -/
@[simp] theorem overruns_byte (a : Word) : overruns a .byte = false := by
  have := (offsetOf a).isLt
  simp [overruns, Width.bytes, segSize]
  omega

/-- How the memory answers, in four cases (R55, R56, R61). -/
theorem answerOf_cases (c : Config) (a : Word) (n : Width) :
    (mapped a = false ∧ answerOf c a n = .addressFault) ∨
    (mapped a = true ∧ overruns a n = false ∧ answerOf c a n = .served) ∨
    (mapped a = true ∧ overruns a n = true ∧ c.segOverrun = .zeroFillDrop ∧ answerOf c a n = .served) ∨
    (mapped a = true ∧ overruns a n = true ∧ c.segOverrun = .fault ∧ answerOf c a n = .addressFault) ∨
    (mapped a = true ∧ overruns a n = true ∧ c.segOverrun = .refuse ∧ answerOf c a n = .refused) := by
  cases hm : mapped a with
  | false => simp [answerOf, translateAddr_eq_none hm]
  | true =>
    obtain ⟨g, hg⟩ := translateAddr_isSome hm
    cases ho : overruns a n <;> cases hc : c.segOverrun <;> simp [answerOf, hg, ho, hc]

/-- A one-byte access is served or an addressing fault, never refused. -/
theorem answerOf_byte (c : Config) (a : Word) :
    answerOf c a .byte = if mapped a then .served else .addressFault := by
  rcases answerOf_cases c a .byte with h | h | h | h | h <;> simp_all

/-- Only an overrun under REFUSE is refused (R61). -/
theorem answerOf_refused {c : Config} {a : Word} {n : Width} (h : answerOf c a n = .refused) :
    mapped a = true ∧ overruns a n = true ∧ c.segOverrun = .refuse := by
  rcases answerOf_cases c a n with h' | h' | h' | h' | h' <;> simp_all

/-! ### Sized accesses -/

/-- Everything a read can do (R56, R58, R61): it gives a value and at most logs one event, or is refused. -/
theorem State.memRead_cases (s : State) (a : Word) (n : Width) :
    (answerOf s.cfg a n = .served ∧ s.memRead a n = .ok (s.mem.read a n, s)) ∨
    (answerOf s.cfg a n = .addressFault ∧ s.memRead a n = .ok (sentinel, s.logError (.addressFault .read a n))) ∨
    (answerOf s.cfg a n = .refused ∧ s.memRead a n = .error (.segmentOverrun .read a n)) := by
  cases h : answerOf s.cfg a n <;> simp [State.memRead, h]

/-- Everything a write can do (R56, R59, R61): it stores, or logs one event and stores nothing, or is refused. -/
theorem State.memWrite_cases (s : State) (a : Word) (n : Width) (v : Word) :
    (answerOf s.cfg a n = .served ∧ s.memWrite a n v = .ok (s.setMem (s.mem.write a n v))) ∨
    (answerOf s.cfg a n = .addressFault ∧ s.memWrite a n v = .ok (s.logError (.addressFault .write a n))) ∨
    (answerOf s.cfg a n = .refused ∧ s.memWrite a n v = .error (.segmentOverrun .write a n)) := by
  cases h : answerOf s.cfg a n <;> simp [State.memWrite, h]

/-- Everything a load can do (spec/46_load_store.md R221 to R223, R226). -/
theorem State.loadTo_cases (s : State) (d : RegIx) (a : Word) (n : Width) :
    (answerOf s.cfg a n = .served ∧ s.loadTo d a n = .next (s.setReg d (s.mem.read a n))) ∨
    (answerOf s.cfg a n = .addressFault ∧
      s.loadTo d a n = .next ((s.logError (.addressFault .read a n)).setReg d sentinel)) ∨
    (answerOf s.cfg a n = .refused ∧ s.loadTo d a n = .refused (.segmentOverrun .read a n)) := by
  rcases s.memRead_cases a n with ⟨h, e⟩ | ⟨h, e⟩ | ⟨h, e⟩ <;> simp [State.loadTo, h, e]

/-- Everything a store can do (R224 to R226). -/
theorem State.storeTo_cases (s : State) (a : Word) (n : Width) (v : Word) :
    (answerOf s.cfg a n = .served ∧ s.storeTo a n v = .next (s.setMem (s.mem.write a n v))) ∨
    (answerOf s.cfg a n = .addressFault ∧ s.storeTo a n v = .next (s.logError (.addressFault .write a n))) ∨
    (answerOf s.cfg a n = .refused ∧ s.storeTo a n v = .refused (.segmentOverrun .write a n)) := by
  rcases s.memWrite_cases a n v with ⟨h, e⟩ | ⟨h, e⟩ | ⟨h, e⟩ <;> simp [State.storeTo, h, e]

/-- Everything a fetch can do (spec/41_engine_step.md R141): `PC` advances by 4 whenever a word comes back. -/
theorem State.fetch_cases (s : State) :
    (answerOf s.cfg s.pc .word = .served ∧
      s.fetch = .ok (s.mem.read s.pc .word, s.setPc (s.pc + 4))) ∨
    (answerOf s.cfg s.pc .word = .addressFault ∧
      s.fetch = .ok (sentinel, (s.logError (.addressFault .read s.pc .word)).setPc (s.pc + 4))) ∨
    (answerOf s.cfg s.pc .word = .refused ∧ s.fetch = .error (.segmentOverrun .read s.pc .word)) := by
  rcases s.memRead_cases s.pc .word with ⟨h, e⟩ | ⟨h, e⟩ | ⟨h, e⟩ <;> simp [State.fetch, h, e]

/-! ### The ALU in the engine -/

/-- With a valid code the engine's use of the ALU logs nothing (R111). -/
theorem State.aluTo_eq {s : State} {x y z : Word} {code : AluCode} (d : RegIx)
    (h : alu s.cfg x y code = ⟨z, false⟩) : s.aluTo d x y code = s.setReg d z := by
  simp [State.aluTo, State.aluOp, h]

/-! ### Unrecognised instructions -/

/-- Everything the unrecognised R-format path can do (spec/41_engine_step.md R146). -/
theorem State.unrecognisedR_cases (s : State) (w : Word) (rd : RegIx) :
    (s.cfg.unkFunctWritesRd = false ∧ s.unrecognisedR w rd = s.logError (.unknownInstruction w)) ∨
    (s.cfg.unkFunctWritesRd = true ∧
      s.unrecognisedR w rd =
        ((s.logError (.unknownInstruction w)).logError (.aluInvalid (Config.freeAluCode s.freeIndex))).setReg rd
          sentinel) := by
  cases h : s.cfg.unkFunctWritesRd <;> simp [State.unrecognisedR, State.unrecognised, h]

/-- A branch moves `PC` or does nothing. -/
theorem State.branchIf_cases (s : State) (taken : Bool) (imm : Imm16) :
    (taken = true ∧ s.branchIf taken imm = s.setPc (branchTarget s.pc imm)) ∨
    (taken = false ∧ s.branchIf taken imm = s) := by
  cases taken <;> simp [State.branchIf]

/-! ### The canonical form of memory is kept by every operation -/

theorem State.memRead_wf {s t : State} {a v : Word} {n : Width} (h : s.memRead a n = .ok (v, t)) : t.mem = s.mem := by
  rcases s.memRead_cases a n with ⟨-, e⟩ | ⟨-, e⟩ | ⟨-, e⟩ <;> rw [e] at h <;> cases h <;> rfl

theorem State.memWrite_wf {s t : State} {a v : Word} {n : Width} (hs : s.mem.wf = true)
    (h : s.memWrite a n v = .ok t) : t.mem.wf = true := by
  rcases s.memWrite_cases a n v with ⟨-, e⟩ | ⟨-, e⟩ | ⟨-, e⟩ <;> rw [e] at h <;> cases h
  · exact Memory.write_wf hs a n v
  · exact hs

theorem State.loadTo_wf {s t : State} {d : RegIx} {a : Word} {n : Width} (h : s.loadTo d a n = .next t) :
    t.mem = s.mem := by
  rcases s.loadTo_cases d a n with ⟨-, e⟩ | ⟨-, e⟩ | ⟨-, e⟩ <;> rw [e] at h <;> cases h <;> rfl

theorem State.storeTo_wf {s t : State} {a v : Word} {n : Width} (hs : s.mem.wf = true)
    (h : s.storeTo a n v = .next t) : t.mem.wf = true := by
  rcases s.storeTo_cases a n v with ⟨-, e⟩ | ⟨-, e⟩ | ⟨-, e⟩ <;> rw [e] at h <;> cases h
  · exact Memory.write_wf hs a n v
  · exact hs

theorem State.fetch_wf {s t : State} {w : Word} (h : s.fetch = .ok (w, t)) : t.mem = s.mem := by
  rcases s.fetch_cases with ⟨-, e⟩ | ⟨-, e⟩ | ⟨-, e⟩ <;> rw [e] at h <;> cases h <;> rfl

theorem State.memoryReset_wf (s : State) : s.memoryReset.mem.wf = true := Memory.wf_nil

theorem State.create_wf (c : Config) : (State.create c).mem.wf = true := Memory.wf_nil

theorem State.hostPut_wf {s t : State} {a v : Word} {n : Width} (hs : s.mem.wf = true)
    (h : s.hostPut n a v = .ok t) : t.mem.wf = true :=
  State.memWrite_wf hs h

theorem State.viewFrom_mem {count : Nat} {s t : State} {a : Word} {l : List (Word × Word)}
    (h : s.viewFrom a count = .ok (l, t)) : t.mem = s.mem := by
  induction count generalizing s a l with
  | zero => cases h; rfl
  | succ count ih =>
    simp only [State.viewFrom] at h
    split at h
    · cases h
    · rename_i v s' hr
      split at h
      · cases h
      · rename_i rest u hv
        cases h
        rw [ih hv, State.memRead_wf hr]

theorem State.loadWords_wf {ws : List Word} {s t : State} {base : Word} (hs : s.mem.wf = true)
    (h : s.loadWords base ws = .ok t) : t.mem.wf = true := by
  induction ws generalizing s base with
  | nil => cases h; exact hs
  | cons w ws ih =>
    simp only [State.loadWords] at h
    split at h
    · cases h
    · rename_i s' hp
      exact ih (State.hostPut_wf hs hp) h

end Sys2Proof.Machine
end

