-- ==== Sys2Proof/Laws/PerInstr.lean ====
section
/-! SUPPORT. Per-instruction laws. EncodedFields: the word of an instruction shows, in the field views of
spec/30_encoding.md R81, the number its mnemonic has in the record (R89, R90) and every field of the instruction. -/

namespace Sys2Proof.Laws.EncodedFields

open Sys2Proof

/-- The fields of the word an instruction is packed into, for every record with a legal layout. -/
def Statement (i : Instr) : Prop :=
  ∀ e : Encoding, e.positionsWf = true →
    match i with
    | .sll rs rt rd sh => ShowsR e (encode e (.sll rs rt rd sh)) e.fnSll rs rt rd sh
    | .srl rs rt rd sh => ShowsR e (encode e (.srl rs rt rd sh)) e.fnSrl rs rt rd sh
    | .sra rs rt rd sh => ShowsR e (encode e (.sra rs rt rd sh)) e.fnSra rs rt rd sh
    | .jr rs rt rd sh => ShowsR e (encode e (.jr rs rt rd sh)) e.fnJr rs rt rd sh
    | .syscall rs rt rd sh => ShowsR e (encode e (.syscall rs rt rd sh)) e.fnSyscall rs rt rd sh
    | .mfhi rs rt rd sh => ShowsR e (encode e (.mfhi rs rt rd sh)) e.fnMfhi rs rt rd sh
    | .mflo rs rt rd sh => ShowsR e (encode e (.mflo rs rt rd sh)) e.fnMflo rs rt rd sh
    | .mul rs rt rd sh => ShowsR e (encode e (.mul rs rt rd sh)) e.fnMul rs rt rd sh
    | .div rs rt rd sh => ShowsR e (encode e (.div rs rt rd sh)) e.fnDiv rs rt rd sh
    | .add rs rt rd sh => ShowsR e (encode e (.add rs rt rd sh)) e.fnAdd rs rt rd sh
    | .sub rs rt rd sh => ShowsR e (encode e (.sub rs rt rd sh)) e.fnSub rs rt rd sh
    | .and rs rt rd sh => ShowsR e (encode e (.and rs rt rd sh)) e.fnAnd rs rt rd sh
    | .or rs rt rd sh => ShowsR e (encode e (.or rs rt rd sh)) e.fnOr rs rt rd sh
    | .xor rs rt rd sh => ShowsR e (encode e (.xor rs rt rd sh)) e.fnXor rs rt rd sh
    | .nor rs rt rd sh => ShowsR e (encode e (.nor rs rt rd sh)) e.fnNor rs rt rd sh
    | .slt rs rt rd sh => ShowsR e (encode e (.slt rs rt rd sh)) e.fnSlt rs rt rd sh
    | .bltz rs rt imm => ShowsI e (encode e (.bltz rs rt imm)) e.opBltz rs rt imm
    | .beq rs rt imm => ShowsI e (encode e (.beq rs rt imm)) e.opBeq rs rt imm
    | .bne rs rt imm => ShowsI e (encode e (.bne rs rt imm)) e.opBne rs rt imm
    | .addi rs rt imm => ShowsI e (encode e (.addi rs rt imm)) e.opAddi rs rt imm
    | .addiu rs rt imm => ShowsI e (encode e (.addiu rs rt imm)) e.opAddiu rs rt imm
    | .slti rs rt imm => ShowsI e (encode e (.slti rs rt imm)) e.opSlti rs rt imm
    | .sltiu rs rt imm => ShowsI e (encode e (.sltiu rs rt imm)) e.opSltiu rs rt imm
    | .andi rs rt imm => ShowsI e (encode e (.andi rs rt imm)) e.opAndi rs rt imm
    | .ori rs rt imm => ShowsI e (encode e (.ori rs rt imm)) e.opOri rs rt imm
    | .xori rs rt imm => ShowsI e (encode e (.xori rs rt imm)) e.opXori rs rt imm
    | .lui rs rt imm => ShowsI e (encode e (.lui rs rt imm)) e.opLui rs rt imm
    | .lb rs rt imm => ShowsI e (encode e (.lb rs rt imm)) e.opLb rs rt imm
    | .lw rs rt imm => ShowsI e (encode e (.lw rs rt imm)) e.opLw rs rt imm
    | .lbu rs rt imm => ShowsI e (encode e (.lbu rs rt imm)) e.opLbu rs rt imm
    | .sb rs rt imm => ShowsI e (encode e (.sb rs rt imm)) e.opSb rs rt imm
    | .sw rs rt imm => ShowsI e (encode e (.sw rs rt imm)) e.opSw rs rt imm
    | .j target => ShowsJ e (encode e (.j target)) e.opJ target
    | .jal target => ShowsJ e (encode e (.jal target)) e.opJal target

theorem sll (rs rt rd : RegIx) (sh : Shamt) : Statement (.sll rs rt rd sh) := fun _ h => packR_shows h _ _ _ _ _
theorem srl (rs rt rd : RegIx) (sh : Shamt) : Statement (.srl rs rt rd sh) := fun _ h => packR_shows h _ _ _ _ _
theorem sra (rs rt rd : RegIx) (sh : Shamt) : Statement (.sra rs rt rd sh) := fun _ h => packR_shows h _ _ _ _ _
theorem jr (rs rt rd : RegIx) (sh : Shamt) : Statement (.jr rs rt rd sh) := fun _ h => packR_shows h _ _ _ _ _
theorem syscall (rs rt rd : RegIx) (sh : Shamt) : Statement (.syscall rs rt rd sh) := fun _ h => packR_shows h _ _ _ _ _
theorem mfhi (rs rt rd : RegIx) (sh : Shamt) : Statement (.mfhi rs rt rd sh) := fun _ h => packR_shows h _ _ _ _ _
theorem mflo (rs rt rd : RegIx) (sh : Shamt) : Statement (.mflo rs rt rd sh) := fun _ h => packR_shows h _ _ _ _ _
theorem mul (rs rt rd : RegIx) (sh : Shamt) : Statement (.mul rs rt rd sh) := fun _ h => packR_shows h _ _ _ _ _
theorem div (rs rt rd : RegIx) (sh : Shamt) : Statement (.div rs rt rd sh) := fun _ h => packR_shows h _ _ _ _ _
theorem add (rs rt rd : RegIx) (sh : Shamt) : Statement (.add rs rt rd sh) := fun _ h => packR_shows h _ _ _ _ _
theorem sub (rs rt rd : RegIx) (sh : Shamt) : Statement (.sub rs rt rd sh) := fun _ h => packR_shows h _ _ _ _ _
theorem and (rs rt rd : RegIx) (sh : Shamt) : Statement (.and rs rt rd sh) := fun _ h => packR_shows h _ _ _ _ _
theorem or (rs rt rd : RegIx) (sh : Shamt) : Statement (.or rs rt rd sh) := fun _ h => packR_shows h _ _ _ _ _
theorem xor (rs rt rd : RegIx) (sh : Shamt) : Statement (.xor rs rt rd sh) := fun _ h => packR_shows h _ _ _ _ _
theorem nor (rs rt rd : RegIx) (sh : Shamt) : Statement (.nor rs rt rd sh) := fun _ h => packR_shows h _ _ _ _ _
theorem slt (rs rt rd : RegIx) (sh : Shamt) : Statement (.slt rs rt rd sh) := fun _ h => packR_shows h _ _ _ _ _
theorem bltz (rs rt : RegIx) (imm : Imm16) : Statement (.bltz rs rt imm) := fun _ h => packI_shows h _ _ _ _
theorem beq (rs rt : RegIx) (imm : Imm16) : Statement (.beq rs rt imm) := fun _ h => packI_shows h _ _ _ _
theorem bne (rs rt : RegIx) (imm : Imm16) : Statement (.bne rs rt imm) := fun _ h => packI_shows h _ _ _ _
theorem addi (rs rt : RegIx) (imm : Imm16) : Statement (.addi rs rt imm) := fun _ h => packI_shows h _ _ _ _
theorem addiu (rs rt : RegIx) (imm : Imm16) : Statement (.addiu rs rt imm) := fun _ h => packI_shows h _ _ _ _
theorem slti (rs rt : RegIx) (imm : Imm16) : Statement (.slti rs rt imm) := fun _ h => packI_shows h _ _ _ _
theorem sltiu (rs rt : RegIx) (imm : Imm16) : Statement (.sltiu rs rt imm) := fun _ h => packI_shows h _ _ _ _
theorem andi (rs rt : RegIx) (imm : Imm16) : Statement (.andi rs rt imm) := fun _ h => packI_shows h _ _ _ _
theorem ori (rs rt : RegIx) (imm : Imm16) : Statement (.ori rs rt imm) := fun _ h => packI_shows h _ _ _ _
theorem xori (rs rt : RegIx) (imm : Imm16) : Statement (.xori rs rt imm) := fun _ h => packI_shows h _ _ _ _
theorem lui (rs rt : RegIx) (imm : Imm16) : Statement (.lui rs rt imm) := fun _ h => packI_shows h _ _ _ _
theorem lb (rs rt : RegIx) (imm : Imm16) : Statement (.lb rs rt imm) := fun _ h => packI_shows h _ _ _ _
theorem lw (rs rt : RegIx) (imm : Imm16) : Statement (.lw rs rt imm) := fun _ h => packI_shows h _ _ _ _
theorem lbu (rs rt : RegIx) (imm : Imm16) : Statement (.lbu rs rt imm) := fun _ h => packI_shows h _ _ _ _
theorem sb (rs rt : RegIx) (imm : Imm16) : Statement (.sb rs rt imm) := fun _ h => packI_shows h _ _ _ _
theorem sw (rs rt : RegIx) (imm : Imm16) : Statement (.sw rs rt imm) := fun _ h => packI_shows h _ _ _ _
theorem j (target : Target) : Statement (.j target) := fun e _ => packJ_shows e _ _
theorem jal (target : Target) : Statement (.jal target) := fun e _ => packJ_shows e _ _

end Sys2Proof.Laws.EncodedFields
end

