-- ==== Sys2Proof/Laws/Step.lean ====
section
/-! SUPPORT. What one instruction and one step can do, said once (spec/41_engine_step.md R142): invariants are derived
from these lemmas, not from the step function unfolded. -/

namespace Sys2Proof.Machine

/-- The shapes a state can have after an instruction that was given the state `s`. -/
inductive ExecShape (s : State) : State → Prop where
  | nothing : ExecShape s s
  | reg (d : RegIx) (v : Word) : ExecShape s (s.setReg d v)
  | hiLo (h l : Word) : ExecShape s (s.setHiLo h l)
  | pc (v : Word) : ExecShape s (s.setPc v)
  | link (v : Word) : ExecShape s ((s.setReg regRa s.pc).setPc v)
  | store (a : Word) (n : Width) (v : Word) : ExecShape s (s.setMem (s.mem.write a n v))
  | loadFault (d : RegIx) (a : Word) (n : Width) :
      ExecShape s ((s.logError (.addressFault .read a n)).setReg d sentinel)
  | storeFault (a : Word) (n : Width) : ExecShape s (s.logError (.addressFault .write a n))
  | unknown (w : Word) : ExecShape s (s.logError (.unknownInstruction w))
  | unknownWrites (w : Word) (code : AluCode) (d : RegIx) :
      ExecShape s (((s.logError (.unknownInstruction w)).logError (.aluInvalid code)).setReg d sentinel)
  | print (e : NormalEvent) : ExecShape s (s.emit e)
  | halt : ExecShape s (s.haltWith .syscall10)

theorem ExecShape.aluTo (s : State) (d : RegIx) (x y : Word) {z : Word} {code : AluCode}
    (h : alu s.cfg x y code = ⟨z, false⟩) : ExecShape s (s.aluTo d x y code) :=
  State.aluTo_eq d h ▸ .reg d z

theorem ExecShape.loadTo {s t : State} {d : RegIx} {a : Word} {n : Width} (h : s.loadTo d a n = .next t) :
    ExecShape s t := by
  rcases s.loadTo_cases d a n with ⟨-, e⟩ | ⟨-, e⟩ | ⟨-, e⟩ <;> rw [e] at h <;> cases h
  · exact .reg _ _
  · exact .loadFault _ _ _

theorem ExecShape.storeTo {s t : State} {a v : Word} {n : Width} (h : s.storeTo a n v = .next t) : ExecShape s t := by
  rcases s.storeTo_cases a n v with ⟨-, e⟩ | ⟨-, e⟩ | ⟨-, e⟩ <;> rw [e] at h <;> cases h
  · exact .store _ _ _
  · exact .storeFault _ _

theorem ExecShape.unrecognisedR (s : State) (w : Word) (rd : RegIx) : ExecShape s (s.unrecognisedR w rd) := by
  rcases s.unrecognisedR_cases w rd with ⟨-, e⟩ | ⟨-, e⟩ <;> rw [e]
  · exact .unknown _
  · exact .unknownWrites _ _ _

theorem ExecShape.branchIf (s : State) (taken : Bool) (imm : Imm16) : ExecShape s (s.branchIf taken imm) := by
  rcases s.branchIf_cases taken imm with ⟨-, e⟩ | ⟨-, e⟩ <;> rw [e]
  · exact .pc _
  · exact .nothing

theorem ExecShape.syscall {s t : State} (h : execSyscall s = .next t) : ExecShape s t := by
  unfold execSyscall at h
  repeat' split at h
  all_goals cases h
  · exact .print _
  · exact .halt
  · exact .print _
  · exact .nothing

/-- Every instruction leaves its state in one of the shapes. -/
theorem exec_shape {i : Instr} {s t : State} (h : exec i s = .next t) : ExecShape s t := by
  cases i
  case sll => cases h; exact .aluTo s _ _ _ (alu_sll _ _ _)
  case srl => cases h; exact .aluTo s _ _ _ (alu_srl _ _ _)
  case sra => cases h; exact .aluTo s _ _ _ (alu_sra _ _ _)
  case jr => cases h; exact .pc _
  case syscall => exact .syscall h
  case mfhi => cases h; exact .reg _ _
  case mflo => cases h; exact .reg _ _
  case mul => cases h; exact .hiLo _ _
  case div => cases h; exact .unrecognisedR _ _ _
  case add => cases h; exact .aluTo s _ _ _ (alu_add _ _ _)
  case sub => cases h; exact .aluTo s _ _ _ (alu_sub _ _ _)
  case and => cases h; exact .aluTo s _ _ _ (alu_and _ _ _)
  case or => cases h; exact .aluTo s _ _ _ (alu_or _ _ _)
  case xor => cases h; exact .aluTo s _ _ _ (alu_xor _ _ _)
  case nor => cases h; exact .aluTo s _ _ _ (alu_nor _ _ _)
  case slt => cases h; exact .aluTo s _ _ _ (alu_slt _ _ _)
  case bltz => cases h; exact .branchIf _ _ _
  case beq => cases h; exact .branchIf _ _ _
  case bne => cases h; exact .branchIf _ _ _
  case addi => cases h; exact .aluTo s _ _ _ (alu_add _ _ _)
  case addiu => cases h; exact .unknown _
  case slti => cases h; exact .aluTo s _ _ _ (alu_slt _ _ _)
  case sltiu => cases h; exact .unknown _
  case andi => cases h; exact .aluTo s _ _ _ (alu_and _ _ _)
  case ori => cases h; exact .aluTo s _ _ _ (alu_or _ _ _)
  case xori => cases h; exact .aluTo s _ _ _ (alu_xor _ _ _)
  case lui => cases h; exact .aluTo s _ _ _ (alu_sll _ _ _)
  case lb => exact .loadTo h
  case lw => exact .loadTo h
  case lbu => exact .loadTo h
  case sb => exact .storeTo h
  case sw => exact .storeTo h
  case j => cases h; exact .pc _
  case jal => cases h; exact .link _

/-- An unrecognised word leaves the state in one of the same shapes (R146). -/
theorem execUnrecognised_shape (w : Word) (s : State) : ExecShape s (execUnrecognised w s) := by
  unfold execUnrecognised
  split
  · exact .unrecognisedR _ _ _
  · exact .unknown _

/-- Everything a step that answers a next state did: one fetch, then the zero-word halt, one instruction, or the
unrecognised path (R142). -/
theorem step_cases {s t : State} (h : step s = .next t) :
    ∃ w s', s.beginStep.fetch = .ok (w, s') ∧
      ((w = 0 ∧ t = s'.haltWith .zeroWord) ∨
       (w ≠ 0 ∧ ∃ i, decode s'.cfg.encoding w = .ok i ∧ exec i s' = .next t) ∨
       (w ≠ 0 ∧ ∃ u, decode s'.cfg.encoding w = .error u ∧ t = execUnrecognised w s')) := by
  unfold step at h
  split at h
  · cases h
  · rename_i w s' hf
    refine ⟨w, s', hf, ?_⟩
    by_cases hw : w = 0
    · subst hw
      simp only [isZeroWord, decide_true, if_true] at h
      cases h
      exact .inl ⟨rfl, rfl⟩
    · simp only [isZeroWord, hw, decide_false, Bool.false_eq_true, if_false] at h
      split at h
      · rename_i i hd
        exact .inr (.inl ⟨hw, i, hd, h⟩)
      · rename_i u hd
        cases h
        exact .inr (.inr ⟨hw, u, hd, rfl⟩)

/-- A shape keeps the canonical form of memory. -/
theorem ExecShape.wf {s t : State} (h : ExecShape s t) (hs : s.mem.wf = true) : t.mem.wf = true := by
  cases h <;> first | exact hs | exact Memory.write_wf hs _ _ _

/-- A shape leaves the configuration, the snapshot and the counter of free values alone. -/
theorem ExecShape.apart {s t : State} (h : ExecShape s t) :
    t.cfg = s.cfg ∧ t.saved = s.saved ∧ t.freeIndex = s.freeIndex := by
  cases h <;> exact ⟨rfl, rfl, rfl⟩

end Sys2Proof.Machine
end

