-- ==== Sys2Proof/Tests/Slice0.lean ====
section
/-! SUPPORT. The model's own tests, and a witness for the hypotheses of every obligation. Words and results are those of
spec/95_test_vectors.md and of the rules' own examples, by table; none was taken from the model. -/

namespace Sys2Proof.Tests

open Sys2Proof Sys2Proof.Machine

/-! ### Small states -/

/-- A new machine with registers and words of memory set. -/
def create (cfg : Config) (regs : List (RegIx × Word)) (words : List (Word × Word)) : State :=
  words.foldl (fun s p => s.setMem (s.mem.write p.1 .word p.2))
    (regs.foldl (fun s p => s.setReg p.1 p.2) (State.create cfg))

/-- The same with an instruction at the reset `PC`. -/
def machine (cfg : Config) (regs : List (RegIx × Word)) (words : List (Word × Word)) (w : Nat) : State :=
  (create cfg regs words).withFetchWord 32 w

/-- The state after one step. -/
def after (s : State) : State :=
  match step s with
  | .next t => t
  | .fault f => nomatch f
  | .refused _ => s

/-- The three signedness parameters at true. -/
def signedConfig : Config :=
  { defaultConfig with aluSltSigned := true, bltzSigned := true, mulSigned := true }

/-- The other parameters away from their defaults. -/
def otherConfig : Config :=
  { defaultConfig with aluNoncanonical := .fault, unkFunctWritesRd := true, segOverrun := .fault }

/-- `SEG_OVERRUN` = ZERO_FILL_DROP. -/
def zeroFillConfig : Config :=
  { defaultConfig with segOverrun := .zeroFillDrop }

/-- `rs` and `rt` exchanged: the other legal layout (R95). -/
def swappedEncoding : Encoding :=
  { defaultEncoding with rsPos := 16, rtPos := 21 }

/-! ### The checks refuse an ill-formed term -/

theorem test_wf_default : defaultConfig.wf = true := by decide
theorem test_wf_swapped : swappedEncoding.wf = true := by decide
theorem test_wf_opcode_twice : Encoding.opcodesWf { defaultEncoding with opLw := 0x0D } = false := by decide
theorem test_wf_opcode_zero : Encoding.opcodesWf { defaultEncoding with opLw := 0 } = false := by decide
theorem test_wf_funct_twice : Encoding.functsWf { defaultEncoding with fnAdd := 0 } = false := by decide
theorem test_wf_position_overlaps : Encoding.positionsWf { defaultEncoding with rsPos := 16 } = false := by decide
theorem test_wf_position_rd : Encoding.positionsWf { defaultEncoding with rdPos := 12 } = false := by decide
theorem test_wf_encoding : Encoding.wf { defaultEncoding with rtPos := 15 } = false := by decide
theorem test_wf_name_empty : regNameWf [] = false := by decide
theorem test_wf_name_upper_case : regNameWf ['$', 'T', '0'] = false := by decide
theorem test_wf_name_blank : regNameWf ['$', ' '] = false := by decide
theorem test_wf_name_comma : regNameWf ['$', ','] = false := by decide
theorem test_wf_name_parenthesis : regNameWf ['(', 't'] = false ∧ regNameWf ['t', ')'] = false := by decide
theorem test_wf_names_too_few : regNamesWf (defaultRegNames.drop 1) = false := by decide
theorem test_wf_names_twice : regNamesWf (['$', 'a', 't'] :: defaultRegNames.drop 1) = false := by decide
theorem test_wf_names_bad_name : regNamesWf ([] :: defaultRegNames.drop 1) = false := by decide
theorem test_wf_config : Config.wf { defaultConfig with regNames := [] } = false := by decide
theorem test_canonical_refuses_unprinted_fields :
    (Instr.sll 1 0 0 0).canonical = false ∧ (Instr.jr 0 0 1 0).canonical = false ∧
    (Instr.syscall 0 0 0 1).canonical = false ∧ (Instr.mfhi 0 1 0 0).canonical = false ∧
    (Instr.add 0 0 0 1).canonical = false ∧ (Instr.mul 0 0 0 1).canonical = false ∧
    (Instr.bltz 0 1 0).canonical = false ∧ (Instr.lui 1 0 0).canonical = false := by decide

/-! ### Decoding: one word per instruction, field by field (spec/30_encoding.md R82 to R84, R89, R90) -/

theorem test_decode_sll : decodeTableWord 32 0b000000_00000_01001_01000_00100_000000 = some (.sll 0 9 8 4) := by decide
theorem test_decode_srl : decodeTableWord 32 0b000000_00000_01001_01000_00100_000010 = some (.srl 0 9 8 4) := by decide
theorem test_decode_sra : decodeTableWord 32 0b000000_00000_01001_01000_11111_000011 = some (.sra 0 9 8 31) := by decide
theorem test_decode_jr : decodeTableWord 32 0b000000_11111_00000_00000_00000_001000 = some (.jr 31 0 0 0) := by decide
theorem test_decode_syscall : decodeTableWord 32 0b000000_11111_11111_11111_11111_001100 = some (.syscall 31 31 31 31) := by decide
theorem test_decode_mfhi : decodeTableWord 32 0b000000_00000_00000_01010_00000_010000 = some (.mfhi 0 0 10 0) := by decide
theorem test_decode_mflo : decodeTableWord 32 0b000000_00000_00000_01011_00000_010010 = some (.mflo 0 0 11 0) := by decide
theorem test_decode_mul : decodeTableWord 32 0b000000_01000_01001_01010_00000_011000 = some (.mul 8 9 10 0) := by decide
theorem test_decode_div : decodeTableWord 32 0b000000_01000_01001_01010_00000_011010 = some (.div 8 9 10 0) := by decide
theorem test_decode_add : decodeTableWord 32 0b000000_01001_01010_01000_00101_100000 = some (.add 9 10 8 5) := by decide
theorem test_decode_sub : decodeTableWord 32 0b000000_01000_01001_01010_00000_100010 = some (.sub 8 9 10 0) := by decide
theorem test_decode_and : decodeTableWord 32 0b000000_01000_01001_01010_00000_100100 = some (.and 8 9 10 0) := by decide
theorem test_decode_or : decodeTableWord 32 0b000000_01000_01001_01010_00000_100101 = some (.or 8 9 10 0) := by decide
theorem test_decode_xor : decodeTableWord 32 0b000000_01000_01001_01010_00000_100110 = some (.xor 8 9 10 0) := by decide
theorem test_decode_nor : decodeTableWord 32 0b000000_01000_01001_01010_00000_100111 = some (.nor 8 9 10 0) := by decide
theorem test_decode_slt : decodeTableWord 32 0b000000_01000_01001_01010_00000_101010 = some (.slt 8 9 10 0) := by decide
theorem test_decode_bltz : decodeTableWord 32 0b000001_01000_01001_1111111111111110 = some (.bltz 8 9 0xFFFE) := by decide
theorem test_decode_beq : decodeTableWord 32 0b000100_01000_01001_0000000000000011 = some (.beq 8 9 0x0003) := by decide
theorem test_decode_bne : decodeTableWord 32 0b000101_01000_01001_1111111111111110 = some (.bne 8 9 0xFFFE) := by decide
theorem test_decode_addi : decodeTableWord 32 0b001000_11101_11101_1111111111111000 = some (.addi 29 29 0xFFF8) := by decide
theorem test_decode_addiu : decodeTableWord 32 0b001001_01001_01000_1111111111111111 = some (.addiu 9 8 0xFFFF) := by decide
theorem test_decode_slti : decodeTableWord 32 0b001010_01001_01000_0000000000000111 = some (.slti 9 8 0x0007) := by decide
theorem test_decode_sltiu : decodeTableWord 32 0b001011_01001_01000_1111111111111111 = some (.sltiu 9 8 0xFFFF) := by decide
theorem test_decode_andi : decodeTableWord 32 0b001100_01001_01000_1111111100000000 = some (.andi 9 8 0xFF00) := by decide
theorem test_decode_ori : decodeTableWord 32 0b001101_00000_00010_0000000000001010 = some (.ori 0 2 0x000A) := by decide
theorem test_decode_xori : decodeTableWord 32 0b001110_01001_01000_1111111111111111 = some (.xori 9 8 0xFFFF) := by decide
theorem test_decode_lui : decodeTableWord 32 0b001111_00000_01000_0001000000000001 = some (.lui 0 8 0x1001) := by decide
theorem test_decode_lb : decodeTableWord 32 0b100000_01001_01000_1111111111111111 = some (.lb 9 8 0xFFFF) := by decide
theorem test_decode_lw : decodeTableWord 32 0b100011_01010_10000_1111111111111100 = some (.lw 10 16 0xFFFC) := by decide
theorem test_decode_lbu : decodeTableWord 32 0b100100_01001_01000_0000000000000011 = some (.lbu 9 8 0x0003) := by decide
theorem test_decode_sb : decodeTableWord 32 0b101000_11110_01000_1111111111110000 = some (.sb 30 8 0xFFF0) := by decide
theorem test_decode_sw : decodeTableWord 32 0b101011_01010_10000_0000000000000100 = some (.sw 10 16 0x0004) := by decide
theorem test_decode_j : decodeTableWord 32 0b000010_11111111111111111111111111 = some (.j 0x3FFFFFF) := by decide
theorem test_decode_jal : decodeTableWord 32 0b000011_00000100000000000000000100 = some (.jal 0x0100004) := by decide

theorem test_decode_refuses_opcode : decode defaultEncoding 0xFC000000 = .error (.opcode 0x3F) := by decide
theorem test_decode_refuses_funct : decode defaultEncoding 0x0000403F = .error (.funct 0x3F) := by decide
theorem test_decode_refuses_short : decodeBytes defaultEncoding [0x34, 0x02, 0x00] = .error .truncated := by decide
theorem test_decode_bytes_big_endian :
    decodeBytes defaultEncoding [0x34, 0x02, 0x00, 0x0A, 0x77] = .ok (.ori 0 2 10, [0x77]) := by decide
theorem test_decode_swapped_layout : decode swappedEncoding 0x3402000A = .ok (.ori 2 0 10) := by decide
theorem test_encode_ori : encode defaultEncoding (.ori 0 2 10) = 0x3402000A := by decide
theorem test_encode_keeps_unused_fields : encode defaultEncoding (.syscall 31 31 31 31) = 0x03FFFFCC := by decide

/-! ### One step per instruction -/

/-- Table C: `sll $zero $t1 1`. -/
theorem test_sll_into_r0 :
    let t := after (machine defaultConfig [(9, 3)] [] 0x00090040)
    t.reg 0 = 6 ∧
      t.pc = 0x00400004 := by decide

/-- Table C: `sll $t0 $t0 1`. -/
theorem test_sll_source_is_destination :
    let t := after (machine defaultConfig [(8, 0xC0000001)] [] 0x00084040)
    t.reg 8 = 0x80000002 := by decide

/-- Table C. -/
theorem test_srl_brings_zeros :
    let t := after (machine defaultConfig [(9, 0x80000001)] [] 0x00094102)
    t.reg 8 = 0x08000000 := by decide

/-- Table C. -/
theorem test_sra_brings_sign :
    let t := after (machine defaultConfig [(9, 0x80000001)] [] 0x00094103)
    t.reg 8 = 0xF8000000 := by decide

/-- Table C. -/
theorem test_sra_positive :
    let t := after (machine defaultConfig [(9, 0x7FFFFFFF), (8, 0x55)] [] 0x000947C3)
    t.reg 8 = 0 := by decide

/-- Table D: no overflow fault. -/
theorem test_add_wraps :
    let t := after (machine defaultConfig [(8, 0x7FFFFFFF), (9, 1)] [] 0x01095020)
    t.reg 10 = 0x80000000 ∧
      t.sink.error = [] := by decide

/-- Table D, S5: the value persists. -/
theorem test_add_into_r0 :
    let t := after (machine defaultConfig [(8, 5), (9, 7)] [] 0x01090020)
    t.reg 0 = 12 := by decide

/-- Table D. -/
theorem test_sub_is_rs_minus_rt :
    let t := after (machine defaultConfig [(8, 5), (9, 7)] [] 0x01095022)
    t.reg 10 = 0xFFFFFFFE := by decide

/-- Table D. -/
theorem test_and :
    let t := after (machine defaultConfig [(8, 0xF0F0F0F0), (9, 0xFF00FF00)] [] 0x01095024)
    t.reg 10 = 0xF000F000 := by decide

/-- Table D. -/
theorem test_or :
    let t := after (machine defaultConfig [(8, 0xF0F0F0F0), (9, 0xFF00FF00)] [] 0x01095025)
    t.reg 10 = 0xFFF0FFF0 := by decide

/-- Table D. -/
theorem test_xor :
    let t := after (machine defaultConfig [(8, 0xF0F0F0F0), (9, 0xFF00FF00)] [] 0x01095026)
    t.reg 10 = 0x0FF00FF0 := by decide

/-- Table D. -/
theorem test_nor :
    let t := after (machine defaultConfig [(8, 0xF0F0F0F0), (9, 0xFF00FF00)] [] 0x01095027)
    t.reg 10 = 0x000F000F := by decide

/-- Table D. -/
theorem test_slt_unsigned_by_default :
    let t := after (machine defaultConfig [(8, 0xFFFFFFFF), (9, 1), (10, 9)] [] 0x0109502A)
    t.reg 10 = 0 := by decide

/-- Table D, under ALU_SLT_SIGNED = true. -/
theorem test_slt_signed :
    let t := after (machine signedConfig [(8, 0xFFFFFFFF), (9, 1)] [] 0x0109502A)
    t.reg 10 = 1 := by decide

/-- Table E: `rd` is ignored. -/
theorem test_mul_high_word :
    let t := after (machine defaultConfig [(8, 0xFFFFFFFF), (9, 0xFFFFFFFF), (10, 0x99)] [] 0x01095018)
    t.hi = 0xFFFFFFFE ∧
      t.lo = 1 ∧
      t.reg 10 = 0x99 := by decide

/-- Table E, under MUL_SIGNED = true. -/
theorem test_mul_signed :
    let t := after (machine signedConfig [(8, 0x80000000), (9, 2)] [] 0x01090018)
    t.hi = 0xFFFFFFFF ∧
      t.lo = 0 := by decide

/-- Table E. -/
theorem test_mfhi :
    let t := after ((machine defaultConfig [] [] 0x00005010).setHiLo 0xAABBCCDD 0x11223344)
    t.reg 10 = 0xAABBCCDD ∧ t.hi = 0xAABBCCDD := by decide

/-- Table E. -/
theorem test_mflo :
    let t := after ((machine defaultConfig [] [] 0x00005812).setHiLo 0xAABBCCDD 0x11223344)
    t.reg 11 = 0x11223344 ∧ t.lo = 0x11223344 := by decide

/-- Table E: DIV is not executed. -/
theorem test_div_is_unknown :
    let t := after ((machine defaultConfig [(8, 20), (9, 3)] [] 0x0109001A).setHiLo 1 2)
    t.hi = 1 ∧ t.lo = 2 ∧ t.reg 0 = 0 ∧ t.sink.error = [.unknownInstruction 0x0109001A] ∧ t.outcome = .cont := by decide

/-- Table E: DIV under UNK_FUNCT_WRITES_RD = true. -/
theorem test_div_writes_sentinel :
    let t := after (machine otherConfig [(8, 20), (9, 3)] [] 0x0109501A)
    t.reg 10 = 0xFFFFFFFF ∧ t.sink.error.head? = some (.unknownInstruction 0x0109501A) ∧
      t.sink.error.length = 2 := by decide

/-- Table F. -/
theorem test_addi_wraps :
    let t := after (machine defaultConfig [(9, 0x7FFFFFFF)] [] 0x21287FFF)
    t.reg 8 = 0x80007FFE ∧
      t.sink.error = [] := by decide

/-- Table F. -/
theorem test_addi_sign_extends :
    let t := after (machine defaultConfig [(9, 0x8000), (8, 9)] [] 0x21288000)
    t.reg 8 = 0 := by decide

/-- Table F. -/
theorem test_addiu_is_unknown :
    let t := after (machine defaultConfig [(9, 5)] [] 0x2528FFFF)
    t.reg 8 = 0 ∧
      t.sink.error = [.unknownInstruction 0x2528FFFF] := by decide

/-- Table F: 5 is below 0xFFFFFFFF. -/
theorem test_slti_unsigned_by_default :
    let t := after (machine defaultConfig [(9, 5)] [] 0x2928FFFF)
    t.reg 8 = 1 := by decide

/-- Table F, under ALU_SLT_SIGNED = true. -/
theorem test_slti_signed :
    let t := after (machine signedConfig [(9, 0xFFFFFFFF)] [] 0x29280000)
    t.reg 8 = 1 := by decide

/-- Table F. -/
theorem test_sltiu_is_unknown :
    let t := after (machine defaultConfig [(9, 5)] [] 0x2D28FFFF)
    t.reg 8 = 0 ∧
      t.sink.error = [.unknownInstruction 0x2D28FFFF] := by decide

/-- Table F. -/
theorem test_andi_zero_extends :
    let t := after (machine defaultConfig [(9, 0x12345678)] [] 0x3128FFFF)
    t.reg 8 = 0x00005678 := by decide

/-- Table F. -/
theorem test_ori_zero_extends :
    let t := after (machine defaultConfig [(9, 0x12345678)] [] 0x3528FF00)
    t.reg 8 = 0x1234FF78 := by decide

/-- Table F. -/
theorem test_xori_zero_extends :
    let t := after (machine defaultConfig [(9, 0x12345678)] [] 0x3928FFFF)
    t.reg 8 = 0x1234A987 := by decide

/-- Table F. -/
theorem test_lui :
    let t := after (machine defaultConfig [(8, 0xFFFFFFFF)] [] 0x3C081001)
    t.reg 8 = 0x10010000 := by decide

/-- Table G: not 0xFFFFFF80. -/
theorem test_lb_zero_extends :
    let t := after (machine defaultConfig [(9, 0x10000000)] [(0x10000000, 0x80000000)] 0x81280000)
    t.reg 8 = 0x00000080 := by decide

/-- Table G. -/
theorem test_lb_faults_at_reset_sp :
    let t := after (machine defaultConfig [] [] 0x83A80000)
    t.reg 8 = 0xFFFFFFFF ∧
      t.sink.error = [.addressFault .read 0x80000000 .byte] ∧
      t.pc = 0x00400004 := by decide

/-- Table G. -/
theorem test_lbu :
    let t := after (machine defaultConfig [(9, 0x10000000)] [(0x10000000, 0x123456F6)] 0x91280003)
    t.reg 8 = 0x000000F6 := by decide

/-- Table G. -/
theorem test_lw_unaligned :
    let t := after (machine defaultConfig [(10, 0x10000000)] [(0x10000000, 0x12345678), (0x10000004, 0x9ABCDEF0)] 0x8D500001)
    t.reg 16 = 0x3456789A ∧
      t.sink.error = [] := by decide

/-- Table G: selector 0x003. -/
theorem test_lw_first_address_decides :
    let t := after (machine defaultConfig [(10, 0x00400000), (16, 7)] [] 0x8D50FFFF)
    t.reg 16 = 0xFFFFFFFF ∧
      t.sink.error = [.addressFault .read 0x003FFFFF .word] := by decide

/-- Table G. -/
theorem test_sw_unaligned :
    let t := after (machine defaultConfig [(10, 0x10000000), (16, 0x12345678)] [(0x10000000, 0xAAAAAAAA), (0x10000004, 0xBBBBBBBB)] 0xAD500001)
    t.mem.read 0x10000000 .word = 0xAA123456 ∧
      t.mem.read 0x10000004 .word = 0x78BBBBBB := by decide

/-- Table G. -/
theorem test_sw_fault_drops :
    let t := after (machine defaultConfig [(16, 5)] [] 0xAFB00000)
    t.mem = (machine defaultConfig [] [] 0xAFB00000).mem ∧
      t.sink.error = [.addressFault .write 0x80000000 .word] := by decide

/-- Table G. -/
theorem test_sb_writes_one_byte :
    let t := after (machine defaultConfig [(8, 0xABCDEF99), (9, 0x10000000)] [(0x10000000, 0x11223344)] 0xA1280002)
    t.mem.read 0x10000000 .word = 0x11229944 := by decide

/-- Table G. -/
theorem test_sb_fault_drops :
    let t := after (machine defaultConfig [(8, 0x1FF), (9, 0x10100000)] [] 0xA1280000)
    t.mem.byte 0x100FFFFF = 0 ∧
      t.sink.error = [.addressFault .write 0x10100000 .byte] := by decide

/-- S7, table H. -/
theorem test_j :
    let t := after (((create defaultConfig [] []).setPc 0x00400000).withFetchWord 32 0x08100008)
    t.pc = 0x00400020 ∧ t.reg 31 = 0 := by decide

/-- Table H. -/
theorem test_j_double_increment :
    let t := after (((create defaultConfig [] []).setPc 0x7FFFFFF8).withFetchWord 32 0x0BC00000)
    t.pc = 0x8F000000 := by decide

/-- Table H. -/
theorem test_jal_links_pcf :
    let t := after (((create defaultConfig [] []).setPc 0x00400008).withFetchWord 32 0x0C100004)
    t.pc = 0x00400010 ∧ t.reg 31 = 0x0040000C := by decide

/-- Table H. -/
theorem test_jr_unaligned :
    let t := after (((create defaultConfig [(8, 0x10000002)] []).setPc 0x00400000).withFetchWord 32 0x01000008)
    t.pc = 0x10000002 ∧ t.sink.error = [] := by decide

/-- Table H: `beq $zero $zero -32768`. -/
theorem test_beq_taken_backwards :
    let t := after (((create defaultConfig [] []).setPc 0x00400000).withFetchWord 32 0x10008000)
    t.pc = 0x003E0004 := by decide

/-- Table H. -/
theorem test_beq_not_taken :
    let t := after (((create defaultConfig [(8, 7), (9, 8)] []).setPc 0x00400000).withFetchWord 32 0x11090003)
    t.pc = 0x00400004 := by decide

/-- Table H. -/
theorem test_bne_taken :
    let t := after (((create defaultConfig [(8, 1)] []).setPc 0x00400010).withFetchWord 32 0x1509FFFE)
    t.pc = 0x0040000C := by decide

/-- Table H. -/
theorem test_bne_not_taken :
    let t := after (((create defaultConfig [(8, 1), (9, 1)] []).setPc 0x00400010).withFetchWord 32 0x1509FFFE)
    t.pc = 0x00400014 := by decide

/-- Table H: unsigned by default, and `rt` is an operand. -/
theorem test_bltz_compares_rt :
    let t := after (((create defaultConfig [(8, 1), (9, 0xFFFFFFFF)] []).setPc 0x00400000).withFetchWord 32 0x05090002)
    t.pc = 0x0040000C := by decide

/-- Table H, under BLTZ_SIGNED = true. -/
theorem test_bltz_signed :
    let t := after (((create signedConfig [(8, 0xFFFFFFFF)] []).setPc 0x00400000).withFetchWord 32 0x05000002)
    t.pc = 0x0040000C := by decide

/-- Table I. -/
theorem test_syscall_prints :
    let t := after (machine defaultConfig [(2, 1), (4, 12)] [] 0x0000000C)
    t.sink.normal = [.printInt 12] ∧
      t.outcome = .cont ∧
      t.pc = 0x00400004 := by decide

/-- Table I: the other fields are ignored. -/
theorem test_syscall_halts :
    let t := after (machine defaultConfig [(2, 10)] [] 0x03FFFFCC)
    t.sink.normal = [] ∧
      t.outcome = .halt .syscall10 ∧
      t.pc = 0x00400004 := by decide

/-! ### The engine (table J) -/

theorem test_zero_word_halts :
    let t := after State.reset
    t.outcome = .halt .zeroWord ∧ t.pc = 0x00400004 ∧ t.sink.error = [] ∧ t.sink.normal = [] := by decide

theorem test_unknown_funct_leaves_rd :
    let t := after (machine defaultConfig [(8, 7)] [] 0x0000403F)
    t.reg 8 = 7 ∧ t.sink.error = [.unknownInstruction 0x0000403F] ∧ t.pc = 0x00400004 ∧ t.outcome = .cont := by decide

theorem test_unknown_funct_writes_rd :
    let t := after (machine otherConfig [(8, 7)] [] 0x0000403F)
    t.reg 8 = 0xFFFFFFFF ∧ t.sink.error.head? = some (.unknownInstruction 0x0000403F) ∧
      t.sink.error.length = 2 := by decide

theorem test_fetch_at_invalid_pc_wraps :
    let t := after (State.reset.hostJump 0xFFFFFFFC)
    t.pc = 0 ∧ t.outcome = .cont ∧
      t.sink.error = [.addressFault .read 0xFFFFFFFC .word, .unknownInstruction 0xFFFFFFFF] := by decide

theorem test_unaligned_fetch :
    let t := after ((create defaultConfig [] [(0x00400000, 0x00340800), (0x00400004, 0x05000000)]).hostJump 0x00400001)
    t.reg 8 = 5 ∧ t.pc = 0x00400005 := by decide

theorem test_overrunning_fetch_is_refused :
    step (State.reset.hostJump 0x004FFFFD) = .refused (.segmentOverrun .read 0x004FFFFD .word) := rfl

theorem test_fetch_word_replaces_unusable_pc :
    (after ((State.reset.hostJump 0x004FFFFE).withFetchWord 32 0x3402000A)).reg 2 = 10 := by decide

/-! ### The ALU (table A) -/

theorem test_alu_shift_by_36 : alu defaultConfig 0x80000001 0x24 0b0001 = ⟨0x10, false⟩ := by decide
theorem test_alu_sra_31 : alu defaultConfig 0x80000000 0x1F 0b0011 = ⟨0xFFFFFFFF, false⟩ := by decide
theorem test_alu_contested_table : alu defaultConfig 3 5 0b0101 = ⟨1, false⟩ := by decide
theorem test_alu_contested_fault : alu otherConfig 5 7 0b1010 = ⟨0xFFFFFFFF, true⟩ := by decide
theorem test_alu_nor_is_no_fault : alu otherConfig 0 0 0b1111 = ⟨0xFFFFFFFF, false⟩ := by decide

/-- The instantiator logs the invalid operation (R111, R123). -/
theorem test_alu_invalid_is_logged :
    ((State.create otherConfig).aluOp 5 7 0b1011).2.sink.error = [.aluInvalid 0b1011] := by decide

/-! ### Memory (S3, table B) -/

theorem test_translation_edges :
    [0x003FFFFF, 0x00400000, 0x004FFFFF, 0x00500000, 0x10000000, 0x100FFFFF, 0x10100000, 0x7FEFFFFF, 0x7FF00000,
      0x7FFFFFFF, 0x80000000].map translateAddr =
    [none, some .program, some .program, none, some .data, some .data, none, none, some .stack, some .stack, none] := by
  decide

theorem test_big_endian_halves :
    let m := Memory.write [] 0x10000000 .word 0x12345678
    m.read 0x10000000 .half = 0x1234 ∧ m.read 0x10000001 .half = 0x3456 ∧ m.read 0x10000003 .byte = 0x78 := by decide

theorem test_half_write_stores_low_bytes :
    (Memory.write [] 0x10000010 .half 0xABCD1234).read 0x10000010 .word = 0x12340000 := by decide

/-- Writing the byte an unlisted address reads as removes the entry. -/
theorem test_zero_write_removes :
    (Memory.write [] 0x10000020 .word 0xFFFFFFFF).setByte 0x10000021 0 =
      [(0x10000020, 0xFF), (0x10000022, 0xFF), (0x10000023, 0xFF)] := by decide

theorem test_memory_form_refuses :
    Memory.wf [(0x10000000, 0)] = false ∧ Memory.wf [(0x10000001, 1), (0x10000000, 1)] = false ∧
    Memory.wf [(0x20000000, 1)] = false ∧ Memory.wf [(0x10000000, 1), (0x10000000, 2)] = false ∧
    Memory.wf [(0x110000000, 1)] = false := by decide

theorem test_overrun_drops :
    ((create zeroFillConfig [(10, 0x100FFFFD), (16, 0x12345678)] []).withFetchWord 32 0xAD500000 |> after).mem.read
      0x100FFFFC .word = 0x00123456 := by decide

theorem test_overrun_zero_fills :
    (after (machine zeroFillConfig [(10, 0x100FFFFE)] [(0x100FFFFC, 0xAABBCCDD)] 0x8D500000)).reg 16 = 0xCCDD0000 := by
  decide

theorem test_overrun_faults :
    let t := after (machine otherConfig [(10, 0x7FFFFFFF)] [] 0x8D500000)
    t.reg 16 = 0xFFFFFFFF ∧ t.sink.error = [.addressFault .read 0x7FFFFFFF .word] := by decide

/-! ### The host (spec/10_state.md R25, R32; spec/20_memory.md R65, R66; spec/70_reset_and_hazards.md R333) -/

theorem test_set_register_zero : (State.reset.hostSet 0 5).reg 0 = 5 := by decide
theorem test_set_negative_value : (State.reset.hostSet 31 (-1)).reg 31 = 0xFFFFFFFF := by decide
theorem test_set_bad_index :
    (State.reset.hostSet 32 5).sink.error = [.regIndexInvalid 32] ∧ (State.reset.hostSet 32 5).regs = State.reset.regs := by
  decide
theorem test_compare_state :
    ((State.reset.saveState.hostSet 8 1).setPc 0).compareState = [['P', 'C'], ['$', 't', '0']] := by decide
theorem test_named_view :
    State.reset.namedView.take 2 = [(['P', 'C'], "0x400000".toList), (['H', 'I'], "0x0".toList)] ∧
      State.reset.namedView.length = 35 := by decide
theorem test_reset_stack_pointer : State.reset.reg 29 = 0x80000000 ∧ State.reset.reg 28 = 0 := by decide

theorem test_view :
    ((create defaultConfig [] [(0x10000004, 7)]).view 0x10000000 0x10000005).toOption.map (·.1) =
      some [(0x10000000, 0), (0x10000004, 7)] := by decide

/-- Program P1's words, and its outcome after five steps. -/
theorem test_boot_and_run :
    (match State.reset.boot 0x00400000 0x00400000 [0x34080005, 0x34090007, 0x01095020, 0x3402000A, 0x0000000C] with
      | .ok s =>
        match run 5 s with
        | .halted reason t => some (reason, t.reg 10, t.pc)
        | .outOfFuel _ => none
        | .refused _ => none
      | .error _ => none) = some (.syscall10, 12, 0x00400014) := by decide

/-! ### Text (tables K and L) -/

theorem test_text_load : disassemble defaultConfig 0xA128FFF0 = "sb $t0 -16($t1)" := by decide
theorem test_text_signed_immediate : disassemble defaultConfig 0x3128FF00 = "andi $t0 $t1 -256" := by decide
theorem test_text_jump : disassemble defaultConfig 0x0FFFFFFF = "jal 0x3ffffff" := by decide
theorem test_text_bltz : disassemble defaultConfig 0x0509FFFE = "bltz $t0 -2" := by decide
theorem test_text_unknown : disassemble defaultConfig 0x0000003F = "Unknown Instruction 0x3f" := by decide
theorem test_assemble_preprocesses : assemble defaultConfig "  ori   $v0,$zero,10  " = some 0x3402000A := by decide
theorem test_assemble_lower_cases : assemble defaultConfig "ORI $V0 $ZERO 0X1F" = some 0x3402001F := by decide
theorem test_assemble_cuts : assemble defaultConfig "ori $v0 $zero 65546" = some 0x3402000A := by decide
theorem test_assemble_memory : assemble defaultConfig "sb $t0 -0x10($fp)" = some 0xA3C8FFF0 := by decide
theorem test_assemble_div : assemble defaultConfig "div $zero $t0 $t1" = some 0x0109001A := by decide
theorem test_assemble_shift_range : assemble defaultConfig "sll $t0 $t1 32" = none := by decide
theorem test_assemble_operand_count : assemble defaultConfig "ori $v0 $zero 10 11" = none := by decide
theorem test_assemble_bad_literal : assemble defaultConfig "ori $v0 $zero --1" = none := by decide

/-! ### Witnesses: each shows a concrete state and operands that meet all the hypotheses of one clause of an obligation -/

theorem witness_DecodeOfEncodeIsTheInstruction : defaultEncoding.wf = true ∧ swappedEncoding.wf = true := by decide

theorem witness_EncodeOfDecodeIsTheWord :
    swappedEncoding.positionsWf = true ∧ decode swappedEncoding 0xFFFFFFFF = .error (.opcode 0x3F) ∧
    decode swappedEncoding 0x012A4160 = .ok (.add 10 9 8 5) := by decide

theorem witness_DisassembledTextAssemblesBack :
    defaultConfig.wf = true ∧ decode defaultConfig.encoding 0x0509FFFE = .ok (.bltz 8 9 0xFFFE) ∧
    (Instr.bltz 8 9 0xFFFE).canonical = false ∧ decode defaultConfig.encoding 0xA3C8FFF0 = .ok (.sb 30 8 0xFFF0) ∧
    (Instr.sb 30 8 0xFFF0).canonical = true := by decide

theorem witness_AssembledLinesReassemble :
    defaultConfig.wf = true ∧ assemble defaultConfig "  LW\t$S0,  -4($T2)" = some 0x8D50FFFC := by decide

theorem witness_HostSetWritesOrLogs :
    ((0 : Int) ≤ 0 ∧ (0 : Int) < 32) ∧ ((0 : Int) ≤ 31 ∧ (31 : Int) < 32) ∧ ¬((0 : Int) ≤ -1 ∧ (-1 : Int) < 32) ∧
    ¬((0 : Int) ≤ 32 ∧ (32 : Int) < 32) := by decide

theorem witness_HostSetWritesOrLogs_step :
    let s := State.reset.hostSet 32 0
    ∃ t, step s = .next t ∧ ErrorEvent.regIndexInvalid 32 ∈ t.sink.error :=
  ⟨_, rfl, by decide⟩

theorem witness_CompareStateNamesExactlyTheDifferences_none : State.reset.saved = none := by decide

theorem witness_CompareStateNamesExactlyTheDifferences_some :
    let s := State.reset.saveState.setReg 0 1
    s.cfg.wf = true ∧ s.saved = some State.reset.regs ∧ s.reg 0 ≠ State.reset.reg 0 ∧ s.hi = State.reset.hi := by decide

theorem witness_TranslationFollowsTheAddressMap :
    translateAddr 0x004FFFFF = some .program ∧ translateAddr 0x10000000 = some .data ∧
    translateAddr 0x7FFFFFFF = some .stack ∧ translateAddr 0x80000000 = none ∧ translateAddr 0x003FFFFF = none := by decide

theorem witness_AnAddressingFaultIsLoggedAndSubstituted :
    translateAddr 0x00500000 = none ∧ translateAddr 0x7FEFFFFF = none := by decide

theorem witness_StoredWordReadsBackBigEndian :
    State.reset.mem.wf = true ∧ mapped 0x100FFFFC = true ∧ overruns 0x100FFFFC .word = false ∧
    mapped 0x00400001 = true ∧ overruns 0x00400001 .word = false := by decide

theorem witness_SegmentsShareNothing_write :
    (create zeroFillConfig [] []).mem.wf = true ∧
    (∃ t, (create zeroFillConfig [] []).memWrite 0x004FFFFF .word 0x12345678 = .ok t) ∧
    translateAddr 0x10000000 ≠ translateAddr 0x004FFFFF ∧ translateAddr 0x00500000 ≠ translateAddr 0x004FFFFF :=
  ⟨by decide, ⟨_, rfl⟩, by decide, by decide⟩

theorem witness_SegmentsShareNothing_byte : Memory.wf [(0x10000000, 1)] = true ∧ mapped 0x7FFFFFFF = true := by decide

theorem witness_OverrunFollowsItsParameter :
    (create zeroFillConfig [] [(0x100FFFFC, 0x01020304)]).mem.wf = true ∧ mapped 0x100FFFFD = true ∧
    overruns 0x100FFFFD .word = true ∧ mapped 0x7FFFFFFF = true ∧ overruns 0x7FFFFFFF .half = true ∧
    defaultConfig.segOverrun = .refuse ∧ otherConfig.segOverrun = .fault ∧
    zeroFillConfig.segOverrun = .zeroFillDrop := by decide

theorem witness_AluAddAndSubtractWrap : defaultConfig.aluNoncanonical = .table := by decide

theorem witness_SetLessSettingsAgreeOnEqualTopBits :
    signedConfig.aluSltSigned = true ∧ defaultConfig.aluSltSigned = false := by decide

theorem witness_ContestedAluCodesFollowTheirParameter :
    otherConfig.aluNoncanonical = .fault ∧ (alu otherConfig 3 5 0b0111).inv = true ∧
    defaultConfig.aluNoncanonical = .table := by decide

theorem witness_AluIntegerLaws : (0x7FFFFFFF : Word).getLsbD 31 = false := by decide

theorem witness_SetLessInstructionsWriteOneOrZero :
    (create defaultConfig [] []).cfg.aluSltSigned = false ∧ (create signedConfig [] []).cfg.aluSltSigned = true := by decide

theorem witness_MulSplitsTheFullProduct :
    let s := create signedConfig [(8, 0x7FFFFFFF), (9, 0x7FFFFFFF)] []
    s.cfg.mulSigned = true ∧ State.reset.cfg.mulSigned = false ∧ (s.reg 8).toNat < 2 ^ 31 ∧ (s.reg 9).toNat < 2 ^ 31 := by
  decide

theorem witness_DivAddiuSltiuAreLoggedNotExecuted :
    State.reset.cfg.unkFunctWritesRd = false ∧ (create otherConfig [] []).cfg.unkFunctWritesRd = true := by decide

theorem witness_LoadWordReadsFourBigEndianBytes_performed :
    let s := create defaultConfig [(10, 0x7FFFFFFC)] []
    Performed s.cfg (effectiveAddress (s.reg 10) 0) .word :=
  ⟨by decide, .inl (by decide)⟩

theorem witness_LoadWordReadsFourBigEndianBytes_performed_overrun :
    let s := create zeroFillConfig [(10, 0x7FFFFFFC)] []
    Performed s.cfg (effectiveAddress (s.reg 10) 1) .word ∧ overruns (effectiveAddress (s.reg 10) 1) .word = true :=
  ⟨⟨by decide, .inr (by decide)⟩, by decide⟩

theorem witness_LoadWordReadsFourBigEndianBytes_faulting :
    let s := create defaultConfig [(10, 0x00400000)] []
    FaultingAccess s.cfg (effectiveAddress (s.reg 10) 0xFFFF) .word :=
  .inl (by decide)

theorem witness_LoadWordReadsFourBigEndianBytes_faulting_overrun :
    let s := create otherConfig [(10, 0x004FFFFC)] []
    FaultingAccess s.cfg (effectiveAddress (s.reg 10) 1) .word :=
  .inr ⟨by decide, by decide⟩

theorem witness_LoadWordReadsFourBigEndianBytes_refused :
    let s := create defaultConfig [(10, 0x004FFFFC)] []
    RefusedAccess s.cfg (effectiveAddress (s.reg 10) 1) .word :=
  ⟨by decide, by decide, by decide⟩

theorem witness_ByteLoadsZeroExtend :
    mapped (effectiveAddress (State.reset.reg 29) 0xFFFF) = true ∧
    mapped (effectiveAddress (State.reset.reg 29) 0) = false := by decide

theorem witness_StoreWordWritesFourBigEndianBytes_performed :
    let s := create defaultConfig [(10, 0x100FFFFC)] [(0x100FFFF8, 0x01020304)]
    s.mem.wf = true ∧ Performed s.cfg (effectiveAddress (s.reg 10) 0) .word :=
  ⟨by decide, by decide, .inl (by decide)⟩

theorem witness_StoreWordWritesFourBigEndianBytes_performed_overrun :
    let s := create zeroFillConfig [(10, 0x100FFFFC)] []
    s.mem.wf = true ∧ Performed s.cfg (effectiveAddress (s.reg 10) 3) .word :=
  ⟨by decide, by decide, .inr (by decide)⟩

theorem witness_StoreWordWritesFourBigEndianBytes_faulting :
    State.reset.mem.wf = true ∧ FaultingAccess State.reset.cfg (effectiveAddress (State.reset.reg 29) 0) .word :=
  ⟨by decide, .inl (by decide)⟩

theorem witness_StoreWordWritesFourBigEndianBytes_refused :
    State.reset.mem.wf = true ∧ RefusedAccess State.reset.cfg (effectiveAddress (State.reset.reg 29) 0xFFFF) .word :=
  ⟨by decide, by decide, by decide, by decide⟩

theorem witness_StoreByteWritesOneByte :
    State.reset.mem.wf = true ∧ mapped (effectiveAddress (State.reset.reg 29) 0xFFFF) = true ∧
    mapped (effectiveAddress (State.reset.reg 29) 0) = false := by decide

theorem witness_BltzComparesTwoRegisters :
    State.reset.cfg.bltzSigned = false ∧ (create signedConfig [] []).cfg.bltzSigned = true := by decide

theorem witness_SyscallServices :
    (create defaultConfig [(2, 1)] []).reg 2 = 1 ∧ (create defaultConfig [(2, 10)] []).reg 2 = 10 ∧
    (create defaultConfig [(2, 11)] []).reg 2 = 11 ∧
    (let s := create defaultConfig [(2, 0x0001000A)] []
     s.reg 2 ≠ 1 ∧ s.reg 2 ≠ 10 ∧ s.reg 2 ≠ 11) := by decide

theorem witness_StepRunsTheDecodedInstruction :
    let s := ((create defaultConfig [] [(0x100FFFFC, 0x0C100004)]).setPc 0x100FFFFC)
    Performed s.cfg s.pc .word ∧ s.mem.read s.pc .word = 0x0C100004 ∧ (0x0C100004 : Word) ≠ 0 ∧
      decode s.cfg.encoding 0x0C100004 = .ok (.jal 0x100004) :=
  ⟨⟨by decide, .inl (by decide)⟩, by decide, by decide, by decide⟩

theorem witness_StepRunsTheDecodedInstruction_overrun :
    let s := ((create zeroFillConfig [] [(0x100FFFFC, 0x00003402)]).setPc 0x100FFFFE)
    Performed s.cfg s.pc .word ∧ s.mem.read s.pc .word = 0x34020000 ∧ (0x34020000 : Word) ≠ 0 ∧
      decode s.cfg.encoding 0x34020000 = .ok (.ori 0 2 0) :=
  ⟨⟨by decide, .inr (by decide)⟩, by decide, by decide, by decide⟩

theorem witness_ZeroWordHaltsBeforeDecoding :
    Performed State.reset.cfg State.reset.pc .word ∧ State.reset.mem.read State.reset.pc .word = 0 :=
  ⟨⟨by decide, .inl (by decide)⟩, by decide⟩

theorem witness_UnrecognisedWordIsLoggedAndSkipped_opcode :
    let s := machine otherConfig [] [] 0xFC000000
    Performed s.cfg s.pc .word ∧ s.mem.read s.pc .word = 0xFC000000 ∧ (0xFC000000 : Word) ≠ 0 ∧
      decode s.cfg.encoding 0xFC000000 = .error (.opcode 0x3F) ∧ (0xFC000000 : Word).extractLsb' 26 6 ≠ 0 :=
  ⟨⟨by decide, .inl (by decide)⟩, by decide, by decide, by decide, by decide⟩

theorem witness_UnrecognisedWordIsLoggedAndSkipped_funct :
    let s := machine defaultConfig [] [] 0x00000001
    Performed s.cfg s.pc .word ∧ s.mem.read s.pc .word = 1 ∧ (1 : Word) ≠ 0 ∧
      decode s.cfg.encoding 1 = .error (.funct 1) ∧ s.cfg.unkFunctWritesRd = false :=
  ⟨⟨by decide, .inl (by decide)⟩, by decide, by decide, by decide, by decide⟩

theorem witness_UnrecognisedWordIsLoggedAndSkipped_writes :
    let s := machine otherConfig [] [] 0x0000403F
    Performed s.cfg s.pc .word ∧ s.mem.read s.pc .word = 0x0000403F ∧ (0x0000403F : Word) ≠ 0 ∧
      decode s.cfg.encoding 0x0000403F = .error (.funct 0x3F) ∧ (0x0000403F : Word).extractLsb' 26 6 = 0 ∧
      s.cfg.unkFunctWritesRd = true :=
  ⟨⟨by decide, .inl (by decide)⟩, by decide, by decide, by decide, by decide, by decide⟩

theorem witness_InvalidFetchLogsTwoEvents :
    let s := State.reset.setPc 0xFFFFFFFC
    FaultingAccess s.cfg s.pc .word ∧ s.cfg.encoding = defaultEncoding :=
  ⟨.inl (by decide), by decide⟩

theorem witness_InvalidFetchLogsTwoEvents_overrun :
    let s := (create otherConfig [] []).setPc 0x004FFFFD
    FaultingAccess s.cfg s.pc .word ∧ s.cfg.encoding = defaultEncoding :=
  ⟨.inr ⟨by decide, by decide⟩, by decide⟩

theorem witness_StepLogsTheFetchedWordItself_div :
    let s := machine otherConfig [] [] 0x0109501A
    s.cfg.encoding.positionsWf = true ∧ Performed s.cfg s.pc .word ∧ s.mem.read s.pc .word = 0x0109501A ∧
      (0x0109501A : Word) ≠ 0 ∧ decode s.cfg.encoding 0x0109501A = .ok (.div 8 9 10 0) ∧
      s.cfg.unkFunctWritesRd = true :=
  ⟨by decide, ⟨by decide, .inl (by decide)⟩, by decide, by decide, by decide, by decide⟩

theorem witness_StepLogsTheFetchedWordItself_div_leaves_rd :
    let s := machine defaultConfig [] [] 0x0109501A
    s.cfg.encoding.positionsWf = true ∧ Performed s.cfg s.pc .word ∧ s.mem.read s.pc .word = 0x0109501A ∧
      (0x0109501A : Word) ≠ 0 ∧ decode s.cfg.encoding 0x0109501A = .ok (.div 8 9 10 0) ∧
      s.cfg.unkFunctWritesRd = false :=
  ⟨by decide, ⟨by decide, .inl (by decide)⟩, by decide, by decide, by decide, by decide⟩

theorem witness_StepLogsTheFetchedWordItself_addiu :
    let s := machine defaultConfig [] [] 0x2528FFFF
    s.cfg.encoding.positionsWf = true ∧ Performed s.cfg s.pc .word ∧ s.mem.read s.pc .word = 0x2528FFFF ∧
      (0x2528FFFF : Word) ≠ 0 ∧ decode s.cfg.encoding 0x2528FFFF = .ok (.addiu 9 8 0xFFFF) :=
  ⟨by decide, ⟨by decide, .inl (by decide)⟩, by decide, by decide, by decide⟩

theorem witness_StepLogsTheFetchedWordItself_sltiu :
    let s := machine defaultConfig [] [] 0x2D28FFFF
    s.cfg.encoding.positionsWf = true ∧ Performed s.cfg s.pc .word ∧ s.mem.read s.pc .word = 0x2D28FFFF ∧
      (0x2D28FFFF : Word) ≠ 0 ∧ decode s.cfg.encoding 0x2D28FFFF = .ok (.sltiu 9 8 0xFFFF) :=
  ⟨by decide, ⟨by decide, .inl (by decide)⟩, by decide, by decide, by decide⟩

theorem witness_HaltConditionsAreExactlyTwo_zeroWord :
    ∃ t, step State.reset = .next t ∧ t.outcome = .halt .zeroWord :=
  ⟨_, rfl, by decide⟩

theorem witness_HaltConditionsAreExactlyTwo_syscall :
    ∃ t, step (machine defaultConfig [(2, 10)] [] 0x0000000C) = .next t ∧ t.outcome = .halt .syscall10 :=
  ⟨_, rfl, by decide⟩

theorem witness_HaltConditionsAreExactlyTwo_continue :
    ∃ t, step (State.reset.setPc 0) = .next t ∧ t.outcome = .cont ∧ t.sink.error.length = 2 :=
  ⟨_, rfl, by decide, by decide⟩

theorem witness_StepStopsOnlyOnARefusedOverrun :
    (create otherConfig [] []).cfg.segOverrun ≠ .refuse ∧ (create zeroFillConfig [] []).cfg.segOverrun ≠ .refuse := by decide

theorem witness_OnlyTheDestinationRegisterChanges :
    ∃ t, exec (.add 8 9 10 0) (create defaultConfig [(8, 5), (9, 7)] []) = .next t ∧
      destination State.reset.cfg (.add 8 9 10 0) ≠ some 0 ∧ t.reg 10 = 12 :=
  ⟨_, rfl, by decide, by decide⟩

theorem witness_OnlyMulWritesHiAndLo :
    ∃ t, exec (.mul 8 9 0 0) (create defaultConfig [(8, 6), (9, 7)] []) = .next t ∧
      (t.hi ≠ State.reset.hi ∨ t.lo ≠ State.reset.lo) :=
  ⟨_, rfl, by decide⟩

theorem witness_OnlyControlTransfersMovePc_exec :
    ∃ t, exec (.beq 0 0 0xFFFF) State.reset = .next t ∧ t.pc ≠ State.reset.pc :=
  ⟨_, rfl, by decide⟩

theorem witness_OnlyControlTransfersMovePc_step :
    ∃ t, step (machine defaultConfig [] [] 0x08100008) = .next t ∧
      t.pc ≠ (machine defaultConfig [] [] 0x08100008).pc + 4 :=
  ⟨_, rfl, by decide⟩

theorem witness_OnlyStoresWriteMemory_sb :
    let s := create defaultConfig [(8, 0x99), (9, 0x100FFFFF)] []
    s.mem.wf = true ∧ ∃ t, exec (.sb 9 8 0) s = .next t ∧ t.mem.byte 0x100FFFFF ≠ s.mem.byte 0x100FFFFF :=
  ⟨by decide, _, rfl, by decide⟩

theorem witness_OnlyStoresWriteMemory_sw :
    let s := create defaultConfig [(16, 5)] []
    s.mem.wf = true ∧ ∃ t, exec (.sw 29 16 0xFFFC) s = .next t ∧ t.mem.byte 0x7FFFFFFF ≠ s.mem.byte 0x7FFFFFFF :=
  ⟨by decide, _, rfl, by decide⟩

theorem witness_TheSinkIsAppendOnly :
    (∃ t, step (machine defaultConfig [(2, 11), (4, 0x41)] [] 0x0000000C) = .next t ∧ t.sink.normal.length = 1) ∧
    (∃ t, step (machine otherConfig [] [] 0x00000001) = .next t ∧ t.sink.error.length = 2) :=
  ⟨⟨_, rfl, by decide⟩, ⟨_, rfl, by decide⟩⟩

/-- A state that agrees with `s` in the registers, the memory and the configuration, and in nothing else. -/
def disturbed (s : State) : State :=
  { s.saveState with sink := ⟨[.printInt 1], [.unknownInstruction 1], [7]⟩, outcome := .halt .syscall10, freeIndex := 9 }

theorem witness_SinkSnapshotAndOutcomeNeverInfluenceExecution :
    let s := machine otherConfig [] [] 0x0109501A
    s.regs = (disturbed s).regs ∧ s.mem = (disturbed s).mem ∧ s.cfg = (disturbed s).cfg ∧ s ≠ disturbed s :=
  ⟨rfl, rfl, rfl, by decide⟩

theorem witness_EveryStepKeepsTheInvariant :
    let s := machine defaultConfig [(16, 5)] [] 0xAFB0FFFC
    s.Inv ∧ ∃ t, step s = .next t ∧ t.mem ≠ s.mem :=
  ⟨⟨by decide, by decide⟩, _, rfl, by decide⟩

theorem witness_HostOperationsKeepTheInvariant :
    State.reset.Inv ∧ (∃ v t, State.reset.hostGet .word 0x80000000 = .ok (v, t)) ∧
    (∃ t, State.reset.hostPut .half 0x100FFFFE 0xABCD = .ok t) ∧
    (∃ l t, State.reset.view 0x0FFFFFFC 0x10000004 = .ok (l, t)) ∧
    (∃ t, State.reset.boot 0x00400000 0x00400004 [0, 0x0000000C] = .ok t) :=
  ⟨⟨by decide, by decide⟩, ⟨_, _, rfl⟩, ⟨_, rfl⟩, ⟨_, _, rfl⟩, ⟨_, rfl⟩⟩

theorem witness_MoreFuelChangesNoHalt :
    ∃ t, run 2 (machine defaultConfig [(2, 5)] [] 0x0000000C) = .halted .zeroWord t :=
  ⟨_, rfl⟩

theorem witness_LoadThenStoreCopiesAWordForward :
    let s := create defaultConfig [(10, 0x100FFFF8)]
      [(0x00400000, 0x8D500000), (0x00400004, 0xAD500004), (0x100FFFF8, 0xCAFEBABE)]
    s.mem.wf = true ∧ s.cfg.encoding = defaultEncoding ∧ Performed s.cfg s.pc .word ∧
      Performed s.cfg (s.pc + 4) .word ∧ s.mem.read s.pc .word = 0x8D500000 ∧
      s.mem.read (s.pc + 4) .word = 0xAD500004 ∧ mapped (s.reg 10) = true ∧
      (offsetOf (s.reg 10)).toNat + 7 < 0x100000 :=
  ⟨by decide, by decide, ⟨by decide, .inl (by decide)⟩, ⟨by decide, .inl (by decide)⟩, by decide, by decide, by decide,
    by decide⟩

theorem witness_BootPlacesTheProgramAndJumps :
    mapped 0x7FFFFFF8 = true ∧
    (offsetOf 0x7FFFFFF8).toNat + 4 * ([0x3402000A, 0x0000000C] : List Word).length ≤ 0x100000 := by decide

theorem witness_ASafeRunLogsNoFaultInItsFirstStep :
    SafeRun 2 (machine defaultConfig [(2, 5)] [] 0x0000000C) :=
  ⟨.zeroWord, _, rfl, rfl⟩

end Sys2Proof.Tests
end

section
/-! The invariant under the host's operations (spec/00_scope.md R6, R9). First what an operation that succeeds did, said
once for each; then the invariant, operation by operation. -/

namespace Sys2Proof.Machine

/-! ### What a host operation did -/

/-- `set` writes the register the index names, or logs the index and changes no register (spec/10_state.md R25). -/
theorem State.hostSet_cases (s : State) (index value : Int) :
    ((0 ≤ index ∧ index < 32) ∧
      s.hostSet index value = s.setReg (BitVec.ofInt 5 index) (BitVec.ofInt 32 value)) ∨
    (¬(0 ≤ index ∧ index < 32) ∧ s.hostSet index value = s.logError (.regIndexInvalid index)) := by
  by_cases h : 0 ≤ index ∧ index < 32
  · exact .inl ⟨h, if_pos h⟩
  · exact .inr ⟨h, if_neg h⟩

/-- A view of at least one word that is not refused read its first word and then viewed the rest. -/
theorem State.viewFrom_succ_ok {count : Nat} {s t : State} {a : Word} {l : List (Word × Word)}
    (h : s.viewFrom a (count + 1) = .ok (l, t)) :
    ∃ v u rest, s.memRead a .word = .ok (v, u) ∧ u.viewFrom (a + 4) count = .ok (rest, t) ∧ l = (a, v) :: rest := by
  simp only [State.viewFrom] at h
  split at h
  case h_1 => cases h
  case h_2 v u hread =>
    split at h
    case h_1 => cases h
    case h_2 rest w hrest =>
      cases h
      exact ⟨v, u, rest, hread, hrest, rfl⟩

/-- Loading at least one word, not refused, wrote the first word and then loaded the rest. -/
theorem State.loadWords_cons_ok {s t : State} {base w : Word} {ws : List Word}
    (h : s.loadWords base (w :: ws) = .ok t) :
    ∃ u, s.hostPut .word base w = .ok u ∧ u.loadWords (base + 4) ws = .ok t := by
  simp only [State.loadWords] at h
  split at h
  case h_1 => cases h
  case h_2 u hput => exact ⟨u, hput, h⟩

/-- A boot that is not refused made both resets, loaded the program and jumped to the entry
(spec/70_reset_and_hazards.md R333). -/
theorem State.boot_ok {s t : State} {base entry : Word} {program : List Word}
    (h : s.boot base entry program = .ok t) :
    ∃ u, s.registerReset.memoryReset.loadWords base program = .ok u ∧ t = u.hostJump entry := by
  unfold State.boot at h
  split at h
  case h_1 => cases h
  case h_2 u hload =>
    cases h
    exact ⟨u, hload, rfl⟩

/-- A read leaves the configuration alone. -/
theorem State.memRead_cfg {s t : State} {a v : Word} {n : Width} (h : s.memRead a n = .ok (v, t)) :
    t.cfg = s.cfg := by
  rcases s.memRead_cases a n with ⟨-, e⟩ | ⟨-, e⟩ | ⟨-, e⟩ <;> rw [e] at h <;> cases h <;> rfl

/-- A write leaves the configuration alone. -/
theorem State.memWrite_cfg {s t : State} {a v : Word} {n : Width} (h : s.memWrite a n v = .ok t) :
    t.cfg = s.cfg := by
  rcases s.memWrite_cases a n v with ⟨-, e⟩ | ⟨-, e⟩ | ⟨-, e⟩ <;> rw [e] at h <;> cases h <;> rfl

/-! ### The invariant -/

/-- The invariant speaks of the memory and the configuration alone. -/
theorem State.Inv.of_mem_cfg {s t : State} (hs : s.Inv) (hmem : t.mem = s.mem) (hcfg : t.cfg = s.cfg) : t.Inv := by
  obtain ⟨hwf, hcfgWf⟩ := hs
  exact ⟨hmem ▸ hwf, hcfg ▸ hcfgWf⟩

section
variable {s t : State} (hs : s.Inv)
include hs

theorem State.Inv.hostSet (index value : Int) : (s.hostSet index value).Inv := by
  rcases s.hostSet_cases index value with ⟨-, e⟩ | ⟨-, e⟩ <;> rw [e]
  · exact hs.of_mem_cfg (s.setReg_mem _ _) (s.setReg_cfg _ _)
  · exact hs.of_mem_cfg (s.logError_mem _) (s.logError_cfg _)

theorem State.Inv.hostJump (a : Word) : (s.hostJump a).Inv :=
  hs.of_mem_cfg (s.setPc_mem a) (s.setPc_cfg a)

theorem State.Inv.registerReset : s.registerReset.Inv :=
  hs.of_mem_cfg rfl rfl

theorem State.Inv.memoryReset : s.memoryReset.Inv :=
  ⟨s.memoryReset_wf, hs.2⟩

theorem State.Inv.hostGet {n : Width} {a v : Word} (h : s.hostGet n a = .ok (v, t)) : t.Inv :=
  hs.of_mem_cfg (State.memRead_wf h) (State.memRead_cfg h)

theorem State.Inv.hostPut {n : Width} {a v : Word} (h : s.hostPut n a v = .ok t) : t.Inv := by
  obtain ⟨hwf, hcfgWf⟩ := hs
  exact ⟨State.hostPut_wf hwf h, State.memWrite_cfg h ▸ hcfgWf⟩

/-- By induction on the number of words: each is a read of its own. -/
theorem State.Inv.viewFrom {count : Nat} {a : Word} {l : List (Word × Word)} (h : s.viewFrom a count = .ok (l, t)) :
    t.Inv := by
  induction count generalizing s a l with
  | zero =>
    cases h
    exact hs
  | succ count ih =>
    obtain ⟨v, u, rest, hread, hrest, -⟩ := State.viewFrom_succ_ok h
    exact ih (hs.hostGet hread) hrest

/-- By induction on the program: each word is a write of its own. -/
theorem State.Inv.loadWords {ws : List Word} {base : Word} (h : s.loadWords base ws = .ok t) : t.Inv := by
  induction ws generalizing s base with
  | nil =>
    cases h
    exact hs
  | cons w ws ih =>
    obtain ⟨u, hput, hload⟩ := State.loadWords_cons_ok h
    exact ih (hs.hostPut hput) hload

theorem State.Inv.boot {base entry : Word} {program : List Word} (h : s.boot base entry program = .ok t) : t.Inv := by
  obtain ⟨u, hload, rfl⟩ := State.boot_ok h
  have hu : u.Inv := hs.registerReset.memoryReset.loadWords hload
  exact hu.hostJump entry

end

/-- Settles O56: one lemma per operation. The snapshot and the three clears touch neither the memory nor the
configuration. -/
theorem hostOperationsKeepTheInvariant : Obligations.HostOperationsKeepTheInvariant := by
  intro s hs
  exact ⟨hs.hostSet, hs.hostJump, hs.of_mem_cfg rfl rfl, hs.registerReset, hs.memoryReset,
    hs.of_mem_cfg rfl rfl, hs.of_mem_cfg rfl rfl, hs.of_mem_cfg rfl rfl,
    fun _ _ _ _ h => hs.hostGet h, fun _ _ _ _ h => hs.hostPut h,
    fun _ _ _ _ h => hs.viewFrom h, fun _ _ _ _ h => hs.boot h⟩

end Sys2Proof.Machine
end

section
/-! Two runs side by side (spec/10_state.md R31, R32, R34): what each operation does to two states that agree in the
registers, the memory, the configuration and the outcome. One rule per operation; the rules compose, so an instruction's
proof is the instruction's own text. -/

namespace Sys2Proof.Machine

/-- The engine's use of the ALU for any code: the value is written, and an invalid code is logged
(spec/40_alu.md R111, R123). -/
theorem State.aluTo_eq_setReg (s : State) (d : RegIx) (x y : Word) (code : AluCode) :
    s.aluTo d x y code =
      (if (alu s.cfg x y code).inv then s.logError (.aluInvalid code) else s).setReg d (alu s.cfg x y code).z := rfl

/-- From `s` and `u` two runs came to `t` and `v`: these agree in all that execution reads and in the outcome, and the
same prints and equally many errors were appended on both sides. The errors can differ only under
`UNK_FUNCT_WRITES_RD`, where one carries a free code (spec/41_engine_step.md R146). -/
structure InStep (s u t v : State) : Prop where
  regs : t.regs = v.regs
  mem : t.mem = v.mem
  cfg : t.cfg = v.cfg
  outcome : t.outcome = v.outcome
  startCfg : t.cfg = s.cfg
  normal : ∃ prints, t.sink.normal = s.sink.normal ++ prints ∧ v.sink.normal = u.sink.normal ++ prints
  error : ∃ ets evs, t.sink.error = s.sink.error ++ ets ∧ v.sink.error = u.sink.error ++ evs ∧
    ets.length = evs.length ∧ (s.cfg.unkFunctWritesRd = false → ets = evs)

/-- Two answers of the same kind: both refused for the same reason, or next states of runs in step. -/
inductive AnswersInStep (s u : State) : Result → Result → Prop where
  | refused (r : Refusal) : AnswersInStep s u (.refused r) (.refused r)
  | next {t v : State} (h : InStep s u t v) : AnswersInStep s u (.next t) (.next v)

/-- Beginning a step makes the two outcomes equal. -/
theorem InStep.beginStep {s u : State} (hregs : s.regs = u.regs) (hmem : s.mem = u.mem) (hcfg : s.cfg = u.cfg) :
    InStep s u s.beginStep u.beginStep :=
  ⟨hregs, hmem, hcfg, rfl, rfl, ⟨[], by simp⟩, ⟨[], [], by simp⟩⟩

namespace InStep

variable {s u t v : State} (h : InStep s u t v)
include h

/-! ### Reading -/

theorem reg (r : RegIx) : t.reg r = v.reg r := by
  simp only [State.reg, h.regs]

theorem pc : t.pc = v.pc := congrArg RegFile.pc h.regs

theorem hi : t.hi = v.hi := congrArg RegFile.hi h.regs

theorem lo : t.lo = v.lo := congrArg RegFile.lo h.regs

/-! ### Writing -/

theorem setReg (d : RegIx) (x : Word) : InStep s u (t.setReg d x) (v.setReg d x) :=
  { h with regs := congrArg (fun r : RegFile => { r with gpr := r.gpr.set d.toNat x d.isLt }) h.regs }

theorem setPc (x : Word) : InStep s u (t.setPc x) (v.setPc x) :=
  { h with regs := congrArg (fun r : RegFile => { r with pc := x }) h.regs }

theorem setHiLo (x y : Word) : InStep s u (t.setHiLo x y) (v.setHiLo x y) :=
  { h with regs := congrArg (fun r : RegFile => { r with hi := x, lo := y }) h.regs }

theorem setMem (m : Memory) : InStep s u (t.setMem m) (v.setMem m) :=
  { h with mem := rfl }

theorem haltWith (r : HaltReason) : InStep s u (t.haltWith r) (v.haltWith r) :=
  { h with outcome := rfl }

theorem emit (e : NormalEvent) : InStep s u (t.emit e) (v.emit e) := by
  obtain ⟨prints, ht, hv⟩ := h.normal
  exact { h with normal := ⟨prints ++ [e], by simp [ht], by simp [hv]⟩ }

/-- Both sides log one event; the two may differ only under `UNK_FUNCT_WRITES_RD`. -/
theorem logEither {e f : ErrorEvent} (hef : s.cfg.unkFunctWritesRd = false → e = f) :
    InStep s u (t.logError e) (v.logError f) := by
  obtain ⟨ets, evs, ht, hv, hlen, heq⟩ := h.error
  exact { h with error := ⟨ets ++ [e], evs ++ [f], by simp [ht], by simp [hv], by simp [hlen],
    fun hc => by rw [heq hc, hef hc]⟩ }

theorem logError (e : ErrorEvent) : InStep s u (t.logError e) (v.logError e) :=
  h.logEither fun _ => rfl

/-! ### The shared operations -/

theorem aluTo (d : RegIx) (code : AluCode) {x x' y y' : Word} (hx : x = x') (hy : y = y') :
    InStep s u (t.aluTo d x y code) (v.aluTo d x' y' code) := by
  subst hx hy
  rw [State.aluTo_eq_setReg, State.aluTo_eq_setReg, ← h.cfg]
  cases (alu t.cfg x y code).inv with
  | true => exact (h.logError _).setReg _ _
  | false => exact h.setReg _ _

theorem branchIf {taken taken' : Bool} (ht : taken = taken') (imm : Imm16) :
    InStep s u (t.branchIf taken imm) (v.branchIf taken' imm) := by
  subst ht
  unfold State.branchIf
  rw [← h.pc]
  cases taken with
  | true => exact h.setPc _
  | false => exact h

theorem unrecognised {w w' : Word} (hw : w = w') : InStep s u (t.unrecognised w) (v.unrecognised w') :=
  hw ▸ h.logError _

/-- The one place where a free value is logged: the parameter is true there. -/
theorem unrecognisedR {w w' : Word} {rd rd' : RegIx} (hw : w = w') (hrd : rd = rd') :
    InStep s u (t.unrecognisedR w rd) (v.unrecognisedR w' rd') := by
  subst hw hrd
  unfold State.unrecognisedR
  rw [← h.cfg]
  cases hc : t.cfg.unkFunctWritesRd with
  | true =>
    refine ((h.unrecognised rfl).logEither fun hf => ?_).setReg _ _
    rw [← h.startCfg, hc] at hf
    cases hf
  | false => exact h.unrecognised rfl

theorem loadTo (d : RegIx) (n : Width) {a a' : Word} (ha : a = a') :
    AnswersInStep s u (t.loadTo d a n) (v.loadTo d a' n) := by
  subst ha
  unfold State.loadTo State.memRead
  rw [← h.cfg, ← h.mem]
  cases answerOf t.cfg a n with
  | served => exact .next (h.setReg _ _)
  | addressFault => exact .next ((h.logError _).setReg _ _)
  | refused => exact .refused _

theorem storeTo (n : Width) {a a' x x' : Word} (ha : a = a') (hx : x = x') :
    AnswersInStep s u (t.storeTo a n x) (v.storeTo a' n x') := by
  subst ha hx
  unfold State.storeTo State.memWrite
  rw [← h.cfg, ← h.mem]
  cases answerOf t.cfg a n with
  | served => exact .next (h.setMem _)
  | addressFault => exact .next (h.logError _)
  | refused => exact .refused _

/-! ### Instructions -/

theorem syscall : AnswersInStep s u (execSyscall t) (execSyscall v) := by
  unfold execSyscall
  rw [← h.reg regV0, ← h.reg regA0]
  split
  case isTrue => exact .next (h.emit _)
  case isFalse =>
    split
    case isTrue => exact .next (h.haltWith _)
    case isFalse =>
      split
      case isTrue => exact .next (h.emit _)
      case isFalse => exact .next h

theorem mul (rs rt rd : RegIx) : AnswersInStep s u (execMul rs rt rd t) (execMul rs rt rd v) := by
  unfold execMul
  rw [← h.cfg, ← h.reg rs, ← h.reg rt]
  exact .next (h.setHiLo _ _)

/-- The effective address of a load or store is the same on both sides. -/
theorem effectiveAddress (rs : RegIx) (imm : Imm16) :
    effectiveAddress (t.reg rs) imm = effectiveAddress (v.reg rs) imm := by
  rw [h.reg rs]

/-- The word an unrecognised instruction logs is the same on both sides. -/
theorem encode (i : Instr) : encode t.cfg.encoding i = encode v.cfg.encoding i := by
  rw [h.cfg]

/-- Every instruction keeps two runs in step: one case per kind of operands and effect. -/
theorem exec (i : Instr) : AnswersInStep s u (exec i t) (exec i v) := by
  cases i
  case sll _ rt _ _ | srl _ rt _ _ | sra _ rt _ _ => exact .next (h.aluTo _ _ (h.reg rt) rfl)
  case add rs rt _ _ | sub rs rt _ _ | and rs rt _ _ | or rs rt _ _ | xor rs rt _ _ | nor rs rt _ _ | slt rs rt _ _ =>
    exact .next (h.aluTo _ _ (h.reg rs) (h.reg rt))
  case addi rs _ _ | slti rs _ _ | andi rs _ _ | ori rs _ _ | xori rs _ _ =>
    exact .next (h.aluTo _ _ (h.reg rs) rfl)
  case lui => exact .next (h.aluTo _ _ rfl rfl)
  case mfhi => exact .next (h.hi ▸ h.setReg _ _)
  case mflo => exact .next (h.lo ▸ h.setReg _ _)
  case mul rs rt rd _ => exact h.mul rs rt rd
  case div => exact .next (h.unrecognisedR (h.encode _) rfl)
  case addiu | sltiu => exact .next (h.unrecognised (h.encode _))
  case lb rs _ imm | lw rs _ imm | lbu rs _ imm => exact h.loadTo _ _ (h.effectiveAddress rs imm)
  case sb rs rt imm | sw rs rt imm => exact h.storeTo _ (h.effectiveAddress rs imm) (h.reg rt)
  case bltz rs rt _ => exact .next (h.branchIf (by rw [h.cfg, h.reg rs, h.reg rt]) _)
  case beq rs rt _ | bne rs rt _ => exact .next (h.branchIf (by rw [h.reg rs, h.reg rt]) _)
  case j => exact .next (h.pc ▸ h.setPc _)
  case jal => exact .next (h.pc ▸ (h.setReg _ _).setPc _)
  case jr rs _ _ _ => exact .next (h.reg rs ▸ h.setPc _)
  case syscall => exact h.syscall

theorem execUnrecognised (w : Word) : InStep s u (execUnrecognised w t) (execUnrecognised w v) := by
  unfold Machine.execUnrecognised
  rw [← h.cfg]
  split
  case isTrue => exact h.unrecognisedR rfl rfl
  case isFalse => exact h.unrecognised rfl

/-- Both fetches are refused for the same reason, or bring the same word. -/
theorem fetch : (∃ r, t.fetch = .error r ∧ v.fetch = .error r) ∨
    ∃ w t' v', t.fetch = .ok (w, t') ∧ v.fetch = .ok (w, v') ∧ InStep s u t' v' := by
  unfold State.fetch State.memRead
  rw [← h.cfg, ← h.mem, ← h.pc]
  cases answerOf t.cfg t.pc .word with
  | served => exact .inr ⟨_, _, _, rfl, rfl, h.pc ▸ h.setPc _⟩
  | addressFault => exact .inr ⟨_, _, _, rfl, rfl, h.pc ▸ (h.logError _).setPc _⟩
  | refused => exact .inl ⟨_, rfl, rfl⟩

end InStep

/-- States that agree in the registers, the memory and the configuration step alike. -/
theorem step_inStep {s u : State} (hregs : s.regs = u.regs) (hmem : s.mem = u.mem) (hcfg : s.cfg = u.cfg) :
    AnswersInStep s u (step s) (step u) := by
  unfold step
  rcases (InStep.beginStep hregs hmem hcfg).fetch with ⟨r, hs, hu⟩ | ⟨w, t, v, hs, hu, h⟩ <;> rw [hs, hu]
  · exact .refused r
  · dsimp only
    rw [← h.cfg]
    split
    case isTrue => exact .next (h.haltWith _)
    case isFalse =>
      cases decode t.cfg.encoding w with
      | ok i => exact h.exec i
      | error => exact .next (h.execUnrecognised w)

/-- Settles O53: both steps keep in step from their beginning. -/
theorem sinkSnapshotAndOutcomeNeverInfluenceExecution :
    Obligations.SinkSnapshotAndOutcomeNeverInfluenceExecution := by
  intro s u hregs hmem hcfg
  have answers := step_inStep hregs hmem hcfg
  generalize step s = a, step u = b at answers
  cases answers with
  | refused r => exact .inl ⟨r, rfl, rfl⟩
  | next h => exact .inr ⟨_, _, rfl, rfl, h.regs, h.mem, h.cfg, h.outcome, h.normal, h.error⟩

end Sys2Proof.Machine
end

section
/-! What an instruction leaves alone (spec/10_state.md R23, R27, R28, R31), said once for every instruction: the general
registers but its destination, `HI` and `LO`, `PC`, and the sink's events so far. The statements on registers and on
the sink are read off it. -/

namespace Sys2Proof.Machine

/-! ### The sink grows -/

/-- `b` is `a` with at most `prints` normal and at most `errors` error events appended, none of them the host's
`RegIndexInvalid`, and with the debug channel as it was. -/
structure Sink.Grows (prints errors : Nat) (a b : Sink) : Prop where
  normal : ∃ l, b.normal = a.normal ++ l ∧ l.length ≤ prints
  error : ∃ l, b.error = a.error ++ l ∧ l.length ≤ errors ∧ ∀ index, ErrorEvent.regIndexInvalid index ∉ l
  debug : b.debug = a.debug

theorem Sink.Grows.refl (p e : Nat) (a : Sink) : a.Grows p e a :=
  ⟨⟨[], by simp⟩, ⟨[], by simp⟩, rfl⟩

theorem Sink.Grows.trans {p q d e : Nat} {a b c : Sink} (hab : a.Grows p d b) (hbc : b.Grows q e c) :
    a.Grows (p + q) (d + e) c := by
  obtain ⟨⟨n, hn, hnp⟩, ⟨l, hl, hld, hlr⟩, hd⟩ := hab
  obtain ⟨⟨n', hn', hnq⟩, ⟨l', hl', hle, hlr'⟩, hd'⟩ := hbc
  refine ⟨⟨n ++ n', by simp [hn, hn'], ?_⟩, ⟨l ++ l', by simp [hl, hl'], ?_, ?_⟩, hd'.trans hd⟩
  · rw [List.length_append]; omega
  · rw [List.length_append]; omega
  · simp [hlr, hlr']

theorem Sink.Grows.mono {p q d e : Nat} {a b : Sink} (h : a.Grows p d b) (hp : p ≤ q) (he : d ≤ e) :
    a.Grows q e b := by
  obtain ⟨⟨n, hn, hnp⟩, ⟨l, hl, hld, hlr⟩, hd⟩ := h
  exact ⟨⟨n, hn, hnp.trans hp⟩, ⟨l, hl, hld.trans he, hlr⟩, hd⟩

theorem State.logError_grows (s : State) {ev : ErrorEvent} (h : ∀ index, ev ≠ .regIndexInvalid index) :
    s.sink.Grows 0 1 (s.logError ev).sink :=
  ⟨⟨[], by simp⟩, ⟨[ev], by simp [fun index => (h index).symm]⟩, rfl⟩

theorem State.emit_grows (s : State) (ev : NormalEvent) : s.sink.Grows 1 0 (s.emit ev).sink :=
  ⟨⟨[ev], by simp⟩, ⟨[], by simp⟩, rfl⟩

theorem State.unrecognised_grows (s : State) (w : Word) : s.sink.Grows 0 1 (s.unrecognised w).sink :=
  s.logError_grows (by simp)

theorem State.unrecognisedR_grows (s : State) (w : Word) (rd : RegIx) :
    s.sink.Grows 0 2 (s.unrecognisedR w rd).sink := by
  rcases s.unrecognisedR_cases w rd with ⟨-, e⟩ | ⟨-, e⟩ <;> rw [e]
  · exact (s.unrecognised_grows w).mono le_rfl (by decide)
  · exact (s.unrecognised_grows w).trans (State.logError_grows _ (by simp))

/-! ### One instruction -/

/-- The most events an instruction appends to the error channel: the unrecognised R-format path can log two
(spec/41_engine_step.md R146, R147). -/
def errorBound : Instr → Nat
  | .div _ _ _ _ => 2
  | _ => 1

/-- `t` differs from `s` in nothing that `i` may not write. -/
structure ExecFrame (i : Instr) (s t : State) : Prop where
  reg : ∀ r, destination s.cfg i ≠ some r → t.reg r = s.reg r
  hiLo : (∀ rs rt rd sh, i ≠ .mul rs rt rd sh) → t.hi = s.hi ∧ t.lo = s.lo
  pc : isControlTransfer i = false → t.pc = s.pc
  sink : s.sink.Grows 1 (errorBound i) t.sink

/-- Every instruction may log one event. -/
theorem errorBound_pos (i : Instr) : 1 ≤ errorBound i := by
  unfold errorBound
  split <;> decide

theorem errorBound_le (i : Instr) : errorBound i ≤ 2 := by
  unfold errorBound
  split <;> decide

namespace ExecFrame

variable {i : Instr} {s : State}

theorem refl (i : Instr) (s : State) : ExecFrame i s s :=
  ⟨fun _ _ => rfl, fun _ => ⟨rfl, rfl⟩, fun _ => rfl, .refl _ _ _⟩

theorem setReg {d : RegIx} (v : Word) (hd : destination s.cfg i = some d) : ExecFrame i s (s.setReg d v) := by
  refine { refl i s with reg := fun r hr => ?_ }
  have hne : r ≠ d := fun e => hr (e ▸ hd)
  simp [hne]

theorem aluTo {d : RegIx} {x y z : Word} {code : AluCode} (h : alu s.cfg x y code = ⟨z, false⟩)
    (hd : destination s.cfg i = some d) : ExecFrame i s (s.aluTo d x y code) :=
  State.aluTo_eq d h ▸ setReg z hd

theorem setPc (v : Word) (hc : isControlTransfer i = true) : ExecFrame i s (s.setPc v) :=
  { refl i s with pc := fun hf => absurd hf (by simp [hc]) }

theorem logError {ev : ErrorEvent} (h : ∀ index, ev ≠ .regIndexInvalid index) : ExecFrame i s (s.logError ev) :=
  { refl i s with sink := (s.logError_grows h).mono (by decide) (errorBound_pos i) }

theorem loadTo {t : State} {d : RegIx} {a : Word} {n : Width} (h : s.loadTo d a n = .next t)
    (hd : destination s.cfg i = some d) : ExecFrame i s t := by
  rcases s.loadTo_cases d a n with ⟨-, e⟩ | ⟨-, e⟩ | ⟨-, e⟩ <;> rw [e] at h <;> cases h
  · exact setReg _ hd
  · exact { setReg sentinel hd with sink := (logError (i := i) (s := s) (by simp)).sink }

theorem storeTo {t : State} {a v : Word} {n : Width} (h : s.storeTo a n v = .next t) : ExecFrame i s t := by
  rcases s.storeTo_cases a n v with ⟨-, e⟩ | ⟨-, e⟩ | ⟨-, e⟩ <;> rw [e] at h <;> cases h
  · exact { refl i s with }
  · exact logError (by simp)

theorem branchIf (taken : Bool) (imm : Imm16) (hc : isControlTransfer i = true) :
    ExecFrame i s (s.branchIf taken imm) := by
  rcases s.branchIf_cases taken imm with ⟨-, e⟩ | ⟨-, e⟩ <;> rw [e]
  · exact setPc _ hc
  · exact refl i s

theorem mul (rs rt rd : RegIx) (sh : Shamt) (h l : Word) : ExecFrame (.mul rs rt rd sh) s (s.setHiLo h l) :=
  { refl _ s with hiLo := fun hne => absurd rfl (hne rs rt rd sh) }

theorem div (rs rt rd : RegIx) (sh : Shamt) (w : Word) : ExecFrame (.div rs rt rd sh) s (s.unrecognisedR w rd) := by
  have hsink := (s.unrecognisedR_grows w rd).mono zero_le_one le_rfl
  rcases s.unrecognisedR_cases w rd with ⟨-, e⟩ | ⟨hc, e⟩
  · exact e ▸ logError (by simp)
  · rw [e] at hsink ⊢
    exact { setReg (i := .div rs rt rd sh) (s := s) sentinel (by simp [destination, hc]) with sink := hsink }

theorem jal (target : Target) (v : Word) : ExecFrame (.jal target) s ((s.setReg regRa s.pc).setPc v) :=
  { setReg (i := .jal target) (s := s) s.pc rfl with pc := fun h => nomatch h }

theorem syscall {t : State} (h : execSyscall s = .next t) : ExecFrame i s t := by
  unfold execSyscall at h
  repeat' split at h
  all_goals cases h
  · exact { refl i s with sink := (s.emit_grows _).mono le_rfl (Nat.zero_le _) }
  · exact { refl i s with }
  · exact { refl i s with sink := (s.emit_grows _).mono le_rfl (Nat.zero_le _) }
  · exact refl i s

end ExecFrame

/-- Every instruction stays within its frame. -/
theorem exec_frame {i : Instr} {s t : State} (h : exec i s = .next t) : ExecFrame i s t := by
  cases i
  case sll | lui => cases h; exact .aluTo (alu_sll _ _ _) rfl
  case srl => cases h; exact .aluTo (alu_srl _ _ _) rfl
  case sra => cases h; exact .aluTo (alu_sra _ _ _) rfl
  case add | addi => cases h; exact .aluTo (alu_add _ _ _) rfl
  case sub => cases h; exact .aluTo (alu_sub _ _ _) rfl
  case and | andi => cases h; exact .aluTo (alu_and _ _ _) rfl
  case or | ori => cases h; exact .aluTo (alu_or _ _ _) rfl
  case xor | xori => cases h; exact .aluTo (alu_xor _ _ _) rfl
  case nor => cases h; exact .aluTo (alu_nor _ _ _) rfl
  case slt | slti => cases h; exact .aluTo (alu_slt _ _ _) rfl
  case mfhi | mflo => cases h; exact .setReg _ rfl
  case mul => cases h; exact .mul _ _ _ _ _ _
  case div => cases h; exact .div _ _ _ _ _
  case addiu | sltiu => cases h; exact .logError (by simp)
  case lb | lw | lbu => exact .loadTo h rfl
  case sb | sw => exact .storeTo h
  case bltz | beq | bne => cases h; exact .branchIf _ _ rfl
  case jr | j => cases h; exact .setPc _ rfl
  case jal => cases h; exact .jal _ _
  case syscall => exact .syscall h

/-- Settles O48: the registers of the frame. -/
theorem onlyTheDestinationRegisterChanges : Obligations.OnlyTheDestinationRegisterChanges :=
  fun _ _ _ r h hr => (exec_frame h).reg r hr

/-- Settles O49: `HI` and `LO` of the frame, read backwards. -/
theorem onlyMulWritesHiAndLo : Obligations.OnlyMulWritesHiAndLo := by
  intro i s t h hne
  by_contra hmul
  obtain ⟨hhi, hlo⟩ := (exec_frame h).hiLo fun rs rt rd sh e => hmul ⟨rs, rt, rd, sh, e⟩
  exact hne.elim (fun hn => hn hhi) (fun hn => hn hlo)

/-! ### One step -/

/-- What a fetch leaves: `PC` advanced, the configuration as it was. -/
theorem State.fetch_pc_cfg {s t : State} {w : Word} (h : s.fetch = .ok (w, t)) : t.pc = s.pc + 4 ∧ t.cfg = s.cfg := by
  rcases s.fetch_cases with ⟨-, e⟩ | ⟨-, e⟩ | ⟨-, e⟩ <;> rw [e] at h <;> cases h <;> exact ⟨rfl, rfl⟩

/-- A fetch that logs brings the sentinel, which has a non-zero opcode (spec/20_memory.md R56). -/
theorem State.fetch_grows {s t : State} {w : Word} (h : s.fetch = .ok (w, t)) :
    s.sink.Grows 0 0 t.sink ∨ (s.sink.Grows 0 1 t.sink ∧ w = sentinel) := by
  rcases s.fetch_cases with ⟨-, e⟩ | ⟨-, e⟩ | ⟨-, e⟩ <;> rw [e] at h <;> cases h
  · exact .inl (.refl _ _ _)
  · exact .inr ⟨s.logError_grows (by simp), rfl⟩

/-- Beginning a step changes nothing that the fetch reads. -/
theorem State.beginStep_fetchedWord (s : State) : s.beginStep.fetchedWord = s.fetchedWord := by
  simp only [State.fetchedWord, State.fetch, State.memRead, State.beginStep_cfg, State.beginStep_pc,
    State.beginStep_mem]
  cases answerOf s.cfg s.pc .word <;> rfl

theorem State.fetchedWord_of_fetch {s t : State} {w : Word} (h : s.fetch = .ok (w, t)) : s.fetchedWord = some w := by
  simp only [State.fetchedWord, h]

theorem execUnrecognised_pc (w : Word) (s : State) : (execUnrecognised w s).pc = s.pc := by
  unfold execUnrecognised
  split
  · rcases s.unrecognisedR_cases w (fieldsOf s.cfg.encoding w).rd with ⟨-, e⟩ | ⟨-, e⟩ <;> rw [e] <;> rfl
  · rfl

/-- Settles O50: the `PC` of the frame, and the `PC` the fetch left. -/
theorem onlyControlTransfersMovePc : Obligations.OnlyControlTransfersMovePc := by
  have hexec {i : Instr} {s t : State} (h : exec i s = .next t) (hpc : t.pc ≠ s.pc) : isControlTransfer i = true := by
    by_contra hc
    exact hpc ((exec_frame h).pc (by simpa using hc))
  refine ⟨fun _ _ _ => hexec, fun s t h hpc => ?_⟩
  obtain ⟨w, u, hfetch, hrest⟩ := step_cases h
  obtain ⟨hu, hcfg⟩ := State.fetch_pc_cfg hfetch
  have hmoved : t.pc ≠ u.pc := fun e => hpc (e.trans hu)
  have hword : s.fetchedWord = some w := s.beginStep_fetchedWord ▸ State.fetchedWord_of_fetch hfetch
  rcases hrest with ⟨-, rfl⟩ | ⟨-, i, hdecode, hi⟩ | ⟨-, -, -, rfl⟩
  · exact absurd (u.haltWith_pc _) hmoved
  · exact ⟨w, i, hword, by rwa [hcfg] at hdecode, hexec hi hmoved⟩
  · exact absurd (execUnrecognised_pc w u) hmoved

/-- The most events the engine appends to the error channel after it fetched the word: two for an R-format word. -/
def wordErrorBound (w : Word) : Nat :=
  if w.extractLsb' 26 6 = 0 then 2 else 1

theorem wordErrorBound_le (w : Word) : wordErrorBound w ≤ 2 := by
  unfold wordErrorBound
  split <;> decide

/-- What a word can decode to, by its opcode (spec/30_encoding.md R92). -/
theorem decode_ok_cases {e : Encoding} {w : Word} {i : Instr} (h : decode e w = .ok i) :
    (w.extractLsb' 26 6 = 0 ∧ ∃ o, i = instrOfFunct (fieldsOf e w) o) ∨
    (w.extractLsb' 26 6 ≠ 0 ∧ ∃ o, i = instrOfPrimary (fieldsOf e w) o) := by
  simp only [decode] at h
  split at h
  case isTrue hop =>
    split at h
    case h_1 o _ => cases h; exact .inl ⟨hop, o, rfl⟩
    case h_2 => cases h
  case isFalse hop =>
    split at h
    case h_1 o _ => cases h; exact .inr ⟨hop, o, rfl⟩
    case h_2 => cases h

/-- Only R-format words decode to the instruction that can log two events. -/
theorem errorBound_of_decode {e : Encoding} {w : Word} {i : Instr} (h : decode e w = .ok i) :
    errorBound i ≤ wordErrorBound w := by
  rcases decode_ok_cases h with ⟨hop, o, rfl⟩ | ⟨hop, o, rfl⟩
  · rw [wordErrorBound, if_pos hop]
    exact errorBound_le _
  · rw [wordErrorBound, if_neg hop]
    cases o <;> exact le_rfl

theorem execUnrecognised_grows (w : Word) (s : State) :
    s.sink.Grows 0 (wordErrorBound w) (execUnrecognised w s).sink := by
  unfold execUnrecognised wordErrorBound
  split
  case isTrue hop => exact if_pos hop ▸ s.unrecognisedR_grows w _
  case isFalse hop => exact if_neg hop ▸ s.unrecognised_grows w

/-- One step appends at most one print and two errors to the sink it began with: a fetch that logs leaves room for one
event only, and its word is no R-format word. -/
theorem step_grows {s t : State} (h : step s = .next t) : s.beginStep.sink.Grows 1 2 t.sink := by
  obtain ⟨w, u, hfetch, hrest⟩ := step_cases h
  have hafter : u.sink.Grows 1 (wordErrorBound w) t.sink := by
    rcases hrest with ⟨-, rfl⟩ | ⟨-, i, hdecode, hi⟩ | ⟨-, -, -, rfl⟩
    · exact .refl _ _ _
    · exact (exec_frame hi).sink.mono le_rfl (errorBound_of_decode hdecode)
    · exact (execUnrecognised_grows w u).mono zero_le_one le_rfl
  rcases State.fetch_grows hfetch with hquiet | ⟨hlogs, rfl⟩
  · exact (hquiet.trans hafter).mono le_rfl (by simpa using wordErrorBound_le w)
  · exact hlogs.trans hafter

/-- Settles O52: beginning a step appends its mark, and the step appends the events. -/
theorem theSinkIsAppendOnly : Obligations.TheSinkIsAppendOnly := by
  intro s t h
  obtain ⟨hnormal, herror, hdebug⟩ := step_grows h
  exact ⟨hnormal, herror, hdebug⟩

end Sys2Proof.Machine
end

section
/-! The Register File between steps (spec/10_state.md R25, R32, R33, R36, R37): the host's `set`, the snapshot and its
comparison, and the two resets. -/

namespace Sys2Proof.Machine

/-! ### `set` -/

/-- Writing a register writes that register only. -/
theorem State.setReg_writesReg (s : State) (d : RegIx) (v : Word) : WritesReg s (s.setReg d v) d v :=
  ⟨s.setReg_reg d v, rfl, rfl, rfl, fun _ => rfl, rfl, rfl, rfl, rfl, rfl⟩

/-- Logging an event logs only. -/
theorem State.logError_onlyLogs (s : State) (e : ErrorEvent) : OnlyLogs s (s.logError e) [e] :=
  ⟨fun _ => rfl, rfl, rfl, rfl, fun _ => rfl, rfl, rfl, rfl, rfl, rfl⟩

/-- A step brings no `RegIndexInvalid` into the error channel (R25). -/
theorem step_regIndexInvalid {s t : State} {index : Int} (h : step s = .next t)
    (ht : ErrorEvent.regIndexInvalid index ∈ t.sink.error) : ErrorEvent.regIndexInvalid index ∈ s.sink.error := by
  obtain ⟨events, hevents, -, hnone⟩ := (step_grows h).error
  rw [hevents, List.mem_append] at ht
  exact ht.resolve_right (hnone index)

/-- Settles O11: the value's low 32 bits are those of its residue. -/
theorem hostSetWritesOrLogs : Obligations.HostSetWritesOrLogs := by
  refine ⟨fun s index value => ?_, fun _ _ _ => step_regIndexInvalid⟩
  have hvalue : BitVec.ofInt 32 (value % 2 ^ 32) = BitVec.ofInt 32 value := by
    apply BitVec.eq_of_toInt_eq
    rw [BitVec.toInt_ofInt, BitVec.toInt_ofInt]
    exact Int.emod_bmod value (2 ^ 32)
  rcases s.hostSet_cases index value with ⟨hin, e⟩ | ⟨hout, e⟩ <;> rw [e]
  · exact ⟨fun _ _ => hvalue ▸ s.setReg_writesReg _ _, fun hout => absurd hin hout⟩
  · exact ⟨fun h0 h32 => absurd ⟨h0, h32⟩ hout, fun _ => s.logError_onlyLogs _⟩

/-! ### The snapshot -/

/-- The entries of two views of the registers, side by side: one pair per register, under one name. -/
theorem mem_entries_zip {names : List Text} {xs ys : Vector Word 32} {p : (Text × Word) × (Text × Word)} :
    p ∈ (names.zip xs.toList).zip (names.zip ys.toList) ↔
      ∃ i : RegIx, names[i.toNat]? = some p.1.1 ∧ p.2.1 = p.1.1 ∧
        xs[i.toNat]'i.isLt = p.1.2 ∧ ys[i.toNat]'i.isLt = p.2.2 := by
  simp only [List.mem_iff_getElem?, List.getElem?_zip_eq_some, Vector.getElem?_toList, Vector.getElem?_eq_some_iff]
  constructor
  · rintro ⟨k, ⟨hn, hk, hx⟩, hn', _, hy⟩
    exact ⟨.ofFin ⟨k, hk⟩, hn, Option.some.inj (hn'.symm.trans hn), hx, hy⟩
  · rintro ⟨i, hn, hname, hx, hy⟩
    exact ⟨i.toNat, ⟨hn, i.isLt, hx⟩, hname ▸ hn, i.isLt, hy⟩

/-- The names under which two Register Files differ, for any table of names (R32, R33). -/
theorem mem_differingNames {names : List Text} {r t : RegFile} {name : Text} :
    name ∈ differingNames names r t ↔
      (r.pc ≠ t.pc ∧ ['P', 'C'] = name) ∨ (r.hi ≠ t.hi ∧ ['H', 'I'] = name) ∨ (r.lo ≠ t.lo ∧ ['L', 'O'] = name) ∨
      ∃ i : RegIx, names[i.toNat]? = some name ∧ r.gpr[i.toNat]'i.isLt ≠ t.gpr[i.toNat]'i.isLt := by
  simp [differingNames, namedEntries, mem_entries_zip]

/-- A Register File differs from itself under no name. -/
theorem differingNames_self (names : List Text) (r : RegFile) : differingNames names r r = [] :=
  List.eq_nil_iff_forall_not_mem.2 fun name => by simp [mem_differingNames]

theorem State.compareState_of_saved {s : State} {r : RegFile} (h : s.saved = some r) :
    s.compareState = differingNames s.cfg.regNames s.regs r := by
  simp only [State.compareState, h]

section
variable {c : Config} (h : c.wf = true)
include h

/-- The table of a well-formed configuration (R22). -/
theorem Config.regNames_wf :
    c.regNames.length = 32 ∧ c.regNames.Nodup ∧ ∀ name ∈ c.regNames, regNameWf name = true := by
  simp only [Config.wf, regNamesWf, Bool.and_eq_true, decide_eq_true_eq, List.all_eq_true] at h
  obtain ⟨-, ⟨hlen, hnodup⟩, hall⟩ := h
  exact ⟨hlen, hnodup, hall⟩

/-- A register's name stands in the table at its index and nowhere else. -/
theorem regNames_eq_regText_iff (k i : RegIx) : c.regNames[k.toNat]? = some (regText c.regNames i) ↔ k = i := by
  obtain ⟨hlen, hnodup, -⟩ := Config.regNames_wf h
  have hi : i.toNat < c.regNames.length := hlen ▸ i.isLt
  have hname : regText c.regNames i = c.regNames[i.toNat] := by simp [regText, hi]
  rw [hname, List.getElem?_eq_some_iff]
  constructor
  · rintro ⟨hk, e⟩
    exact BitVec.eq_of_toNat_eq (hnodup.getElem_inj_iff.1 e)
  · rintro rfl
    exact ⟨hi, rfl⟩

/-- A text that is no register name stands nowhere in the table. -/
theorem regNames_ne_of_not_regNameWf {name : Text} (hname : regNameWf name = false) (k : RegIx) :
    c.regNames[k.toNat]? ≠ some name := by
  intro e
  obtain ⟨-, -, hall⟩ := Config.regNames_wf h
  rw [hall name (List.mem_of_getElem? e)] at hname
  cases hname

/-- The names of `PC`, `HI` and `LO` hold capital letters, which no register name does. -/
theorem regNames_ne_special (k : RegIx) :
    c.regNames[k.toNat]? ≠ some ['P', 'C'] ∧ c.regNames[k.toNat]? ≠ some ['H', 'I'] ∧
      c.regNames[k.toNat]? ≠ some ['L', 'O'] :=
  ⟨regNames_ne_of_not_regNameWf h (by decide) k, regNames_ne_of_not_regNameWf h (by decide) k,
    regNames_ne_of_not_regNameWf h (by decide) k⟩

/-- A register's name is reported exactly if its two values differ: it is none of the three special names, and no other
register has it. -/
theorem regText_mem_differingNames (r t : RegFile) (i : RegIx) :
    regText c.regNames i ∈ differingNames c.regNames r t ↔ r.gpr[i.toNat]'i.isLt ≠ t.gpr[i.toNat]'i.isLt := by
  have hi := (regNames_eq_regText_iff h i i).2 rfl
  obtain ⟨hpc, hhi, hlo⟩ := regNames_ne_special h i
  rw [hi, ne_eq, Option.some_inj, eq_comm] at hpc hhi hlo
  simp [mem_differingNames, hpc, hhi, hlo, regNames_eq_regText_iff h]

end

/-- Settles O12: a saved state is compared with itself; after that, name by name. -/
theorem compareStateNamesExactlyTheDifferences : Obligations.CompareStateNamesExactlyTheDifferences := by
  refine ⟨fun s => ⟨rfl, rfl, rfl, rfl, ?_⟩, fun s hnone => by simp only [State.compareState, hnone],
    fun s r hwf hsaved => ?_⟩
  · exact differingNames_self s.cfg.regNames s.regs
  · rw [State.compareState_of_saved hsaved]
    exact ⟨by simp [mem_differingNames, regNames_ne_special hwf, State.pc],
      by simp [mem_differingNames, regNames_ne_special hwf, State.hi],
      by simp [mem_differingNames, regNames_ne_special hwf, State.lo],
      regText_mem_differingNames hwf s.regs r⟩

/-! ### The resets -/

/-- What every general register holds after `register.reset()` (R36). -/
theorem RegFile.reset_gpr (pc : Word) (r : RegIx) :
    (RegFile.reset pc).gpr[r.toNat]'r.isLt = if r = 29 then 0x80000000 else 0 := by
  have hindex : 29 = r.toNat ↔ r = 29 := by bv_omega
  simp [RegFile.reset, Vector.getElem_set, spReset, hindex]

/-- Settles O9: the registers and the bytes by their laws, the rest by evaluating the new machine. -/
theorem resetValues : Obligations.ResetValues :=
  ⟨RegFile.reset_gpr _, rfl, rfl, rfl, Memory.byte_nil, rfl, rfl, rfl, rfl, rfl, by decide, by decide, by decide⟩

/-- Settles O10: each reset replaces fields of its own and names no other. -/
theorem theTwoResetsAreSeparate : Obligations.TheTwoResetsAreSeparate :=
  fun _ => ⟨⟨RegFile.reset_gpr _, rfl, rfl, rfl, rfl, rfl, rfl, rfl⟩, Memory.byte_nil, rfl, rfl, rfl, rfl⟩

/-- Settles O55: the empty memory is canonical; the default configuration is a closed record. -/
theorem resetHasTheInvariant : Obligations.ResetHasTheInvariant :=
  ⟨Memory.wf_nil, by decide⟩

end Sys2Proof.Machine
end

section
/-! Memory (spec/20_memory.md R50 to R65): the invariant under a step, the address map in numbers, which access is
answered how, and the bytes of a sized access; from these the statements on segments, overruns and addressing faults. -/

namespace Sys2Proof.Machine

/-! ### What a step keeps -/

/-- A fetch leaves the snapshot alone. -/
theorem State.fetch_saved {s t : State} {w : Word} (h : s.fetch = .ok (w, t)) : t.saved = s.saved := by
  rcases s.fetch_cases with ⟨-, e⟩ | ⟨-, e⟩ | ⟨-, e⟩ <;> rw [e] at h <;> cases h <;> rfl

/-- A step that answers a next state fetched, and then halted on the zero word or changed the state in one of the
shapes (spec/41_engine_step.md R142). -/
theorem step_shape {s t : State} (h : step s = .next t) :
    ∃ w u, s.beginStep.fetch = .ok (w, u) ∧ (t = u.haltWith .zeroWord ∨ ExecShape u t) := by
  obtain ⟨w, u, hfetch, ⟨-, rfl⟩ | ⟨-, i, -, hi⟩ | ⟨-, e, -, rfl⟩⟩ := step_cases h
  · exact ⟨w, u, hfetch, .inl rfl⟩
  · exact ⟨w, u, hfetch, .inr (exec_shape hi)⟩
  · exact ⟨w, u, hfetch, .inr (execUnrecognised_shape w u)⟩

/-- Settles O54: the fetch keeps memory, configuration and snapshot; what follows it keeps the canonical form and the
other two. -/
theorem everyStepKeepsTheInvariant : Obligations.EveryStepKeepsTheInvariant := by
  intro s t ⟨hmem, hcfg⟩ h
  obtain ⟨w, u, hfetch, hafter⟩ := step_shape h
  have humem : u.mem.wf = true := State.fetch_wf hfetch ▸ hmem
  have hucfg : u.cfg = s.cfg := (State.fetch_pc_cfg hfetch).2
  have husaved : u.saved = s.saved := State.fetch_saved (s := s.beginStep) hfetch
  have ht : t.mem.wf = true ∧ t.cfg = u.cfg ∧ t.saved = u.saved := by
    rcases hafter with rfl | shape
    · exact ⟨humem, rfl, rfl⟩
    · obtain ⟨hc, hs, -⟩ := shape.apart
      exact ⟨shape.wf humem, hc, hs⟩
  obtain ⟨htmem, htcfg, htsaved⟩ := ht
  have htcfg' : t.cfg = s.cfg := htcfg.trans hucfg
  exact ⟨⟨htmem, htcfg' ▸ hcfg⟩, htcfg', htsaved.trans husaved⟩

/-! ### The address map in numbers -/

theorem selectorOf_toNat (a : Word) : (selectorOf a).toNat = a.toNat / 0x100000 := by
  have := a.isLt
  simp only [selectorOf, BitVec.extractLsb'_toNat, Nat.shiftRight_eq_div_pow]
  omega

theorem offsetOf_toNat (a : Word) : (offsetOf a).toNat = a.toNat % 0x100000 := by
  simp [offsetOf, BitVec.extractLsb'_toNat]

/-- The selector of a segment (R52). -/
def Segment.selector : Segment → BitVec 12
  | .program => selProgram
  | .data => selData
  | .stack => selStack

theorem translateAddr_eq_some_iff {a : Word} {g : Segment} :
    translateAddr a = some g ↔ selectorOf a = g.selector := by
  unfold translateAddr
  split_ifs with hp hd hs
  · rw [hp]; cases g <;> decide
  · rw [hd]; cases g <;> decide
  · rw [hs]; cases g <;> decide
  · cases g <;> simp [hp, hd, hs, Segment.selector]

/-- A segment's addresses are the 1 MiB from its selector on (R50, R52). -/
theorem translateAddr_eq_some_iff_range {a : Word} {g : Segment} :
    translateAddr a = some g ↔
      g.selector.toNat * 0x100000 ≤ a.toNat ∧ a.toNat ≤ g.selector.toNat * 0x100000 + 0xFFFFF := by
  rw [translateAddr_eq_some_iff, ← BitVec.toNat_inj, selectorOf_toNat]
  omega

/-- An address has no segment exactly if its selector is none of the three (R53). -/
theorem translateAddr_eq_none_iff {a : Word} :
    translateAddr a = none ↔ selectorOf a ≠ selProgram ∧ selectorOf a ≠ selData ∧ selectorOf a ≠ selStack := by
  rw [← Option.not_isSome_iff_eq_none, ← mapped, mapped_iff, not_or, not_or]

theorem mapped_eq_false_iff {a : Word} : mapped a = false ↔ translateAddr a = none := by
  simp [mapped]

/-- Every address is the one `(b - a).toNat` places after `a`. -/
theorem add_toNat_sub (a b : Word) : a + BitVec.ofNat 32 (b - a).toNat = b := by
  rw [BitVec.ofNat_toNat, BitVec.setWidth_eq, BitVec.add_comm, BitVec.sub_add_cancel]

/-- From an address in a segment on, addresses stay in that segment up to its last byte; the megabyte after it belongs
to no segment. -/
theorem translateAddr_add {a : Word} {k : Nat} (ha : mapped a = true) (hk : k ≤ 0x100000) :
    translateAddr (a + BitVec.ofNat 32 k) =
      if (offsetOf a).toNat + k < 0x100000 then translateAddr a else none := by
  obtain ⟨g, hg⟩ := translateAddr_isSome ha
  have hrange := translateAddr_eq_some_iff_range.1 hg
  have hsel : g.selector.toNat ≤ 0x7FF := by cases g <;> decide
  have hsum : (a + BitVec.ofNat 32 k).toNat = a.toNat + k := by
    rw [BitVec.toNat_add, BitVec.toNat_ofNat]
    omega
  rw [offsetOf_toNat, hg]
  split
  case isTrue hin =>
    rw [translateAddr_eq_some_iff_range, hsum]
    omega
  case isFalse hout =>
    rw [translateAddr_eq_none_iff]
    simp only [ne_eq, ← BitVec.toNat_inj, selectorOf_toNat, hsum]
    have hnext : (a.toNat + k) / 0x100000 = g.selector.toNat + 1 := by omega
    rw [hnext]
    cases g <;> decide

theorem mapped_add {a : Word} {k : Nat} (ha : mapped a = true) (hk : k ≤ 0x100000) :
    mapped (a + BitVec.ofNat 32 k) = true ↔ (offsetOf a).toNat + k < 0x100000 := by
  rw [mapped, translateAddr_add ha hk]
  split
  case isTrue hin => exact iff_of_true ha hin
  case isFalse hout => exact iff_of_false (by simp) hout

/-- Within a megabyte after an address in a segment, only that segment's bytes are mapped. -/
theorem translateAddr_eq_of_mapped {a b : Word} (ha : mapped a = true) (hb : mapped b = true)
    (hk : (b - a).toNat ≤ 0x100000) : translateAddr b = translateAddr a := by
  have hsum := add_toNat_sub a b
  have hstay := (mapped_add ha hk).1 (by rwa [hsum])
  have htranslate := translateAddr_add ha hk
  rwa [hsum, if_pos hstay] at htranslate

theorem offsetOf_add {a : Word} {k : Nat} (h : (offsetOf a).toNat + k < 0x100000) :
    (offsetOf (a + BitVec.ofNat 32 k)).toNat = (offsetOf a).toNat + k := by
  simp only [offsetOf_toNat, BitVec.toNat_add, BitVec.toNat_ofNat] at h ⊢
  omega

/-- The selectors that name no segment are all but three (R53). -/
theorem translateAddr_selector_eq_none_iff {k : Nat} (hk : k < 4096) :
    translateAddr (BitVec.ofNat 32 (k * 0x100000)) = none ↔ k ∉ ({0x004, 0x100, 0x7FF} : Finset Nat) := by
  have hsel : (selectorOf (BitVec.ofNat 32 (k * 0x100000))).toNat = k := by
    rw [selectorOf_toNat, BitVec.toNat_ofNat]
    omega
  rw [translateAddr_eq_none_iff]
  simp only [ne_eq, ← BitVec.toNat_inj, hsel]
  simp [selProgram, selData, selStack]

theorem invalid_selectors_length :
    ((List.range 4096).filter fun k => (translateAddr (BitVec.ofNat 32 (k * 0x100000))).isNone).length = 4093 := by
  have hfilter : ((List.range 4096).filter fun k => (translateAddr (BitVec.ofNat 32 (k * 0x100000))).isNone) =
      (List.range 4096).filter (· ∉ ({0x004, 0x100, 0x7FF} : Finset Nat)) :=
    List.filter_congr fun k hk => by
      rw [Bool.eq_iff_iff, Option.isNone_iff_eq_none, translateAddr_selector_eq_none_iff (List.mem_range.1 hk),
        decide_eq_true_iff]
  rw [hfilter]
  change (Finset.filter (· ∉ ({0x004, 0x100, 0x7FF} : Finset Nat)) (Finset.range 4096)).card = 4093
  rw [Finset.filter_notMem_eq_sdiff, Finset.card_sdiff_of_subset (by simp [Finset.insert_subset_iff])]
  simp

/-- Settles O13: the ranges are those of the three selectors. -/
theorem translationFollowsTheAddressMap : Obligations.TranslationFollowsTheAddressMap :=
  ⟨fun _ => ⟨translateAddr_eq_some_iff_range, translateAddr_eq_some_iff_range, translateAddr_eq_some_iff_range,
    translateAddr_eq_none_iff, fun _ _ h => by simp only [answerOf, h]⟩, invalid_selectors_length⟩

/-! ### Which access is answered how -/

theorem answerOf_eq_served_iff {c : Config} {a : Word} {n : Width} :
    answerOf c a n = .served ↔ Performed c a n := by
  rcases answerOf_cases c a n with h | h | h | h | h <;> simp [Performed, h]

theorem answerOf_eq_addressFault_iff {c : Config} {a : Word} {n : Width} :
    answerOf c a n = .addressFault ↔ FaultingAccess c a n := by
  rcases answerOf_cases c a n with h | h | h | h | h <;> simp [FaultingAccess, h]

theorem answerOf_eq_refused_iff {c : Config} {a : Word} {n : Width} :
    answerOf c a n = .refused ↔ RefusedAccess c a n := by
  rcases answerOf_cases c a n with h | h | h | h | h <;> simp [RefusedAccess, h]

section
variable {s : State} {a : Word} {n : Width}

theorem State.memRead_of_performed (h : Performed s.cfg a n) : s.memRead a n = .ok (s.mem.read a n, s) := by
  simp only [State.memRead, answerOf_eq_served_iff.2 h]

theorem State.memWrite_of_performed (h : Performed s.cfg a n) (v : Word) :
    s.memWrite a n v = .ok (s.setMem (s.mem.write a n v)) := by
  simp only [State.memWrite, answerOf_eq_served_iff.2 h]

/-- A faulting read logs and answers the sentinel whatever its size (R56). -/
theorem State.memRead_of_faulting (h : FaultingAccess s.cfg a n) :
    ∃ t, s.memRead a n = .ok (sentinel, t) ∧ OnlyLogs s t [.addressFault .read a n] :=
  ⟨_, by simp only [State.memRead, answerOf_eq_addressFault_iff.2 h], s.logError_onlyLogs _⟩

/-- A faulting write logs and stores nothing (R56). -/
theorem State.memWrite_of_faulting (h : FaultingAccess s.cfg a n) (v : Word) :
    ∃ t, s.memWrite a n v = .ok t ∧ OnlyLogs s t [.addressFault .write a n] :=
  ⟨_, by simp only [State.memWrite, answerOf_eq_addressFault_iff.2 h], s.logError_onlyLogs _⟩

theorem State.memRead_of_refused (h : RefusedAccess s.cfg a n) :
    s.memRead a n = .error (.segmentOverrun .read a n) := by
  simp only [State.memRead, answerOf_eq_refused_iff.2 h]

theorem State.memWrite_of_refused (h : RefusedAccess s.cfg a n) (v : Word) :
    s.memWrite a n v = .error (.segmentOverrun .write a n) := by
  simp only [State.memWrite, answerOf_eq_refused_iff.2 h]

end

/-- Settles O14: an address without a segment faults under every configuration. -/
theorem anAddressingFaultIsLoggedAndSubstituted : Obligations.AnAddressingFaultIsLoggedAndSubstituted := by
  intro s a v n h
  have hfault : FaultingAccess s.cfg a n := .inl (mapped_eq_false_iff.2 h)
  exact ⟨State.memRead_of_faulting hfault, State.memWrite_of_faulting hfault v⟩

/-! ### A fetch that faults -/

/-- The word a faulting fetch brings has opcode 0x3F, which the default record gives no operation
(spec/30_encoding.md R89). -/
theorem decode_sentinel : decode defaultEncoding sentinel = .error (.opcode 0x3F) := by decide

/-- A faulting fetch logs, brings the sentinel and advances `PC` (spec/41_engine_step.md R141). -/
theorem State.fetch_of_faulting {s : State} (h : FaultingAccess s.cfg s.pc .word) :
    s.fetch = .ok (sentinel, (s.logError (.addressFault .read s.pc .word)).setPc (s.pc + 4)) := by
  simp only [State.fetch, State.memRead, answerOf_eq_addressFault_iff.2 h, State.logError_pc]

/-- A faulting fetch is followed by the unrecognised path (spec/20_memory.md R56, spec/41_engine_step.md R146). -/
theorem step_of_faulting_fetch {s : State} (h : FaultingAccess s.cfg s.pc .word)
    (henc : s.cfg.encoding = defaultEncoding) :
    step s = .next (((s.beginStep.logError (.addressFault .read s.pc .word)).setPc (s.pc + 4)).logError
      (.unknownInstruction sentinel)) := by
  have hfetch := State.fetch_of_faulting (s := s.beginStep) h
  have hnonzero : isZeroWord sentinel = false := by decide
  have hopcode : (fieldsOf defaultEncoding sentinel).opcode ≠ 0 := by decide
  simp only [step, hfetch, hnonzero, State.setPc_cfg, State.logError_cfg, State.beginStep_cfg, State.beginStep_pc,
    henc, decode_sentinel, execUnrecognised, if_neg hopcode, State.unrecognised, Bool.false_eq_true, if_false]

/-- Settles O44: the two events stand in the order they were logged; nothing else was touched. -/
theorem invalidFetchLogsTwoEvents : Obligations.InvalidFetchLogsTwoEvents := by
  intro s h henc
  refine ⟨_, step_of_faulting_fetch h henc, fun _ => rfl, rfl, rfl, rfl, fun _ => rfl, ?_, rfl, rfl, rfl, rfl⟩
  simp [sentinel]

/-! ### The bytes of a sized access -/

/-- Byte `k` of a value of width `n`, counted in address order: the most significant comes first (R57). -/
def byteOfValue (n : Width) (v : Word) (k : Nat) : Byte :=
  v.extractLsb' (8 * (n.bytes - 1 - k)) 8

theorem Width.bytes_pos (n : Width) : 0 < n.bytes := by cases n <;> decide

theorem Width.bytes_le (n : Width) : n.bytes ≤ 4 := by cases n <;> decide

@[simp] theorem bytesOf_length (n : Width) (v : Word) : (bytesOf n v).length = n.bytes := by cases n <;> rfl

theorem getElem_bytesOf (n : Width) (v : Word) (k : Nat) (hk : k < (bytesOf n v).length) :
    (bytesOf n v)[k] = byteOfValue n v k := by
  have hk' : k < n.bytes := bytesOf_length n v ▸ hk
  cases n <;> simp only [Width.bytes] at hk' <;> interval_cases k <;> rfl

/-! The served reads of `Memory.read_byte`, `Memory.read_half` and `Memory.read_word`, with each address written as the
first one plus a number. -/

theorem Memory.read_byte_numbered (m : Memory) (a : Word) :
    m.read a .byte = (m.byte (a + BitVec.ofNat 32 0)).setWidth 32 := by
  rw [Memory.read_byte, BitVec.add_zero]

theorem Memory.read_half_numbered (m : Memory) (a : Word) :
    m.read a .half = (m.byte (a + BitVec.ofNat 32 0) ++ m.byte (a + BitVec.ofNat 32 1)).setWidth 32 := by
  rw [Memory.read_half, BitVec.add_zero]
  rfl

theorem Memory.read_word_numbered (m : Memory) (a : Word) :
    m.read a .word = m.byte (a + BitVec.ofNat 32 0) ++ m.byte (a + BitVec.ofNat 32 1) ++
      m.byte (a + BitVec.ofNat 32 2) ++ m.byte (a + BitVec.ofNat 32 3) := by
  rw [Memory.read_word, BitVec.add_zero, BitVec.add_assoc, BitVec.add_assoc]
  rfl

/-- Dropping the byte at the lowest place shifts the places of the others. -/
theorem extractLsb'_append_byte {w : Nat} (x : BitVec w) (y : Byte) (k : Nat) :
    (x ++ y).extractLsb' (8 * (k + 1)) 8 = x.extractLsb' (8 * k) 8 := by
  rw [BitVec.extractLsb'_append_eq_of_le (by omega), Nat.mul_add, Nat.mul_one, Nat.add_sub_cancel]

/-- The bytes of a served read are those of its addresses (R57, R58). -/
theorem byteOfValue_read (m : Memory) (a : Word) (n : Width) {k : Nat} (hk : k < n.bytes) :
    byteOfValue n (m.read a n) k = m.byte (a + BitVec.ofNat 32 k) := by
  unfold byteOfValue
  cases n <;> simp only [Width.bytes] at hk ⊢
  case byte =>
    rw [Memory.read_byte_numbered, BitVec.extractLsb'_setWidth_of_le (by omega)]
    interval_cases k
    exact BitVec.extractLsb'_eq_self
  case half =>
    rw [Memory.read_half_numbered, BitVec.extractLsb'_setWidth_of_le (by omega)]
    interval_cases k
    · exact (extractLsb'_append_byte _ _ 0).trans BitVec.extractLsb'_eq_self
    · exact BitVec.extractLsb'_append_eq_right
  case word =>
    rw [Memory.read_word_numbered]
    interval_cases k
    · exact (extractLsb'_append_byte _ _ 2).trans <| (extractLsb'_append_byte _ _ 1).trans <|
        (extractLsb'_append_byte _ _ 0).trans BitVec.extractLsb'_eq_self
    · exact (extractLsb'_append_byte _ _ 1).trans <|
        (extractLsb'_append_byte _ _ 0).trans BitVec.extractLsb'_append_eq_right
    · exact (extractLsb'_append_byte _ _ 0).trans BitVec.extractLsb'_append_eq_right
    · exact BitVec.extractLsb'_append_eq_right

/-- A part of a value and the byte below it are one part. -/
theorem extractLsb'_append_next (v : Word) (low k len : Nat) :
    v.extractLsb' (8 * (low + (k + 1))) len ++ v.extractLsb' (8 * (low + k)) 8 =
      v.extractLsb' (8 * (low + k)) (len + 8) :=
  BitVec.extractLsb'_append_extractLsb'_eq_extractLsb' (by omega)

/-- A read whose bytes are consecutive bytes of a value gives that part of the value, zero-extended (R57, R58). -/
theorem Memory.read_eq_of_bytes {m : Memory} {a v : Word} {n : Width} {low : Nat}
    (h : ∀ j < n.bytes, m.byte (a + BitVec.ofNat 32 j) = v.extractLsb' (8 * (low + (n.bytes - 1 - j))) 8) :
    m.read a n = (v.extractLsb' (8 * low) (8 * n.bytes)).setWidth 32 := by
  cases n <;> simp only [Width.bytes] at h ⊢
  case byte =>
    rw [Memory.read_byte_numbered, h 0 (by decide)]
    rfl
  case half =>
    rw [Memory.read_half_numbered, h 0 (by decide), h 1 (by decide), extractLsb'_append_next v low 0]
    rfl
  case word =>
    rw [Memory.read_word_numbered, h 0 (by decide), h 1 (by decide), h 2 (by decide), h 3 (by decide),
      extractLsb'_append_next v low 2, extractLsb'_append_next v low 1, extractLsb'_append_next v low 0,
      BitVec.setWidth_eq]
    rfl

/-- The bytes after a served write: inside the access and inside a segment the value's, all others as before (R59,
R61). -/
theorem Memory.byte_write {m : Memory} (h : m.wf = true) (a : Word) (n : Width) (v : Word) (b : Word) :
    (m.write a n v).byte b =
      if (b - a).toNat < n.bytes ∧ mapped b = true then byteOfValue n v (b - a).toNat else m.byte b := by
  have hlen := n.bytes_le
  unfold Memory.write
  by_cases hin : (b - a).toNat < n.bytes
  · have hb := add_toNat_sub a b
    have hbyte := Memory.byte_setBytes h (bytesOf n v) a (b - a).toNat (by simpa using hin)
      (by rw [bytesOf_length]; omega)
    rw [hb, getElem_bytesOf] at hbyte
    rw [hbyte]
    by_cases hm : mapped b = true
    · simp only [hin, hm, and_self, if_true]
    · rw [if_neg hm, if_neg (fun e => hm e.2), Memory.byte_of_not_mapped (by simpa using hm)]
  · rw [if_neg (fun e => hin e.1)]
    refine Memory.byte_setBytes_of_ne h _ a b fun k hk e => hin ?_
    rw [bytesOf_length] at hk
    bv_omega

/-! ### Segments share nothing -/

/-- Settles O16: the bytes a write changes lie in a segment, so in the one it starts in. -/
theorem segmentsShareNothing : Obligations.SegmentsShareNothing := by
  refine ⟨fun s t a b v n hwf hwrite hseg => ?_, fun m a b v hwf ha => by simp [Memory.byte_setByte hwf, ha]⟩
  rcases s.memWrite_cases a n v with ⟨hserved, e⟩ | ⟨-, e⟩ | ⟨-, e⟩ <;> rw [e] at hwrite <;> cases hwrite
  · obtain ⟨ha, -⟩ := answerOf_eq_served_iff.1 hserved
    rw [State.setMem_mem, Memory.byte_write hwf, if_neg]
    rintro ⟨hin, hb⟩
    have hnear : (b - a).toNat ≤ 0x100000 := (hin.le.trans n.bytes_le).trans (by decide)
    exact hseg (translateAddr_eq_of_mapped ha hb hnear)
  · rfl

/-! ### A word written and read back -/

/-- What a read inside a word just written gives: the value's bytes at those addresses (R57, R62). -/
theorem Memory.read_write_word {m : Memory} (h : m.wf = true) {a : Word} (v : Word) (ha : mapped a = true)
    (hend : (offsetOf a).toNat + 4 ≤ 0x100000) {n : Width} {k : Nat} (hk : k + n.bytes ≤ 4) :
    (m.write a .word v).read (a + BitVec.ofNat 32 k) n =
      (v.extractLsb' (8 * (4 - n.bytes - k)) (8 * n.bytes)).setWidth 32 := by
  refine Memory.read_eq_of_bytes fun j hj => ?_
  have hdiff : (a + BitVec.ofNat 32 (k + j) - a).toNat = k + j := by bv_omega
  have hm : mapped (a + BitVec.ofNat 32 (k + j)) = true := (mapped_add ha (by omega)).2 (by omega)
  have hin : k + j < Width.word.bytes := show k + j < 4 by omega
  have hplace : 4 - n.bytes - k + (n.bytes - 1 - j) = Width.word.bytes - 1 - (k + j) := by
    change _ = 4 - 1 - (k + j)
    omega
  rw [BitVec.add_assoc, ← BitVec.ofNat_add, Memory.byte_write h, hdiff, if_pos ⟨hin, hm⟩, byteOfValue, hplace]

/-- An access inside an access that ends in its segment ends there too. -/
theorem performed_add {c : Config} {a : Word} {n : Width} {k : Nat} (ha : mapped a = true)
    (h : (offsetOf a).toNat + k + n.bytes ≤ 0x100000) : Performed c (a + BitVec.ofNat 32 k) n := by
  have hn := n.bytes_pos
  refine ⟨(mapped_add ha (by omega)).2 (by omega), .inl ?_⟩
  rw [overruns, offsetOf_add (by omega)]
  exact decide_eq_false (by simpa [segSize] using h)

/-- Settles O15: seven reads inside the word written. -/
theorem storedWordReadsBackBigEndian : Obligations.StoredWordReadsBackBigEndian := by
  intro s a v hwf ha hover
  have hend : (offsetOf a).toNat + 4 ≤ 0x100000 := by simpa [overruns, Width.bytes, segSize] using hover
  refine ⟨_, State.memWrite_of_performed ⟨ha, .inl hover⟩ v, ?_⟩
  generalize ht : s.setMem (s.mem.write a .word v) = t
  have hread (n : Width) (k : Nat) (hk : k + n.bytes ≤ 4) : t.memRead (a + BitVec.ofNat 32 k) n =
      .ok ((v.extractLsb' (8 * (4 - n.bytes - k)) (8 * n.bytes)).setWidth 32, t) := by
    rw [State.memRead_of_performed (performed_add ha (by omega)), ← ht, State.setMem_mem,
      Memory.read_write_word hwf v ha hend hk]
  have hfirst (n : Width) : t.memRead a n =
      .ok ((v.extractLsb' (8 * (4 - n.bytes)) (8 * n.bytes)).setWidth 32, t) := by
    simpa using hread n 0 (by simpa using n.bytes_le)
  exact ⟨by simpa [Width.bytes] using hfirst .word,
    hfirst .half, hread .half 2 (by decide),
    hfirst .byte, hread .byte 1 (by decide), hread .byte 2 (by decide), hread .byte 3 (by decide)⟩

/-! ### Overruns -/

/-- Settles O17: each setting by what it makes of the access; a byte that lies a few places after the first is mapped
exactly if it lies before the segment's end. -/
theorem overrunFollowsItsParameter : Obligations.OverrunFollowsItsParameter := by
  intro s a v n hwf ha hover
  refine ⟨fun hc => ?_, fun hc => ?_, fun hc => ?_⟩
  · have hrefused : RefusedAccess s.cfg a n := ⟨ha, hover, hc⟩
    exact ⟨State.memRead_of_refused hrefused, State.memWrite_of_refused hrefused v⟩
  · have hfault : FaultingAccess s.cfg a n := .inr ⟨hover, hc⟩
    exact ⟨State.memRead_of_faulting hfault, State.memWrite_of_faulting hfault v⟩
  · have hperformed : Performed s.cfg a n := ⟨ha, .inr hc⟩
    have hlen := n.bytes_le
    refine ⟨⟨_, State.memRead_of_performed hperformed, fun k hk => ?_⟩, _, State.memWrite_of_performed hperformed v,
      fun _ => rfl, rfl, rfl, rfl, fun b => ?_, rfl, rfl, rfl, rfl, rfl⟩
    · refine (byteOfValue_read s.mem a n hk).trans ?_
      split
      case isTrue => rfl
      case isFalse hout =>
        have hm := mt (mapped_add ha (by omega)).1 hout
        exact Memory.byte_of_not_mapped (by simpa using hm)
    · have hlt : b - a < BitVec.ofNat 32 n.bytes ↔ (b - a).toNat < n.bytes := by
        rw [BitVec.lt_def, BitVec.toNat_ofNat, Nat.mod_eq_of_lt (by omega)]
      rw [State.setMem_mem, Memory.byte_write hwf]
      refine if_congr ?_ rfl rfl
      rw [hlt]
      refine and_congr_right fun hin => ?_
      have hmapped := mapped_add (k := (b - a).toNat) ha (by omega)
      rwa [add_toNat_sub] at hmapped

end Sys2Proof.Machine
end

section
/-! The encoding (spec/30_encoding.md R80 to R95). Selecting an operation is the inverse of numbering it, because the
numbers of a well-formed record are distinct; packing fields is the inverse of taking them from a word, because in a
legal layout they cover every bit once. The round trips, the formats and the rejected words follow. -/

namespace Sys2Proof

open Sys2Proof.Machine

/-! ### Selecting an operation by its number -/

/-- A search by key finds the member whose key was asked for, when no two members have the same key. -/
theorem find?_key_of_nodup {α β : Type} [DecidableEq β] {l : List α} {key : α → β} (h : (l.map key).Nodup)
    {a : α} (ha : a ∈ l) : l.find? (fun x => key x == key a) = some a := by
  cases hfind : l.find? fun x => key x == key a with
  | none => simpa using List.find?_eq_none.1 hfind a ha
  | some b =>
    have hkey : key b = key a := by simpa using List.find?_some hfind
    rw [List.inj_on_of_nodup_map h (List.mem_of_find?_eq_some hfind) ha hkey]

theorem functOf_funct {e : Encoding} (h : e.functsWf = true) (o : FunctOp) : functOf e (e.funct o) = some o :=
  find?_key_of_nodup (of_decide_eq_true h) o.mem_all

theorem primaryOf_primary {e : Encoding} (h : e.opcodesWf = true) (o : PrimaryOp) :
    primaryOf e (e.primary o) = some o := by
  simp only [Encoding.opcodesWf, Bool.and_eq_true, decide_eq_true_eq] at h
  exact find?_key_of_nodup h.1 o.mem_all

/-- No primary operation has opcode 0, which is the R-format's (R89). -/
theorem primary_ne_zero {e : Encoding} (h : e.opcodesWf = true) (o : PrimaryOp) : e.primary o ≠ 0 := by
  simp only [Encoding.opcodesWf, Bool.and_eq_true, Bool.not_eq_true', List.contains_eq_mem,
    decide_eq_false_iff_not] at h
  exact fun h0 => h.2 (h0 ▸ List.mem_map_of_mem o.mem_all)

theorem funct_of_functOf {e : Encoding} {value : BitVec 6} {o : FunctOp} (h : functOf e value = some o) :
    e.funct o = value := by
  simpa using List.find?_some h

theorem primary_of_primaryOf {e : Encoding} {value : BitVec 6} {o : PrimaryOp} (h : primaryOf e value = some o) :
    e.primary o = value := by
  simpa using List.find?_some h

theorem functOf_eq_none_iff {e : Encoding} {value : BitVec 6} :
    functOf e value = none ↔ value ∉ FunctOp.all.map e.funct := by
  simp [functOf]

theorem primaryOf_eq_none_iff {e : Encoding} {value : BitVec 6} :
    primaryOf e value = none ↔ value ∉ PrimaryOp.all.map e.primary := by
  simp [primaryOf]

/-! ### What the decoder answers -/

theorem decode_eq_ok_iff {e : Encoding} {w : Word} {i : Instr} :
    decode e w = .ok i ↔
      ((fieldsOf e w).opcode = 0 ∧
        ∃ o, functOf e (fieldsOf e w).funct = some o ∧ instrOfFunct (fieldsOf e w) o = i) ∨
      ((fieldsOf e w).opcode ≠ 0 ∧
        ∃ o, primaryOf e (fieldsOf e w).opcode = some o ∧ instrOfPrimary (fieldsOf e w) o = i) := by
  simp only [decode]
  split
  case isTrue hop => cases functOf e (fieldsOf e w).funct <;> simp [hop]
  case isFalse hop => cases primaryOf e (fieldsOf e w).opcode <;> simp_all

theorem decode_error_iff {e : Encoding} {w : Word} :
    (∃ u, decode e w = .error u) ↔
      ((fieldsOf e w).opcode ≠ 0 ∧ primaryOf e (fieldsOf e w).opcode = none) ∨
      ((fieldsOf e w).opcode = 0 ∧ functOf e (fieldsOf e w).funct = none) := by
  simp only [decode]
  split
  case isTrue hop => cases functOf e (fieldsOf e w).funct <;> simp [hop]
  case isFalse hop => cases primaryOf e (fieldsOf e w).opcode <;> simp_all

/-! ### Decoding what was encoded -/

section

variable {e : Encoding} {w : Word} {rs rt rd : RegIx} {shamt : Shamt} {imm : Imm16} {target : Target}

theorem decode_of_showsR (hwf : e.functsWf = true) (o : FunctOp) (h : ShowsR e w (e.funct o) rs rt rd shamt) :
    decode e w = .ok (instrOfFunct { fieldsOf e w with rs := rs, rt := rt, rd := rd, shamt := shamt } o) := by
  obtain ⟨hop, hfunct, rfl, rfl, rfl, rfl⟩ := h
  exact decode_eq_ok_iff.2 (.inl ⟨hop, o, hfunct ▸ functOf_funct hwf o, rfl⟩)

/-- A word that shows a primary operation's opcode decodes to that operation with the fields of the word. -/
theorem decode_of_opcode (hwf : e.opcodesWf = true) (o : PrimaryOp) (h : (fieldsOf e w).opcode = e.primary o) :
    decode e w = .ok (instrOfPrimary (fieldsOf e w) o) :=
  decode_eq_ok_iff.2 (.inr ⟨h ▸ primary_ne_zero hwf o, o, h ▸ primaryOf_primary hwf o, rfl⟩)

theorem decode_of_showsI (hwf : e.opcodesWf = true) (o : PrimaryOp) (h : ShowsI e w (e.primary o) rs rt imm) :
    decode e w = .ok (instrOfPrimary { fieldsOf e w with rs := rs, rt := rt, imm := imm } o) := by
  obtain ⟨hop, rfl, rfl, rfl⟩ := h
  exact decode_of_opcode hwf o hop

theorem decode_of_showsJ (hwf : e.opcodesWf = true) (o : PrimaryOp) (h : ShowsJ e w (e.primary o) target) :
    decode e w = .ok (instrOfPrimary { fieldsOf e w with target := target } o) := by
  obtain ⟨hop, rfl⟩ := h
  exact decode_of_opcode hwf o hop

end

/-- Settles O1: the fields that an instruction's word shows select it, as the record's numbers are distinct. -/
theorem decodeOfEncodeIsTheInstruction : Obligations.DecodeOfEncodeIsTheInstruction := by
  intro e i hwf
  simp only [Encoding.wf, Bool.and_eq_true] at hwf
  obtain ⟨⟨hop, hfn⟩, hpos⟩ := hwf
  cases i with
  | sll rs rt rd sh => exact decode_of_showsR hfn .sll (Laws.EncodedFields.sll rs rt rd sh e hpos)
  | srl rs rt rd sh => exact decode_of_showsR hfn .srl (Laws.EncodedFields.srl rs rt rd sh e hpos)
  | sra rs rt rd sh => exact decode_of_showsR hfn .sra (Laws.EncodedFields.sra rs rt rd sh e hpos)
  | jr rs rt rd sh => exact decode_of_showsR hfn .jr (Laws.EncodedFields.jr rs rt rd sh e hpos)
  | syscall rs rt rd sh => exact decode_of_showsR hfn .syscall (Laws.EncodedFields.syscall rs rt rd sh e hpos)
  | mfhi rs rt rd sh => exact decode_of_showsR hfn .mfhi (Laws.EncodedFields.mfhi rs rt rd sh e hpos)
  | mflo rs rt rd sh => exact decode_of_showsR hfn .mflo (Laws.EncodedFields.mflo rs rt rd sh e hpos)
  | mul rs rt rd sh => exact decode_of_showsR hfn .mul (Laws.EncodedFields.mul rs rt rd sh e hpos)
  | div rs rt rd sh => exact decode_of_showsR hfn .div (Laws.EncodedFields.div rs rt rd sh e hpos)
  | add rs rt rd sh => exact decode_of_showsR hfn .add (Laws.EncodedFields.add rs rt rd sh e hpos)
  | sub rs rt rd sh => exact decode_of_showsR hfn .sub (Laws.EncodedFields.sub rs rt rd sh e hpos)
  | and rs rt rd sh => exact decode_of_showsR hfn .and (Laws.EncodedFields.and rs rt rd sh e hpos)
  | or rs rt rd sh => exact decode_of_showsR hfn .or (Laws.EncodedFields.or rs rt rd sh e hpos)
  | xor rs rt rd sh => exact decode_of_showsR hfn .xor (Laws.EncodedFields.xor rs rt rd sh e hpos)
  | nor rs rt rd sh => exact decode_of_showsR hfn .nor (Laws.EncodedFields.nor rs rt rd sh e hpos)
  | slt rs rt rd sh => exact decode_of_showsR hfn .slt (Laws.EncodedFields.slt rs rt rd sh e hpos)
  | bltz rs rt imm => exact decode_of_showsI hop .bltz (Laws.EncodedFields.bltz rs rt imm e hpos)
  | beq rs rt imm => exact decode_of_showsI hop .beq (Laws.EncodedFields.beq rs rt imm e hpos)
  | bne rs rt imm => exact decode_of_showsI hop .bne (Laws.EncodedFields.bne rs rt imm e hpos)
  | addi rs rt imm => exact decode_of_showsI hop .addi (Laws.EncodedFields.addi rs rt imm e hpos)
  | addiu rs rt imm => exact decode_of_showsI hop .addiu (Laws.EncodedFields.addiu rs rt imm e hpos)
  | slti rs rt imm => exact decode_of_showsI hop .slti (Laws.EncodedFields.slti rs rt imm e hpos)
  | sltiu rs rt imm => exact decode_of_showsI hop .sltiu (Laws.EncodedFields.sltiu rs rt imm e hpos)
  | andi rs rt imm => exact decode_of_showsI hop .andi (Laws.EncodedFields.andi rs rt imm e hpos)
  | ori rs rt imm => exact decode_of_showsI hop .ori (Laws.EncodedFields.ori rs rt imm e hpos)
  | xori rs rt imm => exact decode_of_showsI hop .xori (Laws.EncodedFields.xori rs rt imm e hpos)
  | lui rs rt imm => exact decode_of_showsI hop .lui (Laws.EncodedFields.lui rs rt imm e hpos)
  | lb rs rt imm => exact decode_of_showsI hop .lb (Laws.EncodedFields.lb rs rt imm e hpos)
  | lw rs rt imm => exact decode_of_showsI hop .lw (Laws.EncodedFields.lw rs rt imm e hpos)
  | lbu rs rt imm => exact decode_of_showsI hop .lbu (Laws.EncodedFields.lbu rs rt imm e hpos)
  | sb rs rt imm => exact decode_of_showsI hop .sb (Laws.EncodedFields.sb rs rt imm e hpos)
  | sw rs rt imm => exact decode_of_showsI hop .sw (Laws.EncodedFields.sw rs rt imm e hpos)
  | j target => exact decode_of_showsJ hop .j (Laws.EncodedFields.j target e hpos)
  | jal target => exact decode_of_showsJ hop .jal (Laws.EncodedFields.jal target e hpos)

/-! ### Encoding what was decoded -/

theorem encode_instrOfFunct (e : Encoding) (f : Fields) (o : FunctOp) :
    encode e (instrOfFunct f o) = packR e (e.funct o) f.rs f.rt f.rd f.shamt := by
  cases o <;> rfl

/-- J and JAL are packed as J-format words, every other primary operation as an I-format word (R83, R84). -/
theorem encode_instrOfPrimary_cases (e : Encoding) (f : Fields) (o : PrimaryOp) :
    encode e (instrOfPrimary f o) = packI e (e.primary o) f.rs f.rt f.imm ∨
      encode e (instrOfPrimary f o) = packJ (e.primary o) f.target := by
  cases o with
  | j => exact .inr rfl
  | jal => exact .inr rfl
  | _ => exact .inl rfl

/-- A field of a word, moved back to its place, has the word's bits there and no others. -/
theorem getLsbD_field_in_place (w : Word) (lo len : Nat) {i : Nat} (hi : i < 32) :
    ((w.extractLsb' lo len).setWidth 32 <<< lo).getLsbD i = (decide (lo ≤ i ∧ i < lo + len) && w.getLsbD i) := by
  rw [BitVec.getLsbD_shiftLeft, BitVec.getLsbD_setWidth, BitVec.getLsbD_extractLsb']
  by_cases hlo : lo ≤ i
  · have hend : i < lo + 32 := Nat.lt_add_left lo hi
    simp [hlo, hi, hend, Nat.not_lt.2 hlo, Nat.add_sub_cancel' hlo, Nat.sub_lt_iff_lt_add' hlo]
  · simp [hlo, Nat.not_le.1 hlo]

theorem getLsbD_low_field (w : Word) (len : Nat) {i : Nat} (hi : i < 32) :
    ((w.extractLsb' 0 len).setWidth 32).getLsbD i = (decide (i < len) && w.getLsbD i) := by
  simpa using getLsbD_field_in_place w 0 len hi

/-- The six bits `packR` leaves 0 are the opcode's; the others are those of the fields it packs. -/
theorem packR_fieldsOf {e : Encoding} (h : e.positionsWf = true) {w : Word} (hop : (fieldsOf e w).opcode = 0) :
    packR e (fieldsOf e w).funct (fieldsOf e w).rs (fieldsOf e w).rt (fieldsOf e w).rd (fieldsOf e w).shamt = w := by
  have hfull : (fieldsOf e w).opcode.setWidth 32 <<< 26 |||
      packR e (fieldsOf e w).funct (fieldsOf e w).rs (fieldsOf e w).rt (fieldsOf e w).rd (fieldsOf e w).shamt = w := by
    refine BitVec.eq_of_getLsbD_eq fun i hi => ?_
    simp only [fieldsOf, packR, BitVec.getLsbD_or, getLsbD_field_in_place w _ _ hi, getLsbD_low_field w _ hi]
    have hpos := Encoding.positions_cases h
    cases w.getLsbD i with
    | false => simp
    | true =>
      simp only [Bool.and_true, Bool.or_eq_true, decide_eq_true_eq]
      omega
  simpa [hop] using hfull

theorem packI_fieldsOf {e : Encoding} (h : e.positionsWf = true) (w : Word) :
    packI e (fieldsOf e w).opcode (fieldsOf e w).rs (fieldsOf e w).rt (fieldsOf e w).imm = w := by
  refine BitVec.eq_of_getLsbD_eq fun i hi => ?_
  simp only [fieldsOf, packI, BitVec.getLsbD_or, getLsbD_field_in_place w _ _ hi, getLsbD_low_field w _ hi]
  have hpos := Encoding.positions_cases h
  cases w.getLsbD i with
  | false => simp
  | true =>
    simp only [Bool.and_true, Bool.or_eq_true, decide_eq_true_eq]
    omega

theorem packJ_fieldsOf (e : Encoding) (w : Word) : packJ (fieldsOf e w).opcode (fieldsOf e w).target = w := by
  refine BitVec.eq_of_getLsbD_eq fun i hi => ?_
  simp only [fieldsOf, packJ, BitVec.getLsbD_or, getLsbD_field_in_place w _ _ hi, getLsbD_low_field w _ hi]
  cases w.getLsbD i with
  | false => simp
  | true =>
    simp only [Bool.and_true, Bool.or_eq_true, decide_eq_true_eq]
    omega

/-- Settles O2: the number of the operation that was selected is the one the word shows, so packing gives the word. -/
theorem encodeOfDecodeIsTheWord : Obligations.EncodeOfDecodeIsTheWord := by
  intro e w i hpos hdecode
  rcases decode_eq_ok_iff.1 hdecode with ⟨hop, o, ho, rfl⟩ | ⟨-, o, ho, rfl⟩
  · rw [encode_instrOfFunct, funct_of_functOf ho, packR_fieldsOf hpos hop]
  · rcases encode_instrOfPrimary_cases e (fieldsOf e w) o with h | h
    · rw [h, primary_of_primaryOf ho, packI_fieldsOf hpos]
    · rw [h, primary_of_primaryOf ho, packJ_fieldsOf]

/-! ### The default record -/

/-- Concatenation, as the shift and the disjunction a packing is written with. -/
theorem setWidth_append_eq_or {m n : Nat} (x : BitVec m) (y : BitVec n) (v : Nat) :
    (x ++ y).setWidth v = x.setWidth v <<< n ||| y.setWidth v := by
  refine BitVec.eq_of_getLsbD_eq fun i hi => ?_
  simp only [BitVec.getLsbD_setWidth, BitVec.getLsbD_append, BitVec.getLsbD_or, BitVec.getLsbD_shiftLeft]
  by_cases hn : i < n
  · simp [hn]
  · simp [hn, hi, (Nat.sub_le i n).trans_lt hi, BitVec.getLsbD_of_ge y i (Nat.not_lt.1 hn)]

theorem packR_defaultEncoding (funct : BitVec 6) (rs rt rd : RegIx) (shamt : Shamt) :
    packR defaultEncoding funct rs rt rd shamt = rFormat funct rs rt rd shamt := by
  rw [← BitVec.setWidth_eq (rFormat funct rs rt rd shamt), rFormat]
  simp only [setWidth_append_eq_or, BitVec.shiftLeft_or_distrib, ← BitVec.shiftLeft_add]
  simp [packR, defaultEncoding]

theorem packI_defaultEncoding (opcode : BitVec 6) (rs rt : RegIx) (imm : Imm16) :
    packI defaultEncoding opcode rs rt imm = iFormat opcode rs rt imm := by
  rw [← BitVec.setWidth_eq (iFormat opcode rs rt imm), iFormat]
  simp only [setWidth_append_eq_or, BitVec.shiftLeft_or_distrib, ← BitVec.shiftLeft_add]
  simp [packI, defaultEncoding]

theorem packJ_eq_jFormat (opcode : BitVec 6) (target : Target) : packJ opcode target = jFormat opcode target := by
  rw [← BitVec.setWidth_eq (jFormat opcode target)]
  exact (setWidth_append_eq_or opcode target 32).symm

/-- Settles O3: packing is concatenation under the default record, and the numbers are the record's. -/
theorem defaultWordsFollowTheFormats : Obligations.DefaultWordsFollowTheFormats := by
  intro rs rt rd sh imm target
  simp only [encode, packR_defaultEncoding, packI_defaultEncoding, packJ_eq_jFormat]
  and_intros <;> rfl

/-- Settles O4: the two lists are the numbers the default record gives the operations. -/
theorem rejectedWordsAreTheUnlistedOnes : Obligations.RejectedWordsAreTheUnlistedOnes := by
  intro w
  rw [decode_error_iff, primaryOf_eq_none_iff, functOf_eq_none_iff]
  rfl

/-- Settles O5: eleven fixed words, decoded. -/
theorem specWordsDecode : Obligations.SpecWordsDecode := by
  unfold Obligations.SpecWordsDecode
  decide

end Sys2Proof
end

section
/-! The ALU (spec/40_alu.md R110 to R129). What each canonical code gives is in Laws/Alu.lean; here those 32-bit
operations are read as arithmetic on the operands' unsigned and two's-complement values, and the contested codes are
related to the canonical ones. -/

namespace Sys2Proof.Machine

/-! ### The table at any code -/

/-- Under TABLE no code is invalid (R122). -/
theorem alu_eq_aluTable {c : Config} (h : c.aluNoncanonical = .table) (x y : Word) (code : AluCode) :
    alu c x y code = ⟨aluTable c x y code, false⟩ := by
  simp [alu, aluInvalidCode, h]

theorem alu_inv (c : Config) (x y : Word) (code : AluCode) : (alu c x y code).inv = aluInvalidCode c code := by
  unfold alu
  cases aluInvalidCode c code <;> rfl

/-- An invalid code gives the sentinel (R123). -/
theorem alu_z_of_invalid {c : Config} {code : AluCode} (h : aluInvalidCode c code = true) (x y : Word) :
    (alu c x y code).z = sentinel := by
  simp [alu, h]

theorem aluInvalidCode_iff (c : Config) (code : AluCode) :
    aluInvalidCode c code = true ↔ c.aluNoncanonical = .fault ∧ contested code = true := by
  simp [aluInvalidCode]

/-- The contested codes, listed (R122): a category and a sub-selector of two bits each leave sixteen cases. -/
theorem contested_iff_mem (code : AluCode) :
    contested code = true ↔ code ∈ ([0b0101, 0b0110, 0b0111, 0b1010, 0b1011] : List AluCode) := by
  revert code
  decide

/-- Category 1 ignores the sub-selector (R119). -/
theorem aluTable_of_category_one {code : AluCode} (h : code.extractLsb' 2 2 = 1) (c : Config) (x y : Word) :
    aluTable c x y code = aluTable c x y codeSlt := by
  simp [aluTable, codeSlt, h]

/-- Category 2 looks at bit 0 of the code only (R120, R121). -/
theorem aluTable_of_category_two {code code' : AluCode} (h : code.extractLsb' 2 2 = 2) (h' : code'.extractLsb' 2 2 = 2)
    (hbit : (code.extractLsb' 0 2).extractLsb' 0 1 = (code'.extractLsb' 0 2).extractLsb' 0 1) (c : Config)
    (x y : Word) : aluTable c x y code = aluTable c x y code' := by
  simp [aluTable, aluAddSub, h, h', hbit]

/-- Settles O22: the five codes are listed, and under TABLE each goes by its category and the bit that counts there. -/
theorem contestedAluCodesFollowTheirParameter : Obligations.ContestedAluCodesFollowTheirParameter := by
  refine ⟨fun c x y code => ⟨?_, fun hinv => ?_⟩, fun c x y htable => ?_⟩
  · rw [alu_inv, aluInvalidCode_iff, contested_iff_mem]
  · exact alu_z_of_invalid (alu_inv c x y code ▸ hinv) x y
  · simp only [alu_eq_aluTable htable, AluOut.mk.injEq, and_true]
    exact ⟨aluTable_of_category_one rfl c x y, aluTable_of_category_one rfl c x y,
      aluTable_of_category_one rfl c x y, aluTable_of_category_two rfl rfl rfl c x y,
      aluTable_of_category_two rfl rfl rfl c x y⟩

/-! ### Adding and subtracting -/

theorem add_eq_ofNat (x y : Word) : x + y = BitVec.ofNat 32 ((x.toNat + y.toNat) % 2 ^ 32) :=
  BitVec.eq_of_toNat_eq (by simp)

theorem add_eq_ofInt (x y : Word) : x + y = BitVec.ofInt 32 (x.toInt + y.toInt) :=
  BitVec.eq_of_toInt_eq (by rw [BitVec.toInt_add, BitVec.toInt_ofInt])

theorem sub_eq_ofInt (x y : Word) : x - y = BitVec.ofInt 32 (x.toInt - y.toInt) :=
  BitVec.eq_of_toInt_eq (by rw [BitVec.toInt_sub, BitVec.toInt_ofInt])

theorem sub_eq_ofInt_toNat (x y : Word) : x - y = BitVec.ofInt 32 (((x.toNat : Int) - y.toNat) % 2 ^ 32) := by
  refine BitVec.eq_of_toNat_eq ?_
  rw [BitVec.toNat_sub, BitVec.toNat_ofInt]
  omega

/-- Subtracting is adding the complement and one (R121). -/
theorem sub_eq_add_not_add_one (x y : Word) : x - y = x + ~~~y + 1 := by
  rw [BitVec.sub_eq_add_neg, BitVec.neg_eq_not_add, ← BitVec.add_assoc]
  rfl

/-- Settles O18: both readings of the operands give the same 32 bits. -/
theorem aluAddAndSubtractWrap : Obligations.AluAddAndSubtractWrap := by
  intro c x y
  have hadd : alu c x y 0b1000 = ⟨x + y, false⟩ := alu_add c x y
  have hsub : alu c x y 0b1001 = ⟨x - y, false⟩ := alu_sub c x y
  refine ⟨?_, ?_, ?_, ?_, ?_, fun htable => ?_⟩
  · rw [hadd, add_eq_ofNat]
  · rw [hsub, sub_eq_ofInt_toNat]
  · rw [hsub, sub_eq_add_not_add_one]
  · rw [hadd, add_eq_ofInt]
  · rw [hsub, sub_eq_ofInt]
  · obtain ⟨-, -, -, hten, heleven⟩ := contestedAluCodesFollowTheirParameter.2 c x y htable
    exact ⟨hten, heleven⟩

/-! ### Logic -/

/-- Settles O19: no canonical code is invalid, and a bit of a bitwise result is the operation on the bits. -/
theorem aluLogicIsBitwise : Obligations.AluLogicIsBitwise := by
  intro c x y
  have hand : alu c x y 0b1100 = ⟨x &&& y, false⟩ := alu_and c x y
  have hor : alu c x y 0b1101 = ⟨x ||| y, false⟩ := alu_or c x y
  have hxor : alu c x y 0b1110 = ⟨x ^^^ y, false⟩ := alu_xor c x y
  have hnor : alu c x y 0b1111 = ⟨~~~(x ||| y), false⟩ := alu_nor c x y
  rw [hand, hor, hxor, hnor]
  refine ⟨rfl, rfl, rfl, rfl, fun i hi => ⟨BitVec.getLsbD_and, BitVec.getLsbD_or, BitVec.getLsbD_xor, ?_⟩⟩
  simp [hi]

/-! ### Shifts -/

theorem shiftAmount_eq_mod (y : Word) : shiftAmount y = y.toNat % 32 := by
  simp [shiftAmount]

theorem shiftLeft_eq_ofNat (x : Word) (n : Nat) : x <<< n = BitVec.ofNat 32 (x.toNat * 2 ^ n) :=
  BitVec.eq_of_toNat_eq (by rw [BitVec.toNat_shiftLeft, BitVec.toNat_ofNat, Nat.shiftLeft_eq])

theorem ushiftRight_eq_ofNat (x : Word) (n : Nat) : x >>> n = BitVec.ofNat 32 (x.toNat / 2 ^ n) := by
  rw [← Nat.shiftRight_eq_div_pow, ← BitVec.toNat_ushiftRight, BitVec.ofNat_toNat, BitVec.setWidth_eq]

/-- Sign fill rounds down: the quotient is the floor for a negative value too (R117). -/
theorem sshiftRight_eq_ofInt (x : Word) (n : Nat) : x.sshiftRight n = BitVec.ofInt 32 (x.toInt.fdiv (2 ^ n)) := by
  rw [Int.fdiv_eq_ediv_of_nonneg _ (by positivity), ← BitVec.ofInt_toInt (x := x.sshiftRight n),
    BitVec.toInt_sshiftRight, Int.shiftRight_eq_div_pow, Int.natCast_pow]
  rfl

/-- Settles O20: the amount is `Y mod 32`, and a shift by it multiplies or divides by that power of two. -/
theorem aluShiftsAreMultiplicationAndFloorDivision : Obligations.AluShiftsAreMultiplicationAndFloorDivision := by
  intro c x y
  rw [← shiftAmount_eq_mod, ← shiftLeft_eq_ofNat, ← ushiftRight_eq_ofNat, ← sshiftRight_eq_ofInt]
  exact ⟨alu_pass c x y, alu_sll c x y, alu_srl c x y, alu_sra c x y⟩

/-! ### Set-less-than -/

/-- The two comparisons differ exactly by whether the top bits do (R119). -/
theorem lessThan_signed_eq_xor (x y : Word) : lessThan true x y = (x.msb != y.msb ^^ lessThan false x y) :=
  BitVec.slt_eq_ult

theorem lessThan_agree_iff (x y : Word) : lessThan true x y = lessThan false x y ↔ x.msb = y.msb := by
  rw [lessThan_signed_eq_xor]
  cases lessThan false x y <;> simp

theorem aluSetLess_inj {c d : Config} {x y : Word} :
    aluSetLess c x y = aluSetLess d x y ↔ aluLess c x y = aluLess d x y := by
  unfold aluSetLess
  cases aluLess c x y <;> cases aluLess d x y <;> decide

/-- Settles O21: the results are equal exactly if the two comparisons are. -/
theorem setLessSettingsAgreeOnEqualTopBits : Obligations.SetLessSettingsAgreeOnEqualTopBits := by
  refine ⟨alu_slt, fun c d x y hc hd => ?_⟩
  have hslt (e : Config) : alu e x y 0b0100 = ⟨aluSetLess e x y, false⟩ := alu_slt e x y
  simp only [hslt, AluOut.mk.injEq, and_true]
  rw [aluSetLess_inj, aluLess, aluLess, hc, hd, lessThan_agree_iff, BitVec.msb_eq_getLsbD_last,
    BitVec.msb_eq_getLsbD_last]

/-! ### The integer laws -/

/-- Left then right by the same amount clears the top bits (R129). -/
theorem shiftLeft_ushiftRight_eq_mod (x : Word) {n : Nat} (hn : n ≤ 32) :
    x <<< n >>> n = BitVec.ofNat 32 (x.toNat % 2 ^ (32 - n)) := by
  rw [ushiftRight_eq_ofNat, BitVec.toNat_shiftLeft, Nat.shiftLeft_eq]
  congr 1
  calc x.toNat * 2 ^ n % 2 ^ 32 / 2 ^ n
      = x.toNat * 2 ^ n % (2 ^ (32 - n) * 2 ^ n) / 2 ^ n := by rw [← Nat.pow_add, Nat.sub_add_cancel hn]
    _ = x.toNat % 2 ^ (32 - n) := by rw [Nat.mul_mod_mul_right, Nat.mul_div_cancel _ (by positivity)]

theorem aluSetLess_cases (c : Config) (x y : Word) : aluSetLess c x y = 0 ∨ aluSetLess c x y = 1 := by
  unfold aluSetLess
  cases aluLess c x y
  · exact .inl rfl
  · exact .inr rfl

/-- Settles O23: each law is one of the 32-bit operations the codes stand for. -/
theorem aluIntegerLaws : Obligations.AluIntegerLaws := by
  intro c x y
  refine ⟨?_, ?_, ?_, fun htop => ?_, ?_, ?_⟩
  · change (alu c (alu c x y codeAdd).z y codeSub).z = x
    rw [alu_add, alu_sub, BitVec.add_sub_cancel]
  · change (alu c x y codeSub).z = 0 ↔ x = y
    rw [alu_sub, sub_eq_zero]
  · change (alu c (alu c x y codeSll).z y codeSrl).z = _
    rw [alu_sll, alu_srl, shiftLeft_ushiftRight_eq_mod x (shiftAmount_lt y).le, shiftAmount_eq_mod]
  · change alu c x y codeSra = alu c x y codeSrl
    have hmsb : x.msb = false := x.msb_eq_getLsbD_last.trans htop
    rw [alu_sra, alu_srl, BitVec.sshiftRight_eq_of_msb_false hmsb]
  · change (alu c x y codeSlt).z = 0 ∨ (alu c x y codeSlt).z = 1
    rw [alu_slt]
    exact aluSetLess_cases c x y
  · change (alu c x y codeNor).z = (alu c (alu c x y codeOr).z (BitVec.allOnes 32) codeXor).z
    rw [alu_nor, alu_or, alu_xor, BitVec.xor_allOnes]

end Sys2Proof.Machine
end

section
/-! One step of the engine (spec/41_engine_step.md R141 to R151): what a step does with the word of a served fetch, the
unrecognised words, which instructions change the memory or the step's outcome, and a run under fuel. -/

namespace Sys2Proof.Machine

/-! ### A step whose fetch is served -/

/-- A served fetch brings the word at `PC` and advances `PC` (R141). -/
theorem State.fetch_of_performed {s : State} (h : Performed s.cfg s.pc .word) :
    s.fetch = .ok (s.mem.read s.pc .word, s.setPc (s.pc + 4)) := by
  simp only [State.fetch, State.memRead_of_performed h]

/-- The state a step whose fetch is served gives to what follows: the step has begun and `PC` is `PCf` (R145). -/
def State.afterFetch (s : State) : State :=
  s.beginStep.setPc (s.pc + 4)

@[simp] theorem State.afterFetch_cfg (s : State) : s.afterFetch.cfg = s.cfg := rfl

section
variable {s : State} {w : Word} (hserved : Performed s.cfg s.pc .word) (hword : s.mem.read s.pc .word = w)
include hserved hword

/-- The fetch of a step that has begun. -/
theorem State.beginStep_fetch_of_performed : s.beginStep.fetch = .ok (w, s.afterFetch) :=
  hword ▸ State.fetch_of_performed (s := s.beginStep) hserved

/-- The zero word halts before decoding (R143). -/
theorem step_of_zero_word (hw : w = 0) : step s = .next (s.afterFetch.haltWith .zeroWord) := by
  simp only [step, State.beginStep_fetch_of_performed hserved hword, isZeroWord, hw, decide_true, if_true,
    execZeroWord]

/-- A word that decodes is executed on the state the fetch left (R144, R145). -/
theorem step_of_decoded {i : Instr} (hw : w ≠ 0) (hdecode : decode s.cfg.encoding w = .ok i) :
    step s = exec i s.afterFetch := by
  simp only [step, State.beginStep_fetch_of_performed hserved hword, isZeroWord, hw, decide_false,
    State.afterFetch_cfg, hdecode, Bool.false_eq_true, if_false]

/-- A word the decoder rejects takes the unrecognised path (R146). -/
theorem step_of_rejected {u : Unrecognised} (hw : w ≠ 0) (hdecode : decode s.cfg.encoding w = .error u) :
    step s = .next (execUnrecognised w s.afterFetch) := by
  simp only [step, State.beginStep_fetch_of_performed hserved hword, isZeroWord, hw, decide_false,
    State.afterFetch_cfg, hdecode, Bool.false_eq_true, if_false]

end

/-- Settles O41: the step is the decoded instruction's; beginning a step touches the three fields it names. -/
theorem stepRunsTheDecodedInstruction : Obligations.StepRunsTheDecodedInstruction :=
  ⟨fun _ _ _ hserved hword hw hdecode => step_of_decoded hserved hword hw hdecode,
    fun _ => ⟨fun _ => rfl, rfl, rfl, rfl, fun _ => rfl, rfl, rfl, rfl, rfl, rfl⟩⟩

/-- Settles O42: the halt replaces the outcome of the state the fetch left. -/
theorem zeroWordHaltsBeforeDecoding : Obligations.ZeroWordHaltsBeforeDecoding :=
  fun _ hserved hword => ⟨_, step_of_zero_word hserved hword rfl,
    fun _ => rfl, rfl, rfl, rfl, fun _ => rfl, rfl, rfl, rfl, rfl, rfl⟩

/-! ### The unrecognised instructions -/

theorem State.unrecognisedR_of_not_writes {s : State} (h : s.cfg.unkFunctWritesRd = false) (w : Word) (rd : RegIx) :
    s.unrecognisedR w rd = s.logError (.unknownInstruction w) := by
  simp only [State.unrecognisedR, h, Bool.false_eq_true, if_false, State.unrecognised]

theorem State.unrecognisedR_of_writes {s : State} (h : s.cfg.unkFunctWritesRd = true) (w : Word) (rd : RegIx) :
    s.unrecognisedR w rd =
      ((s.logError (.unknownInstruction w)).logError (.aluInvalid (Config.freeAluCode s.freeIndex))).setReg rd
        sentinel := by
  simp only [State.unrecognisedR, h, if_true, State.unrecognised]

/-- Under `UNK_FUNCT_WRITES_RD` the unrecognised R-format path logs twice, writes `rd`, and does nothing else (R146). -/
theorem State.unrecognisedR_leaves {s : State} (h : s.cfg.unkFunctWritesRd = true) (w : Word) (rd : RegIx) :
    Leaves s (s.unrecognisedR w rd) (s.regsWith rd sentinel) s.pc s.hi s.lo s.mem.byte
      (s.sinkWithErrors [.unknownInstruction w, .aluInvalid (Config.freeAluCode s.freeIndex)]) s.outcome := by
  rw [State.unrecognisedR_of_writes h]
  refine ⟨State.setReg_reg _ _ _, rfl, rfl, rfl, fun _ => rfl, ?_, rfl, rfl, rfl, rfl⟩
  simp [State.sinkWithErrors]

/-- After the fetch, logging the word is all the step does. -/
theorem State.afterFetch_logError_leaves (s : State) (w : Word) :
    Leaves { s with freeIndex := s.freeIndex + 1 } (s.afterFetch.logError (.unknownInstruction w)) s.reg (s.pc + 4)
      s.hi s.lo s.mem.byte
      ⟨s.sink.normal, s.sink.error ++ [.unknownInstruction w], s.sink.debug ++ [s.freeIndex]⟩ .cont :=
  s.afterFetch.logError_onlyLogs _

/-- After the fetch, under `UNK_FUNCT_WRITES_RD`, two events and the write of `rd` are all the step does. -/
theorem State.afterFetch_unrecognisedR_leaves {s : State} (h : s.cfg.unkFunctWritesRd = true) (w : Word) (rd : RegIx) :
    Leaves { s with freeIndex := s.freeIndex + 1 } (s.afterFetch.unrecognisedR w rd) (s.regsWith rd 0xFFFFFFFF)
      (s.pc + 4) s.hi s.lo s.mem.byte
      ⟨s.sink.normal, s.sink.error ++ [.unknownInstruction w, .aluInvalid (Config.freeAluCode (s.freeIndex + 1))],
        s.sink.debug ++ [s.freeIndex]⟩ .cont :=
  State.unrecognisedR_leaves (s := s.afterFetch) h w rd

@[simp] theorem State.unrecognisedR_mem (s : State) (w : Word) (rd : RegIx) : (s.unrecognisedR w rd).mem = s.mem := by
  rcases s.unrecognisedR_cases w rd with ⟨-, e⟩ | ⟨-, e⟩ <;> rw [e] <;> rfl

@[simp] theorem State.unrecognisedR_outcome (s : State) (w : Word) (rd : RegIx) :
    (s.unrecognisedR w rd).outcome = s.outcome := by
  rcases s.unrecognisedR_cases w rd with ⟨-, e⟩ | ⟨-, e⟩ <;> rw [e] <;> rfl

/-- DIV under `UNK_FUNCT_WRITES_RD` = false only logs, as ADDIU and SLTIU do (R147). -/
theorem exec_div_of_not_writes {s : State} (h : s.cfg.unkFunctWritesRd = false) (rs rt rd : RegIx) (sh : Shamt) :
    exec (.div rs rt rd sh) s =
      .next (s.logError (.unknownInstruction (encode s.cfg.encoding (.div rs rt rd sh)))) :=
  congrArg Host.Outcome.next (State.unrecognisedR_of_not_writes h _ rd)

/-- Settles O30: the unrecognised path with the word the instruction encodes to. -/
theorem divAddiuSltiuAreLoggedNotExecuted : Obligations.DivAddiuSltiuAreLoggedNotExecuted := by
  intro s rs rt rd sh imm
  exact ⟨⟨_, rfl, s.logError_onlyLogs _⟩, ⟨_, rfl, s.logError_onlyLogs _⟩,
    fun hc => ⟨_, exec_div_of_not_writes hc rs rt rd sh, s.logError_onlyLogs _⟩,
    fun hc => ⟨_, _, rfl, State.unrecognisedR_leaves hc _ rd⟩⟩

/-- A rejected word is only logged, if it is no R-format word or the parameter is false (R146). -/
theorem execUnrecognised_of_not_writes {s : State} {w : Word}
    (h : w.extractLsb' 26 6 ≠ 0 ∨ s.cfg.unkFunctWritesRd = false) :
    execUnrecognised w s = s.logError (.unknownInstruction w) := by
  unfold execUnrecognised
  split
  case isTrue hop => exact State.unrecognisedR_of_not_writes (h.resolve_left (not_not_intro hop)) w _
  case isFalse => rfl

theorem execUnrecognised_of_rFormat {s : State} {w : Word} (h : w.extractLsb' 26 6 = 0) :
    execUnrecognised w s = s.unrecognisedR w (fieldsOf s.cfg.encoding w).rd :=
  if_pos h

/-- Settles O43: the unrecognised path on the state the fetch left. -/
theorem unrecognisedWordIsLoggedAndSkipped : Obligations.UnrecognisedWordIsLoggedAndSkipped := by
  intro s w u hserved hword hw hdecode
  have hstep := step_of_rejected hserved hword hw hdecode
  refine ⟨fun hlogs => ?_, fun hop hc => ?_⟩
  · rw [execUnrecognised_of_not_writes (s := s.afterFetch) hlogs] at hstep
    exact ⟨_, hstep, s.afterFetch_logError_leaves w⟩
  · rw [execUnrecognised_of_rFormat hop] at hstep
    exact ⟨_, _, hstep, State.afterFetch_unrecognisedR_leaves hc w _⟩

/-- Settles O45: the word an instruction encodes to is the one it was decoded from, so it is the word fetched. -/
theorem stepLogsTheFetchedWordItself : Obligations.StepLogsTheFetchedWordItself := by
  intro s w i hpos hserved hword hw hdecode
  have hstep := step_of_decoded hserved hword hw hdecode
  obtain rfl : encode s.cfg.encoding i = w := encodeOfDecodeIsTheWord _ w i hpos hdecode
  constructor
  · rintro (⟨rs, rt, imm, rfl⟩ | ⟨rs, rt, imm, rfl⟩ | ⟨⟨rs, rt, rd, sh, rfl⟩, hc⟩)
    · exact ⟨_, hstep, rfl, s.afterFetch_logError_leaves _⟩
    · exact ⟨_, hstep, rfl, s.afterFetch_logError_leaves _⟩
    · have hdiv := exec_div_of_not_writes (s := s.afterFetch) hc rs rt rd sh
      exact ⟨_, hstep.trans hdiv, rfl, s.afterFetch_logError_leaves _⟩
  · rintro rs rt rd sh rfl hc
    exact ⟨_, _, hstep, State.unrecognisedR_mem _ _ _, State.afterFetch_unrecognisedR_leaves hc _ rd⟩

/-! ### Which instructions change the memory or the outcome -/

/-- A store keeps the outcome. -/
theorem State.storeTo_outcome {s t : State} {a v : Word} {n : Width} (h : s.storeTo a n v = .next t) :
    t.outcome = s.outcome := by
  rcases s.storeTo_cases a n v with ⟨-, e⟩ | ⟨-, e⟩ | ⟨-, e⟩ <;> rw [e] at h <;> cases h <;> rfl

/-- SYSCALL keeps the memory. -/
theorem execSyscall_mem {s t : State} (h : execSyscall s = .next t) : t.mem = s.mem := by
  unfold execSyscall at h
  repeat' split at h
  all_goals cases h; rfl

/-- `t` has the memory of `s` unless `i` is a store, and its outcome unless `i` is SYSCALL. -/
structure MemOutcomeFrame (i : Instr) (s t : State) : Prop where
  mem : (∀ rs rt imm, i ≠ .sb rs rt imm) → (∀ rs rt imm, i ≠ .sw rs rt imm) → t.mem = s.mem
  outcome : (∀ rs rt rd sh, i ≠ .syscall rs rt rd sh) → t.outcome = s.outcome

namespace MemOutcomeFrame

variable {i : Instr} {s t : State}

theorem of_eq (hmem : t.mem = s.mem) (hout : t.outcome = s.outcome) : MemOutcomeFrame i s t :=
  ⟨fun _ _ => hmem, fun _ => hout⟩

theorem aluTo (d : RegIx) (x y : Word) (code : AluCode) : MemOutcomeFrame i s (s.aluTo d x y code) := by
  rw [State.aluTo_eq_setReg]
  split <;> exact of_eq rfl rfl

theorem branchIf (taken : Bool) (imm : Imm16) : MemOutcomeFrame i s (s.branchIf taken imm) := by
  rcases s.branchIf_cases taken imm with ⟨-, e⟩ | ⟨-, e⟩ <;> rw [e] <;> exact of_eq rfl rfl

theorem loadTo {d : RegIx} {a : Word} {n : Width} (h : s.loadTo d a n = .next t) : MemOutcomeFrame i s t := by
  rcases s.loadTo_cases d a n with ⟨-, e⟩ | ⟨-, e⟩ | ⟨-, e⟩ <;> rw [e] at h <;> cases h <;> exact of_eq rfl rfl

end MemOutcomeFrame

/-- Every instruction keeps the memory and the outcome, but for the stores and SYSCALL. -/
theorem exec_memOutcomeFrame {i : Instr} {s t : State} (h : exec i s = .next t) : MemOutcomeFrame i s t := by
  cases i
  case sb rs rt imm =>
    exact ⟨fun hsb _ => absurd rfl (hsb rs rt imm), fun _ => State.storeTo_outcome h⟩
  case sw rs rt imm =>
    exact ⟨fun _ hsw => absurd rfl (hsw rs rt imm), fun _ => State.storeTo_outcome h⟩
  case syscall rs rt rd sh =>
    exact ⟨fun _ _ => execSyscall_mem h, fun hsys => absurd rfl (hsys rs rt rd sh)⟩
  case lb | lw | lbu => exact .loadTo h
  case sll | srl | sra | lui | add | addi | sub | and | andi | or | ori | xor | xori | nor | slt | slti =>
    cases h; exact .aluTo _ _ _ _
  case bltz | beq | bne => cases h; exact .branchIf _ _
  case div => cases h; exact .of_eq (s.unrecognisedR_mem _ _) (s.unrecognisedR_outcome _ _)
  case addiu | sltiu | mfhi | mflo | mul | jr | j | jal => cases h; exact .of_eq rfl rfl

/-- A store changes only bytes of its access (spec/20_memory.md R59). -/
theorem State.storeTo_changed {s t : State} {a v b : Word} {n : Width} (hwf : s.mem.wf = true)
    (h : s.storeTo a n v = .next t) (hne : t.mem.byte b ≠ s.mem.byte b) : (b - a).toNat < n.bytes := by
  by_contra hout
  rcases s.storeTo_cases a n v with ⟨-, e⟩ | ⟨-, e⟩ | ⟨-, e⟩ <;> rw [e] at h <;> cases h
  · exact hne ((Memory.byte_write hwf a n v b).trans (if_neg fun hin => hout hin.1))
  · exact hne rfl

/-- Settles O51: the frame leaves SB and SW, and a store changes bytes of its access only. -/
theorem onlyStoresWriteMemory : Obligations.OnlyStoresWriteMemory := by
  intro i s t a hwf h hne
  cases i with
  | sb rs rt imm =>
    have hin : (a - effectiveAddress (s.reg rs) imm).toNat < 1 := State.storeTo_changed hwf h hne
    exact .inl ⟨rs, rt, imm, rfl, by bv_omega⟩
  | sw rs rt imm => exact .inr ⟨rs, rt, imm, rfl, State.storeTo_changed hwf h hne⟩
  | _ => exact absurd (congrArg (Memory.byte · a) ((exec_memOutcomeFrame h).mem nofun nofun)) hne

/-! ### The halts -/

/-- SYSCALL halts exactly if the service is 10 (spec/48_system.md R260). -/
theorem execSyscall_outcome_cases {s t : State} (h : execSyscall s = .next t) :
    (s.reg 2 = 10 ∧ t.outcome = .halt .syscall10) ∨ (s.reg 2 ≠ 10 ∧ t.outcome = s.outcome) := by
  unfold execSyscall at h
  split at h
  case isTrue hv =>
    have hne : s.reg 2 ≠ 10 := fun e => absurd (hv.symm.trans e) (by decide)
    cases h
    exact .inr ⟨hne, rfl⟩
  case isFalse =>
    split at h
    case isTrue hv => cases h; exact .inl ⟨hv, rfl⟩
    case isFalse hv => split at h <;> cases h <;> exact .inr ⟨hv, rfl⟩

/-- An instruction that completes halts exactly if it is SYSCALL with service 10. -/
theorem exec_outcome_cases {i : Instr} {s t : State} (h : exec i s = .next t) :
    (((∃ rs rt rd sh, i = .syscall rs rt rd sh) ∧ s.reg 2 = 10) ∧ t.outcome = .halt .syscall10) ∨
    (¬((∃ rs rt rd sh, i = .syscall rs rt rd sh) ∧ s.reg 2 = 10) ∧ t.outcome = s.outcome) := by
  by_cases hsys : ∃ rs rt rd sh, i = .syscall rs rt rd sh
  · obtain ⟨rs, rt, rd, sh, rfl⟩ := hsys
    rcases execSyscall_outcome_cases h with ⟨hv, ht⟩ | ⟨hv, ht⟩
    · exact .inl ⟨⟨⟨rs, rt, rd, sh, rfl⟩, hv⟩, ht⟩
    · exact .inr ⟨fun hboth => hv hboth.2, ht⟩
  · refine .inr ⟨fun hboth => hsys hboth.1, (exec_memOutcomeFrame h).outcome fun rs rt rd sh e => ?_⟩
    exact hsys ⟨rs, rt, rd, sh, e⟩

theorem execUnrecognised_outcome (w : Word) (s : State) : (execUnrecognised w s).outcome = s.outcome := by
  unfold execUnrecognised
  split
  · exact s.unrecognisedR_outcome w _
  · rfl

/-- A fetch touches neither the outcome nor a general register. -/
theorem State.fetch_outcome_reg {s t : State} {w : Word} (h : s.fetch = .ok (w, t)) :
    t.outcome = s.outcome ∧ ∀ r, t.reg r = s.reg r := by
  rcases s.fetch_cases with ⟨-, e⟩ | ⟨-, e⟩ | ⟨-, e⟩ <;> rw [e] at h <;> cases h <;> exact ⟨rfl, fun _ => rfl⟩

/-- Settles O46: the outcome is continue after the fetch, and each of the three ways on says when it halts. -/
theorem haltConditionsAreExactlyTwo : Obligations.HaltConditionsAreExactlyTwo := by
  intro s t h
  obtain ⟨w, u, hfetch, hrest⟩ := step_cases h
  have hword : s.fetchedWord = some w := s.beginStep_fetchedWord ▸ State.fetchedWord_of_fetch hfetch
  have hcfg : u.cfg = s.cfg := (State.fetch_pc_cfg hfetch).2
  obtain ⟨hcont, hreg⟩ := State.fetch_outcome_reg hfetch
  rw [hcfg] at hrest
  refine ⟨w, hword, ?_⟩
  rcases hrest with ⟨hw, rfl⟩ | ⟨hw, i, hdecode, hi⟩ | ⟨hw, e, hdecode, rfl⟩
  · exact ⟨iff_of_true rfl hw, iff_of_false nofun fun hsys => hsys.1 hw, .inr (.inl rfl)⟩
  · have houtcome := exec_outcome_cases hi
    rw [hreg, hcont] at houtcome
    rcases houtcome with ⟨⟨⟨rs, rt, rd, sh, rfl⟩, hv⟩, ht⟩ | ⟨hnot, ht⟩
    · exact ⟨iff_of_false (by simp [ht]) hw, iff_of_true ht ⟨hw, ⟨rs, rt, rd, sh, hdecode⟩, hv⟩, .inr (.inr ht)⟩
    · refine ⟨iff_of_false (by simp [ht]) hw, iff_of_false (by simp [ht]) ?_, .inl ht⟩
      rintro ⟨-, ⟨rs, rt, rd, sh, hsys⟩, hv⟩
      exact hnot ⟨⟨rs, rt, rd, sh, Except.ok.inj (hdecode.symm.trans hsys)⟩, hv⟩
  · have ht : (execUnrecognised w u).outcome = .cont := (execUnrecognised_outcome w u).trans hcont
    refine ⟨iff_of_false (by simp [ht]) hw, iff_of_false (by simp [ht]) ?_, .inl ht⟩
    rintro ⟨-, ⟨rs, rt, rd, sh, hsys⟩, -⟩
    exact nomatch hdecode.symm.trans hsys

/-! ### A run under fuel -/

/-- A run halts with its first step, or that step continues and the rest of the run halts (R149, R151). -/
theorem run_succ_eq_halted_iff {n : Nat} {s t : State} {reason : HaltReason} :
    run (n + 1) s = .halted reason t ↔
      ∃ v, step s = .next v ∧
        ((v.outcome = .halt reason ∧ v = t) ∨ (v.outcome = .cont ∧ run n v = .halted reason t)) := by
  rw [run]
  cases step s with
  | next v => cases hv : v.outcome <;> simp [hv]
  | fault f => exact nomatch f
  | refused r => simp

/-- Settles O57: by induction on the fuel, step by step. -/
theorem moreFuelChangesNoHalt : Obligations.MoreFuelChangesNoHalt := by
  intro n k s t reason h
  induction n generalizing s with
  | zero => cases h
  | succ n ih =>
    obtain ⟨v, hstep, hend⟩ := run_succ_eq_halted_iff.1 h
    rw [Nat.succ_add, run_succ_eq_halted_iff]
    exact ⟨v, hstep, hend.imp_right (And.imp_right (ih v))⟩

end Sys2Proof.Machine
end

section
/-! The shift instructions (spec/42_shift.md R160 to R162). Each is one use of the ALU with `shamt` as the second operand,
and what the ALU gives is arithmetic on `R[rt]` by the readings of the shifts above. -/

namespace Sys2Proof.Machine

/-- With a valid code the engine's use of the ALU writes the destination and does nothing else (R111). -/
theorem State.aluTo_writesReg {s : State} {x y z : Word} {code : AluCode} (d : RegIx)
    (h : alu s.cfg x y code = ⟨z, false⟩) : WritesReg s (s.aluTo d x y code) d z := by
  rw [State.aluTo_eq d h]
  exact s.setReg_writesReg d z

/-- A shift amount is below 32, so the ALU shifts by the whole of it (R118). -/
@[simp] theorem shiftAmount_shamtOperand (sh : Shamt) : shiftAmount (shamtOperand sh) = sh.toNat := by
  have hlt : sh.toNat < 32 := sh.isLt
  rw [shiftAmount_eq_mod, shamtOperand, BitVec.toNat_setWidth]
  omega

/-- Settles O24: one use of the ALU each, with the shift read as multiplication or floor division. -/
theorem shiftInstructionsWriteRd : Obligations.ShiftInstructionsWriteRd := by
  intro s rs rt rd sh
  rw [← shiftLeft_eq_ofNat, ← ushiftRight_eq_ofNat, ← sshiftRight_eq_ofInt, ← shiftAmount_shamtOperand]
  exact ⟨⟨_, rfl, State.aluTo_writesReg rd (alu_sll s.cfg _ _)⟩,
    ⟨_, rfl, State.aluTo_writesReg rd (alu_srl s.cfg _ _)⟩,
    ⟨_, rfl, State.aluTo_writesReg rd (alu_sra s.cfg _ _)⟩⟩

end Sys2Proof.Machine
end

section
/-! The arithmetic and logic instructions (spec/43_arith_logic.md R170 to R176) and SLTI, which shares SLT's comparison
(spec/45_immediate.md R202). Each is one use of the ALU, and a word of the default record decodes to the instruction it
encodes. -/

namespace Sys2Proof.Machine

/-- A word that the default record encodes an instruction with decodes to it. -/
theorem decode_of_encode_defaultEncoding {i : Instr} {w : Word} (h : encode defaultEncoding i = w) :
    decode defaultEncoding w = .ok i :=
  h ▸ decodeOfEncodeIsTheInstruction defaultEncoding i (by decide)

/-- Settles O25: one use of the ALU each, whose sum and difference are read modulo 2^32. -/
theorem addAndSubWriteTheWrappedResult : Obligations.AddAndSubWriteTheWrappedResult := by
  intro s rs rt rd sh
  rw [← add_eq_ofNat, ← sub_eq_ofInt_toNat]
  exact ⟨decode_of_encode_defaultEncoding (packR_defaultEncoding 0x20 rs rt rd sh),
    decode_of_encode_defaultEncoding (packR_defaultEncoding 0x22 rs rt rd sh),
    ⟨_, rfl, State.aluTo_writesReg rd (alu_add s.cfg _ _)⟩,
    ⟨_, rfl, State.aluTo_writesReg rd (alu_sub s.cfg _ _)⟩⟩

/-- Settles O26: one use of the ALU each. -/
theorem logicInstructionsWriteRd : Obligations.LogicInstructionsWriteRd := by
  intro s rs rt rd sh
  exact ⟨decode_of_encode_defaultEncoding (packR_defaultEncoding 0x24 rs rt rd sh),
    decode_of_encode_defaultEncoding (packR_defaultEncoding 0x25 rs rt rd sh),
    decode_of_encode_defaultEncoding (packR_defaultEncoding 0x26 rs rt rd sh),
    decode_of_encode_defaultEncoding (packR_defaultEncoding 0x27 rs rt rd sh),
    ⟨_, rfl, State.aluTo_writesReg rd (alu_and s.cfg _ _)⟩,
    ⟨_, rfl, State.aluTo_writesReg rd (alu_or s.cfg _ _)⟩,
    ⟨_, rfl, State.aluTo_writesReg rd (alu_xor s.cfg _ _)⟩,
    ⟨_, rfl, State.aluTo_writesReg rd (alu_nor s.cfg _ _)⟩⟩

theorem aluSetLess_of_unsigned {c : Config} (h : c.aluSltSigned = false) (x y : Word) :
    aluSetLess c x y = if x.toNat < y.toNat then 1 else 0 := by
  simp [aluSetLess, aluLess, lessThan, h]

theorem aluSetLess_of_signed {c : Config} (h : c.aluSltSigned = true) (x y : Word) :
    aluSetLess c x y = if x.toInt < y.toInt then 1 else 0 := by
  simp [aluSetLess, aluLess, lessThan, h]

/-- Sign extension keeps the immediate's two's-complement value (R15). -/
theorem sext32_toInt (imm : Imm16) : (sext32 imm).toInt = imm.toInt :=
  BitVec.toInt_signExtend_of_le (by decide)

/-- SLT completes and writes what the ALU's comparison gives. -/
theorem exec_slt_writesReg (s : State) (rs rt rd : RegIx) (sh : Shamt) :
    ∃ t, exec (.slt rs rt rd sh) s = .next t ∧ WritesReg s t rd (aluSetLess s.cfg (s.reg rs) (s.reg rt)) :=
  ⟨_, rfl, State.aluTo_writesReg rd (alu_slt s.cfg _ _)⟩

/-- SLTI completes and writes what the ALU's comparison with the sign-extended immediate gives. -/
theorem exec_slti_writesReg (s : State) (rs rt : RegIx) (imm : Imm16) :
    ∃ t, exec (.slti rs rt imm) s = .next t ∧ WritesReg s t rt (aluSetLess s.cfg (s.reg rs) (sext32 imm)) :=
  ⟨_, rfl, State.aluTo_writesReg rt (alu_slt s.cfg _ _)⟩

/-- Settles O27: the comparison is the one the setting selects, and sign extension keeps the immediate's value. -/
theorem setLessInstructionsWriteOneOrZero : Obligations.SetLessInstructionsWriteOneOrZero := by
  intro s rs rt rd sh imm
  have hslt := exec_slt_writesReg s rs rt rd sh
  have hslti := exec_slti_writesReg s rs rt imm
  refine ⟨fun hunsigned => ?_, fun hsigned => ?_⟩
  · rw [aluSetLess_of_unsigned hunsigned] at hslt hslti
    exact ⟨hslt, hslti⟩
  · rw [aluSetLess_of_signed hsigned] at hslt hslti
    rw [sext32_toInt] at hslti
    exact ⟨hslt, hslti⟩

end Sys2Proof.Machine
end

section
/-! Multiply and the moves from `HI` and `LO` (spec/44_muldiv_hilo.md R190, R192, R193). What `MUL` leaves in `HI:LO` is
read off facts about the 64-bit product: its value under each setting, its low word, and where the settings agree. -/

namespace Sys2Proof.Machine

/-! ### The 64-bit product -/

/-- A 64-bit value is put together again from the halves `MUL` splits it into. -/
theorem toNat_halves (p : BitVec 64) :
    (p.extractLsb' 32 32).toNat * 2 ^ 32 + (p.extractLsb' 0 32).toNat = p.toNat := by
  have hlt : p.toNat < 2 ^ 64 := p.isLt
  rw [BitVec.extractLsb'_toNat, BitVec.extractLsb'_toNat, Nat.shiftRight_eq_div_pow, Nat.shiftRight_zero]
  omega

/-- Two unsigned 32-bit values multiply without leaving 64 bits. -/
theorem product_unsigned_toNat (x y : Word) : (product false x y).toNat = x.toNat * y.toNat := by
  have hlt : x.toNat * y.toNat < 2 ^ 32 * 2 ^ 32 := Nat.mul_lt_mul'' x.isLt y.isLt
  exact (BitVec.toNat_ofNat _ 64).trans (Nat.mod_eq_of_lt hlt)

theorem product_signed_toNat (x y : Word) : ((product true x y).toNat : Int) = (x.toInt * y.toInt) % 2 ^ 64 := by
  have hnonneg : 0 ≤ (x.toInt * y.toInt) % 2 ^ 64 := Int.emod_nonneg _ (by decide)
  exact (congrArg Int.ofNat (BitVec.toNat_ofInt _)).trans (Int.toNat_of_nonneg hnonneg)

/-- Cutting an integer's 64 bits to 32 gives its 32 bits. -/
theorem setWidth_ofInt (i : Int) : (BitVec.ofInt 64 i).setWidth 32 = BitVec.ofInt 32 i := by
  refine BitVec.eq_of_toNat_eq ?_
  rw [BitVec.toNat_setWidth, BitVec.toNat_ofInt, BitVec.toNat_ofInt]
  omega

theorem mul_eq_ofNat (x y : Word) : x * y = BitVec.ofNat 32 (x.toNat * y.toNat) := rfl

theorem mul_eq_ofInt (x y : Word) : x * y = BitVec.ofInt 32 (x.toInt * y.toInt) :=
  BitVec.eq_of_toInt_eq (by rw [BitVec.toInt_mul, BitVec.toInt_ofInt])

/-- The low word is the 32-bit product, which both readings of the factors give. -/
theorem product_low (signed : Bool) (x y : Word) :
    (product signed x y).extractLsb' 0 32 = BitVec.ofNat 32 (x.toNat * y.toNat) := by
  rw [← BitVec.setWidth_eq_extractLsb' (by decide)]
  cases signed with
  | false => exact BitVec.setWidth_ofNat_of_le (by decide) _
  | true => exact (setWidth_ofInt _).trans ((mul_eq_ofInt x y).symm.trans (mul_eq_ofNat x y))

/-- The settings agree on factors below `2 ^ 31`, whose two readings are equal. -/
theorem product_eq_of_lt (signed : Bool) {x y : Word} (hx : x.toNat < 2 ^ 31) (hy : y.toNat < 2 ^ 31) :
    product signed x y = product false x y := by
  cases signed with
  | false => rfl
  | true =>
    have hxInt : x.toInt = x.toNat := BitVec.toInt_eq_toNat_of_lt (by omega)
    have hyInt : y.toInt = y.toNat := BitVec.toInt_eq_toNat_of_lt (by omega)
    simp only [product, hxInt, hyInt, if_true, Bool.false_eq_true, if_false]
    exact BitVec.ofInt_natCast 64 (x.toNat * y.toNat)

theorem product_high_of_lt (signed : Bool) {x y : Word} (hx : x.toNat < 2 ^ 31) (hy : y.toNat < 2 ^ 31) :
    (product signed x y).extractLsb' 32 32 = BitVec.ofNat 32 (x.toNat * y.toNat / 2 ^ 32) := by
  rw [product_eq_of_lt signed hx hy, BitVec.extractLsb', product_unsigned_toNat, Nat.shiftRight_eq_div_pow]

/-! ### The instructions -/

/-- Writing `HI` and `LO` writes nothing else. -/
theorem State.setHiLo_leaves (s : State) (h l : Word) :
    Leaves s (s.setHiLo h l) s.reg s.pc h l s.mem.byte s.sink s.outcome :=
  ⟨fun _ => rfl, rfl, rfl, rfl, fun _ => rfl, rfl, rfl, rfl, rfl, rfl⟩

/-- Settles O28: `MUL` is one write of `HI` and `LO` with the halves of the product. -/
theorem mulSplitsTheFullProduct : Obligations.MulSplitsTheFullProduct := by
  intro s rs rt rd sh
  refine ⟨_, rfl, s.setHiLo_leaves _ _, fun hunsigned => ?_, fun hsigned => ?_, product_low _ _ _,
    product_high_of_lt _⟩
  · rw [State.setHiLo_hi, State.setHiLo_lo, toNat_halves, hunsigned, product_unsigned_toNat]
  · rw [State.setHiLo_hi, State.setHiLo_lo, toNat_halves, hsigned, product_signed_toNat]

/-- Settles O29: each is one register write. -/
theorem moveFromHiAndLoCopy : Obligations.MoveFromHiAndLoCopy := by
  intro s rs rt rd sh
  exact ⟨⟨_, rfl, s.setReg_writesReg rd s.hi⟩, ⟨_, rfl, s.setReg_writesReg rd s.lo⟩⟩

end Sys2Proof.Machine
end

section
/-! The immediate instructions ADDI, ANDI, ORI, XORI and LUI (spec/45_immediate.md R200, R204 to R207). Each is one use of
the ALU with the extended immediate, which is read here as a signed value or as a word put together from two halves. -/

namespace Sys2Proof.Machine

/-- Adding a sign-extended immediate is adding its signed value modulo 2^32, without a trap (R200). -/
theorem add_sext32_eq_ofInt (x : Word) (imm : Imm16) :
    x + sext32 imm = BitVec.ofInt 32 ((x.toNat + imm.toInt) % 2 ^ 32) := by
  refine BitVec.eq_of_toNat_eq ?_
  rw [sext32, BitVec.signExtend, BitVec.toNat_add, BitVec.toNat_ofInt, BitVec.toNat_ofInt]
  omega

/-- Zero extension puts sixteen zero bits above the immediate (R15). -/
theorem zext32_eq_append (imm : Imm16) : zext32 imm = 0#16 ++ imm :=
  BitVec.setWidth_eq_append (by decide)

/-- The shift LUI asks of the ALU puts sixteen zero bits below the immediate (R207). -/
theorem zext32_shiftLeft_sixteen (imm : Imm16) : zext32 imm <<< shiftAmount 16 = imm ++ 0#16 := by
  have h : imm ++ 0#16 = imm.setWidth 32 <<< 16 ||| (0#16).setWidth 32 := by
    rw [← setWidth_append_eq_or, BitVec.setWidth_eq]
  rw [h, BitVec.setWidth_zero, BitVec.or_zero]
  rfl

/-- Settles O31: one use of the ALU each, with the sum read modulo 2^32 and the zero-extended immediate as two halves. -/
theorem immediateInstructionsWriteRt : Obligations.ImmediateInstructionsWriteRt := by
  intro s rs rt imm
  rw [← add_sext32_eq_ofInt, ← zext32_eq_append]
  exact ⟨decode_of_encode_defaultEncoding (packI_defaultEncoding 0x08 rs rt imm),
    decode_of_encode_defaultEncoding (packI_defaultEncoding 0x0C rs rt imm),
    decode_of_encode_defaultEncoding (packI_defaultEncoding 0x0D rs rt imm),
    decode_of_encode_defaultEncoding (packI_defaultEncoding 0x0E rs rt imm),
    ⟨_, rfl, State.aluTo_writesReg rt (alu_add s.cfg _ _)⟩,
    ⟨_, rfl, State.aluTo_writesReg rt (alu_and s.cfg _ _)⟩,
    ⟨_, rfl, State.aluTo_writesReg rt (alu_or s.cfg _ _)⟩,
    ⟨_, rfl, State.aluTo_writesReg rt (alu_xor s.cfg _ _)⟩⟩

/-- Settles O32: one use of the ALU, a left shift by sixteen. -/
theorem luiPutsTheImmediateInTheUpperHalf : Obligations.LuiPutsTheImmediateInTheUpperHalf := by
  intro s rs rt imm
  rw [← zext32_shiftLeft_sixteen]
  exact ⟨_, rfl, State.aluTo_writesReg rt (alu_sll s.cfg _ _)⟩

end Sys2Proof.Machine
end

section
/-! Loads and stores (spec/46_load_store.md R220 to R227). A load or store is one sized access, so what it does is what
the memory answers: it is performed, faults, or is refused. First the shared operations in these three cases, then a
performed access in the bytes of its addresses, then the instructions and the two-instruction program of R227. -/

namespace Sys2Proof.Machine

/-! ### The shared operations by the memory's answer -/

/-- A register write after logged events adds the register to what changed. -/
theorem OnlyLogs.setReg_leaves {s t : State} {events : List ErrorEvent} (h : OnlyLogs s t events) (d : RegIx)
    (v : Word) :
    Leaves s (t.setReg d v) (s.regsWith d v) s.pc s.hi s.lo s.mem.byte (s.sinkWithErrors events) s.outcome := by
  obtain ⟨hreg, hrest⟩ := h
  refine ⟨fun r => ?_, hrest⟩
  rw [State.setReg_reg, hreg, State.regsWith]

section
variable {s : State} {a : Word} {n : Width}

theorem State.loadTo_of_performed (h : Performed s.cfg a n) (d : RegIx) :
    s.loadTo d a n = .next (s.setReg d (s.mem.read a n)) := by
  simp only [State.loadTo, State.memRead_of_performed h]

theorem State.storeTo_of_performed (h : Performed s.cfg a n) (v : Word) :
    s.storeTo a n v = .next (s.setMem (s.mem.write a n v)) := by
  simp only [State.storeTo, State.memWrite_of_performed h]

/-- A faulting load logs, and its destination receives the sentinel whatever the size (R226). -/
theorem State.loadTo_of_faulting (h : FaultingAccess s.cfg a n) (d : RegIx) :
    ∃ t, s.loadTo d a n = .next t ∧
      Leaves s t (s.regsWith d sentinel) s.pc s.hi s.lo s.mem.byte (s.sinkWithErrors [.addressFault .read a n])
        s.outcome := by
  obtain ⟨t, hread, hlogs⟩ := State.memRead_of_faulting h
  exact ⟨_, by simp only [State.loadTo, hread], hlogs.setReg_leaves d sentinel⟩

/-- A faulting store only logs (R226). -/
theorem State.storeTo_of_faulting (h : FaultingAccess s.cfg a n) (v : Word) :
    ∃ t, s.storeTo a n v = .next t ∧ OnlyLogs s t [.addressFault .write a n] := by
  obtain ⟨t, hwrite, hlogs⟩ := State.memWrite_of_faulting h v
  exact ⟨t, by simp only [State.storeTo, hwrite], hlogs⟩

theorem State.loadTo_of_refused (h : RefusedAccess s.cfg a n) (d : RegIx) :
    s.loadTo d a n = .refused (.segmentOverrun .read a n) := by
  simp only [State.loadTo, State.memRead_of_refused h]

theorem State.storeTo_of_refused (h : RefusedAccess s.cfg a n) (v : Word) :
    s.storeTo a n v = .refused (.segmentOverrun .write a n) := by
  simp only [State.storeTo, State.memWrite_of_refused h]

end

/-- A one-byte access overruns nothing, so at a mapped address it is performed. -/
theorem performed_byte_of_mapped {a : Word} (c : Config) (h : mapped a = true) : Performed c a .byte :=
  ⟨h, .inl (overruns_byte a)⟩

/-- Replacing the memory changes nothing but the bytes. -/
theorem State.setMem_leaves {s : State} {m : Memory} {bytes : Word → Byte} (h : ∀ b, m.byte b = bytes b) :
    Leaves s (s.setMem m) s.reg s.pc s.hi s.lo bytes s.sink s.outcome :=
  ⟨fun _ => rfl, rfl, rfl, rfl, h, rfl, rfl, rfl, rfl, rfl⟩

/-! ### A performed access in the bytes of its addresses -/

/-- The four bytes of a word read, by their addresses (R221). -/
theorem Memory.read_word_offsets (m : Memory) (a : Word) :
    m.read a .word = m.byte a ++ m.byte (a + 1) ++ m.byte (a + 2) ++ m.byte (a + 3) := by
  rw [Memory.read_word_numbered, BitVec.add_zero]
  rfl

theorem Memory.read_byte_append (m : Memory) (a : Word) : m.read a .byte = 0#24 ++ m.byte a :=
  (m.read_byte a).trans (BitVec.setWidth_eq_append (by decide))

/-- After a word write each of its four addresses that lies in a segment holds its byte of the value (R224). -/
theorem Memory.byte_write_word {m : Memory} (h : m.wf = true) (a v b : Word) :
    (m.write a .word v).byte b =
      if mapped b = false then 0
      else if b = a then v.extractLsb' 24 8
      else if b = a + 1 then v.extractLsb' 16 8
      else if b = a + 2 then v.extractLsb' 8 8
      else if b = a + 3 then v.extractLsb' 0 8
      else m.byte b := by
  by_cases hm : mapped b = true
  case neg => rw [if_pos (by simpa using hm), Memory.byte_of_not_mapped (by simpa using hm)]
  case pos =>
    simp only [Memory.byte_write h, hm, and_true, Width.bytes, Bool.true_eq_false, if_false]
    by_cases hin : (b - a).toNat < 4
    · -- `b` is one of the four addresses, each with its own byte of `v`.
      rw [if_pos hin]
      have hb := add_toNat_sub a b
      generalize (b - a).toNat = k at hin hb ⊢
      subst hb
      interval_cases k <;> simp [byteOfValue, Width.bytes]
    · have hne (k : Word) (hk : k.toNat < 4) : b ≠ a + k := by bv_omega
      have hfirst : b ≠ a := by simpa using hne 0 (by decide)
      rw [if_neg hin, if_neg hfirst, if_neg (hne 1 (by decide)), if_neg (hne 2 (by decide)), if_neg (hne 3 (by decide))]

/-- A byte write at an address in a segment stores the low byte there and nothing elsewhere (R225). -/
theorem Memory.byte_write_byte {m : Memory} (h : m.wf = true) {a : Word} (ha : mapped a = true) (v b : Word) :
    (m.write a .byte v).byte b = if b = a then v.extractLsb' 0 8 else m.byte b := by
  refine (Memory.byte_setByte h a _ b).trans (if_congr ?_ rfl rfl)
  simp only [ha, and_true]

/-! ### The instructions -/

/-- Settles O33: the three answers to the read, with the effective address as a sum modulo 2^32. -/
theorem loadWordReadsFourBigEndianBytes : Obligations.LoadWordReadsFourBigEndianBytes := by
  intro s rs rt imm ea
  refine ⟨add_sext32_eq_ofInt _ imm, fun h => ⟨_, State.loadTo_of_performed h rt, ?_⟩,
    fun h => State.loadTo_of_faulting h rt, fun h => State.loadTo_of_refused h rt⟩
  rw [← Memory.read_word_offsets]
  exact s.setReg_writesReg rt _

/-- Settles O34: LB and LBU are the same read, which is never refused. -/
theorem byteLoadsZeroExtend : Obligations.ByteLoadsZeroExtend := by
  intro s rs rt imm ea
  refine ⟨rfl, fun h => ?_, fun h => ?_⟩
  · have hload := State.loadTo_of_performed (performed_byte_of_mapped s.cfg h) rt
    rw [← Memory.read_byte_append]
    exact ⟨_, hload, hload, s.setReg_writesReg rt _⟩
  · obtain ⟨t, hload, hleaves⟩ := State.loadTo_of_faulting (n := .byte) (.inl h) rt
    exact ⟨t, hload, hload, hleaves⟩

/-- Settles O35: the three answers to the write. -/
theorem storeWordWritesFourBigEndianBytes : Obligations.StoreWordWritesFourBigEndianBytes := by
  intro s rs rt imm hwf ea
  exact ⟨fun h => ⟨_, State.storeTo_of_performed h _, State.setMem_leaves (Memory.byte_write_word hwf ea _)⟩,
    fun h => State.storeTo_of_faulting h _, fun h => State.storeTo_of_refused h _⟩

/-- Settles O36: a one-byte write is performed or faults, by its address alone. -/
theorem storeByteWritesOneByte : Obligations.StoreByteWritesOneByte := by
  intro s rs rt imm hwf ea
  exact ⟨fun h => ⟨_, State.storeTo_of_performed (performed_byte_of_mapped s.cfg h) _,
      State.setMem_leaves (Memory.byte_write_byte hwf h _)⟩,
    fun h => State.storeTo_of_faulting (.inl h) _⟩

/-! ### Copying a word -/

/-- Writing elsewhere what was read copies the bytes, if every address written lies in a segment (R227). -/
theorem Memory.byte_write_read {m : Memory} (h : m.wf = true) {source target : Word} {n : Width}
    (hmapped : ∀ k < n.bytes, mapped (target + BitVec.ofNat 32 k) = true) (b : Word) :
    (m.write target n (m.read source n)).byte b =
      if (b - target).toNat < n.bytes then m.byte (source + (b - target)) else m.byte b := by
  rw [Memory.byte_write h]
  by_cases hin : (b - target).toNat < n.bytes
  · have hb : mapped b = true := add_toNat_sub target b ▸ hmapped _ hin
    rw [if_pos ⟨hin, hb⟩, if_pos hin, byteOfValue_read _ _ _ hin, BitVec.ofNat_toNat, BitVec.setWidth_eq]
  · rw [if_neg (fun e => hin e.1), if_neg hin]

section
variable {s : State} {w a : Word} {rs rt : RegIx} {imm : Imm16} (hfetch : Performed s.cfg s.pc .word)
  (hword : s.mem.read s.pc .word = w) (hw : w ≠ 0) (hea : effectiveAddress (s.reg rs) imm = a)
  (haccess : Performed s.cfg a .word)
include hfetch hword hw hea haccess

theorem step_lw_of_performed (hdecode : decode s.cfg.encoding w = .ok (.lw rs rt imm)) :
    step s = .next (s.afterFetch.setReg rt (s.mem.read a .word)) := by
  subst hea
  exact (step_of_decoded hfetch hword hw hdecode).trans (State.loadTo_of_performed (s := s.afterFetch) haccess rt)

theorem step_sw_of_performed (hdecode : decode s.cfg.encoding w = .ok (.sw rs rt imm)) :
    step s = .next (s.afterFetch.setMem (s.mem.write a .word (s.reg rt))) := by
  subst hea
  exact (step_of_decoded hfetch hword hw hdecode).trans (State.storeTo_of_performed (s := s.afterFetch) haccess _)

end

/-- Settles O58: a load, then a store of the register it wrote, four bytes further on; the eight bytes lie in one
segment, so both accesses are performed and every byte stored has a place. -/
theorem loadThenStoreCopiesAWordForward : Obligations.LoadThenStoreCopiesAWordForward := by
  intro s hwf henc hfetch hfetch' hword hword' ha hend
  have hload : decode s.cfg.encoding 0x8D500000 = .ok (.lw 10 16 0) := henc ▸ by decide
  have hstore : decode s.cfg.encoding 0xAD500004 = .ok (.sw 10 16 4) := henc ▸ by decide
  have hsource : Performed s.cfg (s.reg 10) .word :=
    ⟨ha, .inl (decide_eq_false (by simp only [Width.bytes, segSize]; omega))⟩
  have htarget : Performed s.cfg (s.reg 10 + 4) .word :=
    performed_add (n := .word) (k := 4) ha (by simp only [Width.bytes]; omega)
  have hfirst := step_lw_of_performed hfetch hword (by decide) (BitVec.add_zero _) hsource hload
  generalize hu : s.afterFetch.setReg 16 (s.mem.read (s.reg 10) .word) = u at hfirst
  have hreg (r : RegIx) : u.reg r = if r = 16 then s.mem.read (s.reg 10) .word else s.reg r :=
    hu ▸ State.setReg_reg _ _ _ _
  have hbase : effectiveAddress (u.reg 10) 4 = s.reg 10 + 4 := by rw [hreg 10]; rfl
  have hsecond : step u = .next (u.afterFetch.setMem (u.mem.write (s.reg 10 + 4) .word (u.reg 16))) := by
    subst hu
    exact step_sw_of_performed hfetch' hword' (by decide) hbase htarget hstore
  rw [hreg 16, if_pos rfl] at hsecond
  refine ⟨u, _, hfirst, hsecond, hreg, ?_⟩
  subst hu
  refine ⟨BitVec.add_assoc s.pc 4 4, rfl, rfl, fun b => ?_, rfl, rfl, rfl, rfl⟩
  have hplaces (k : Nat) (hk : k < 4) : mapped (s.reg 10 + 4 + BitVec.ofNat 32 k) = true := by
    have hm := (mapped_add (k := 4 + k) ha (by omega)).2 (by omega)
    rwa [BitVec.ofNat_add, ← BitVec.add_assoc] at hm
  have hplace : b - 4 = s.reg 10 + (b - (s.reg 10 + 4)) := by ring
  rw [hplace]
  exact Memory.byte_write_read (n := .word) hwf hplaces b

end Sys2Proof.Machine
end

section
/-! Numerals (spec/49_decoder_encoder.md R271, R278, R284): what is printed is read back as the same number, because no
numeral holds a character that would be taken for the `x` of `0x` or for a sign. -/

namespace Sys2Proof.Machine

theorem digitValue_digitChar {base d : Nat} (hbase : base ≤ 16) (hd : d < base) :
    digitValue base (digitChar d) = some d := by
  have hd16 : d < 16 := hd.trans_le hbase
  interval_cases d <;> simp [digitValue, digitChar, hd]

theorem parseDigits_append (base acc : Nat) (xs ys : Text) :
    parseDigits base acc (xs ++ ys) = (parseDigits base acc xs).bind fun n => parseDigits base n ys := by
  induction xs generalizing acc with
  | nil => rfl
  | cons c cs ih =>
    rw [List.cons_append, parseDigits, parseDigits]
    cases digitValue base c with
    | none => rfl
    | some d => exact ih _

/-- Reading the digits, most significant first, gives the number back. -/
theorem parseDigits_digitsRev {base : Nat} (hbase : 1 < base ∧ base ≤ 16) {fuel n : Nat} (hfuel : n < fuel) :
    parseDigits base 0 (digitsRev base fuel n).reverse = some n := by
  obtain ⟨hlow, hhigh⟩ := hbase
  induction fuel generalizing n with
  | zero => exact absurd hfuel n.not_lt_zero
  | succ fuel ih =>
    have hdigit : digitValue base (digitChar (n % base)) = some (n % base) :=
      digitValue_digitChar hhigh (n.mod_lt (by omega))
    have hrest : parseDigits base 0 (if n < base then [] else digitsRev base fuel (n / base)).reverse =
        some (n / base) := by
      split
      case isTrue hn => rw [Nat.div_eq_of_lt hn]; rfl
      case isFalse hn =>
        have hsmaller : n / base < n := Nat.div_lt_self (by omega) hlow
        exact ih (by omega)
    simp only [digitsRev, List.reverse_cons, parseDigits_append, hrest, Option.bind_some, parseDigits, hdigit,
      Nat.div_add_mod']

theorem parseDigits_printNat {base : Nat} (hbase : 1 < base ∧ base ≤ 16) (n : Nat) :
    parseDigits base 0 (printNat base n) = some n :=
  parseDigits_digitsRev hbase n.lt_succ_self

theorem mem_digitsRev {base : Nat} (hbase : 0 < base) {fuel n : Nat} {c : Char} (h : c ∈ digitsRev base fuel n) :
    ∃ d < base, c = digitChar d := by
  induction fuel generalizing n with
  | zero => cases h
  | succ fuel ih =>
    rcases List.mem_cons.1 h with rfl | h
    · exact ⟨_, n.mod_lt hbase, rfl⟩
    · split at h
      · cases h
      · exact ih h

theorem mem_printNat {base n : Nat} (hbase : 0 < base ∧ base ≤ 16) {c : Char} (h : c ∈ printNat base n) :
    ∃ d < 16, c = digitChar d := by
  obtain ⟨d, hd, rfl⟩ := mem_digitsRev hbase.1 (List.mem_reverse.1 h)
  exact ⟨d, hd.trans_le hbase.2, rfl⟩

/-- A character that is no digit does not stand in a decimal numeral. -/
theorem not_mem_printNat {c : Char} (hc : ∀ d < 16, digitChar d ≠ c) (n : Nat) : c ∉ printNat 10 n := fun h => by
  obtain ⟨d, hd, rfl⟩ := mem_printNat (by decide) h
  exact hc d hd rfl

theorem printNat_ne_nil (base n : Nat) : printNat base n ≠ [] := by
  simp [printNat, digitsRev]

/-- A text without `x` is read as decimal (R284). -/
theorem parseNat_of_no_x {t : Text} (hne : t ≠ []) (hx : 'x' ∉ t) : parseNat t = parseDigits 10 0 t := by
  unfold parseNat
  split
  · exact absurd rfl hne
  · exact absurd (by simp) hx
  · exact absurd (by simp) hx
  · rfl

theorem parseNat_printNat (n : Nat) : parseNat (printNat 10 n) = some n := by
  rw [parseNat_of_no_x (printNat_ne_nil 10 n) (not_mem_printNat (by decide) n), parseDigits_printNat (by decide)]

/-- `0x` and a hexadecimal numeral are read as the number (R278, R284). -/
theorem parseNat_hex (n : Nat) : parseNat ('0' :: 'x' :: printNat 16 n) = some n := by
  have hdigits := parseDigits_printNat (base := 16) (by decide) n
  cases hp : printNat 16 n with
  | nil => exact absurd hp (printNat_ne_nil 16 n)
  | cons c cs => rwa [hp] at hdigits

/-- A literal after a `-` is the negated unsigned literal (R284). -/
theorem parseInt_minus {t : Text} {n : Nat} (h : parseNat t = some n) : parseInt ('-' :: t) = some (-(n : Int)) := by
  rw [parseInt, h]
  rfl

/-- A text that begins with no `-` is read as an unsigned literal (R284). -/
theorem parseInt_of_no_minus {t : Text} {n : Nat} (hminus : t.head? ≠ some '-') (h : parseNat t = some n) :
    parseInt t = some (n : Int) := by
  unfold parseInt
  split
  · exact absurd rfl hminus
  · rw [h]
    rfl

theorem parseInt_printNat (n : Nat) : parseInt (printNat 10 n) = some (n : Int) :=
  parseInt_of_no_minus (fun h => not_mem_printNat (by decide) n (List.mem_of_mem_head? h)) (parseNat_printNat n)

/-- Printed decimal numbers are read back (R271, R284). -/
theorem parseInt_printInt (i : Int) : parseInt (printInt i) = some i := by
  unfold printInt
  split
  case isTrue hneg => rw [parseInt_minus (parseNat_printNat _), Int.ofNat_natAbs_of_nonpos hneg.le, neg_neg]
  case isFalse hpos => rw [parseInt_printNat, Int.natAbs_of_nonneg (not_lt.1 hpos)]

theorem parseImm_printInt (imm : Imm16) : parseImm (printInt imm.toInt) = some imm := by
  rw [parseImm, parseInt_printInt, Option.map_some, BitVec.ofInt_toInt]

theorem parseShamt_printNat (sh : Shamt) : parseShamt (printNat 10 sh.toNat) = some sh := by
  have hrange : (0 : Int) ≤ (sh.toNat : Int) ∧ (sh.toNat : Int) ≤ 31 := by omega
  rw [parseShamt, parseInt_printNat]
  simp [hrange]

theorem parseTarget_hex (target : Target) : parseTarget ('0' :: 'x' :: printNat 16 target.toNat) = some target := by
  rw [parseTarget, parseInt_of_no_minus (by simp) (parseNat_hex _)]
  simp

end Sys2Proof.Machine
end

section
/-! The tokens of a line (spec/49_decoder_encoder.md R270, R281): a mnemonic, a register name and a printed operand are
one token each, so preprocessing gives back the tokens a line was joined from; and the operands that are no numerals are
read back. -/

namespace Sys2Proof.Machine

/-! ### Tokens -/

/-- A character preprocessing keeps, and that ends no token (R281). -/
def plainChar (c : Char) : Bool :=
  !isBlank c && normalChar c == c

/-- A text that is one token of a line as it stands (R281). -/
def PlainToken (t : Text) : Prop :=
  t ≠ [] ∧ ∀ c ∈ t, plainChar c = true

theorem isBlank_of_plainChar {c : Char} (h : plainChar c = true) : isBlank c = false := by
  simp only [plainChar, Bool.and_eq_true, Bool.not_eq_true'] at h
  exact h.1

theorem normalChar_of_plainChar {c : Char} (h : plainChar c = true) : normalChar c = c := by
  simp only [plainChar, Bool.and_eq_true, beq_iff_eq] at h
  exact h.2

theorem plainChar_digitChar {d : Nat} (h : d < 16) : plainChar (digitChar d) = true := by
  interval_cases d <;> decide

section
variable {t : Text} (ht : ∀ c ∈ t, plainChar c = true)
include ht

/-- Characters of one token are collected before the rest of the line is read. -/
theorem tokensFrom_append (cur rest : Text) : tokensFrom cur (t ++ rest) = tokensFrom (t.reverse ++ cur) rest := by
  induction t generalizing cur with
  | nil => rfl
  | cons c cs ih =>
    obtain ⟨hc, hcs⟩ := List.forall_mem_cons.1 ht
    simp [tokensFrom, isBlank_of_plainChar hc, ih hcs]

theorem map_normalChar : t.map normalChar = t :=
  (List.map_congr_left (g := id) fun c hc => normalChar_of_plainChar (ht c hc)).trans t.map_id

end

theorem PlainToken.tokensFrom_space {t : Text} (h : PlainToken t) (rest : Text) :
    tokensFrom [] (t ++ ' ' :: rest) = t :: tokensFrom [] rest := by
  obtain ⟨hne, ht⟩ := h
  rw [tokensFrom_append ht, List.append_nil, tokensFrom]
  simp [isBlank, hne]

theorem PlainToken.tokensFrom_self {t : Text} (h : PlainToken t) : tokensFrom [] t = [t] := by
  obtain ⟨hne, ht⟩ := h
  have hcollect := tokensFrom_append ht [] []
  rw [List.append_nil, List.append_nil] at hcollect
  rw [hcollect, tokensFrom]
  simp [hne]

/-- Preprocessing is the inverse of separating by spaces, for texts that are tokens (R270, R281). -/
theorem lineTokens_joinTokens {ts : List Text} (h : ∀ t ∈ ts, PlainToken t) : lineTokens (joinTokens ts) = ts := by
  induction ts with
  | nil => rfl
  | cons t us ih =>
    obtain ⟨ht, hus⟩ := List.forall_mem_cons.1 h
    cases us with
    | nil =>
      rw [joinTokens, lineTokens, map_normalChar ht.2]
      exact ht.tokensFrom_self
    | cons u us =>
      have hspace : normalChar ' ' = ' ' := by decide
      rw [joinTokens, lineTokens, List.map_append, List.map_cons, map_normalChar ht.2, hspace, ht.tokensFrom_space]
      exact congrArg (t :: ·) (ih hus)

theorem plainToken_printNat {base : Nat} (hbase : 0 < base ∧ base ≤ 16) (n : Nat) : PlainToken (printNat base n) := by
  refine ⟨printNat_ne_nil base n, fun c hc => ?_⟩
  obtain ⟨d, hd, rfl⟩ := mem_printNat hbase hc
  exact plainChar_digitChar hd

theorem PlainToken.cons {t : Text} (h : PlainToken t) {c : Char} (hc : plainChar c = true) : PlainToken (c :: t) :=
  ⟨List.cons_ne_nil c t, List.forall_mem_cons.2 ⟨hc, h.2⟩⟩

theorem PlainToken.append {t u : Text} (ht : PlainToken t) (hu : PlainToken u) : PlainToken (t ++ u) :=
  ⟨List.append_ne_nil_of_left_ne_nil ht.1 u, List.forall_mem_append.2 ⟨ht.2, hu.2⟩⟩

theorem plainToken_printInt (i : Int) : PlainToken (printInt i) := by
  have hdigits := plainToken_printNat (base := 10) (by decide) i.natAbs
  unfold printInt
  split
  · exact hdigits.cons (by decide)
  · exact hdigits

theorem plainToken_hex (n : Nat) : PlainToken ('0' :: 'x' :: printNat 16 n) :=
  ((plainToken_printNat (by decide) n).cons (by decide)).cons (by decide)

theorem memOperand_eq_append (imm : Imm16) (base : Text) :
    memOperand imm base = printInt imm.toInt ++ '(' :: (base ++ [')']) := by
  simp [memOperand]

theorem plainToken_memOperand (imm : Imm16) {base : Text} (h : PlainToken base) : PlainToken (memOperand imm base) := by
  have hclose : PlainToken [')'] := ⟨nofun, List.all_eq_true.1 rfl⟩
  rw [memOperand_eq_append]
  exact (plainToken_printInt imm.toInt).append ((h.append hclose).cons (by decide))

theorem plainToken_functText (o : FunctOp) : PlainToken (functText o) := by
  cases o <;> exact ⟨nofun, List.all_eq_true.1 rfl⟩

theorem plainToken_primaryText (o : PrimaryOp) : PlainToken (primaryText o) := by
  cases o <;> exact ⟨nofun, List.all_eq_true.1 rfl⟩

/-! ### Registers -/

section
variable {c : Config} (h : c.wf = true)
include h

theorem plainToken_regText (i : RegIx) : PlainToken (regText c.regNames i) := by
  have hmem := List.mem_of_getElem? ((regNames_eq_regText_iff h i i).2 rfl)
  have hname := (Config.regNames_wf h).2.2 _ hmem
  simp only [regNameWf, Bool.and_eq_true, Bool.not_eq_true', List.isEmpty_eq_false_iff, List.all_eq_true] at hname
  obtain ⟨hne, hchars⟩ := hname
  refine ⟨hne, fun ch hch => ?_⟩
  obtain ⟨⟨⟨hblank, hnormal⟩, -⟩, -⟩ := hchars ch hch
  simp only [plainChar, hblank, hnormal, Bool.not_false, Bool.and_self]

/-- A register's name is read as its index, since no other register has it (R283). -/
theorem parseReg_regText (i : RegIx) : parseReg c.regNames (regText c.regNames i) = some i := by
  have hindex : c.regNames.idxOf? (regText c.regNames i) = some i.toNat := by
    obtain ⟨hi, hname⟩ := List.getElem?_eq_some_iff.1 ((regNames_eq_regText_iff h i i).2 rfl)
    refine List.idxOf?_eq_some_iff.2 ⟨hi, hname, fun j hj e => ?_⟩
    have hj32 : j < 2 ^ 5 := hj.trans i.isLt
    have hsame := (regNames_eq_regText_iff h (BitVec.ofNatLT j hj32) i).1
      (List.getElem?_eq_some_iff.2 ⟨hj.trans hi, e⟩)
    subst hsame
    exact absurd hj (lt_irrefl _)
  rw [parseReg, hindex, Option.map_some, BitVec.ofNat_toNat, BitVec.setWidth_eq]

end

/-- A printed number holds no parenthesis. -/
theorem paren_not_mem_printInt (i : Int) : '(' ∉ printInt i := by
  have hdigits : '(' ∉ printNat 10 i.natAbs := not_mem_printNat (by decide) i.natAbs
  unfold printInt
  split
  · simpa using hdigits
  · exact hdigits

/-- A load or store operand falls apart at its first parenthesis (R276, R285). -/
theorem splitMemOperand_memOperand (imm : Imm16) (base : Text) :
    splitMemOperand (memOperand imm base) = some (printInt imm.toInt, base) := by
  have hopen : ∀ ch ∈ printInt imm.toInt, (ch != '(') = true := fun ch hch => by
    rw [bne_iff_ne]
    rintro rfl
    exact paren_not_mem_printInt _ hch
  rw [splitMemOperand, memOperand_eq_append, List.dropWhile_append_of_pos hopen, List.takeWhile_append_of_pos hopen]
  simp

end Sys2Proof.Machine
end

section
/-! The Encoder and the Decoder on each other's text (spec/49_decoder_encoder.md R277, R282 to R292). Every family reads
the operands it is printed with, so a disassembled word assembles to the instruction without its unprinted fields; and
no family sets such a field, so the disassembly of an assembled word assembles to that word. -/

namespace Sys2Proof.Machine

/-! ### The twelve families on printed tokens -/

theorem functNamed_functText {ops : List FunctOp} (hops : (ops.map functText).Nodup) {o : FunctOp} (ho : o ∈ ops) :
    functNamed ops (functText o) = some o := by
  simpa only [functNamed, beq_eq_decide] using find?_key_of_nodup hops ho

theorem primaryNamed_primaryText {ops : List PrimaryOp} (hops : (ops.map primaryText).Nodup) {o : PrimaryOp}
    (ho : o ∈ ops) : primaryNamed ops (primaryText o) = some o := by
  simpa only [primaryNamed, beq_eq_decide] using find?_key_of_nodup hops ho

section
variable {names : List Text} {d a t n : Text} {rs rt rd : RegIx} {shamt : Shamt} {imm : Imm16} {target : Target}

theorem assembleTokens_shift {o : FunctOp} (ho : o ∈ [FunctOp.sll, .srl, .sra]) (hd : parseReg names d = some rd)
    (ht : parseReg names t = some rt) (hn : parseShamt n = some shamt) :
    assembleTokens names [functText o, d, t, n] =
      some (instrOfFunct { noFields with rd := rd, rt := rt, shamt := shamt } o) := by
  have hfamily : assembleTokens names [functText o, d, t, n] = (asmShift names [functText o, d, t, n]).join := by
    fin_cases ho <;> rfl
  rw [hfamily, asmShift, functNamed_functText (by decide) ho]
  simp only [hd, ht, hn, Option.map_some, Option.join_some]

theorem assembleTokens_jr (ha : parseReg names a = some rs) :
    assembleTokens names [functText .jr, a] = some (instrOfFunct { noFields with rs := rs } .jr) := by
  have hfamily : assembleTokens names [functText .jr, a] = (asmJr names [functText .jr, a]).join := rfl
  rw [hfamily, asmJr, functNamed_functText (by decide) (by decide), ha]
  rfl

theorem assembleTokens_moveFrom {o : FunctOp} (ho : o ∈ [FunctOp.mfhi, .mflo]) (hd : parseReg names d = some rd) :
    assembleTokens names [functText o, d] = some (instrOfFunct { noFields with rd := rd } o) := by
  have hfamily : assembleTokens names [functText o, d] = (asmMoveFrom names [functText o, d]).join := by
    fin_cases ho <;> rfl
  rw [hfamily, asmMoveFrom, functNamed_functText (by decide) ho, hd]
  rfl

theorem assembleTokens_three {o : FunctOp}
    (ho : o ∈ [FunctOp.add, .sub, .and, .or, .xor, .nor, .slt, .div, .mul]) (hd : parseReg names d = some rd)
    (ha : parseReg names a = some rs) (ht : parseReg names t = some rt) :
    assembleTokens names [functText o, d, a, t] =
      some (instrOfFunct { noFields with rd := rd, rs := rs, rt := rt } o) := by
  have hfamily : assembleTokens names [functText o, d, a, t] =
      (asmThree [.add, .sub, .and, .or, .xor, .nor, .slt, .div, .mul] names [functText o, d, a, t]).join := by
    fin_cases ho <;> rfl
  rw [hfamily, asmThree, functNamed_functText (by decide) ho]
  simp only [hd, ha, ht, Option.map_some, Option.join_some]

theorem assembleTokens_jump {o : PrimaryOp} (ho : o ∈ [PrimaryOp.j, .jal]) (hn : parseTarget n = some target) :
    assembleTokens names [primaryText o, n] = some (instrOfPrimary { noFields with target := target } o) := by
  have hfamily : assembleTokens names [primaryText o, n] = (asmJump [primaryText o, n]).join := by
    fin_cases ho <;> rfl
  rw [hfamily, asmJump, primaryNamed_primaryText (by decide) ho, hn]
  rfl

theorem assembleTokens_bltz (ha : parseReg names a = some rs) (hn : parseImm n = some imm) :
    assembleTokens names [primaryText .bltz, a, n] =
      some (instrOfPrimary { noFields with rs := rs, imm := imm } .bltz) := by
  have hfamily : assembleTokens names [primaryText .bltz, a, n] = (asmBltz names [primaryText .bltz, a, n]).join := rfl
  rw [hfamily, asmBltz, primaryNamed_primaryText (by decide) (by decide)]
  simp only [ha, hn, Option.map_some, Option.join_some]

theorem assembleTokens_branch {o : PrimaryOp} (ho : o ∈ [PrimaryOp.beq, .bne]) (ha : parseReg names a = some rs)
    (ht : parseReg names t = some rt) (hn : parseImm n = some imm) :
    assembleTokens names [primaryText o, a, t, n] =
      some (instrOfPrimary { noFields with rs := rs, rt := rt, imm := imm } o) := by
  have hfamily : assembleTokens names [primaryText o, a, t, n] = (asmBranch names [primaryText o, a, t, n]).join := by
    fin_cases ho <;> rfl
  rw [hfamily, asmBranch, primaryNamed_primaryText (by decide) ho]
  simp only [ha, ht, hn, Option.map_some, Option.join_some]

theorem assembleTokens_immediate {o : PrimaryOp}
    (ho : o ∈ [PrimaryOp.addi, .addiu, .slti, .sltiu, .andi, .ori, .xori]) (ht : parseReg names t = some rt)
    (ha : parseReg names a = some rs) (hn : parseImm n = some imm) :
    assembleTokens names [primaryText o, t, a, n] =
      some (instrOfPrimary { noFields with rs := rs, rt := rt, imm := imm } o) := by
  have hfamily : assembleTokens names [primaryText o, t, a, n] =
      (asmImmediate names [primaryText o, t, a, n]).join := by
    fin_cases ho <;> rfl
  rw [hfamily, asmImmediate, primaryNamed_primaryText (by decide) ho]
  simp only [ht, ha, hn, Option.map_some, Option.join_some]

theorem assembleTokens_lui (ht : parseReg names t = some rt) (hn : parseImm n = some imm) :
    assembleTokens names [primaryText .lui, t, n] =
      some (instrOfPrimary { noFields with rt := rt, imm := imm } .lui) := by
  have hfamily : assembleTokens names [primaryText .lui, t, n] = (asmLui names [primaryText .lui, t, n]).join := rfl
  rw [hfamily, asmLui, primaryNamed_primaryText (by decide) (by decide)]
  simp only [ht, hn, Option.map_some, Option.join_some]

theorem assembleTokens_loadStore {o : PrimaryOp} (ho : o ∈ [PrimaryOp.lw, .sw, .lb, .sb, .lbu]) {operand : Text}
    (hsplit : splitMemOperand operand = some (n, a)) (ht : parseReg names t = some rt) (hn : parseImm n = some imm)
    (ha : parseReg names a = some rs) :
    assembleTokens names [primaryText o, t, operand] =
      some (instrOfPrimary { noFields with rs := rs, rt := rt, imm := imm } o) := by
  have hfamily : assembleTokens names [primaryText o, t, operand] =
      (asmLoadStore names [primaryText o, t, operand]).join := by
    fin_cases ho <;> rfl
  rw [hfamily, asmLoadStore, primaryNamed_primaryText (by decide) ho]
  simp only [hsplit, ht, hn, ha, Option.map_some, Option.join_some]

end

/-! ### Assembling what was printed -/

/-- The instruction with every field its text does not name set to 0 (R277, R287). -/
def clearUnprinted : Instr → Instr
  | .sll _ rt rd shamt => .sll 0 rt rd shamt
  | .srl _ rt rd shamt => .srl 0 rt rd shamt
  | .sra _ rt rd shamt => .sra 0 rt rd shamt
  | .jr rs _ _ _ => .jr rs 0 0 0
  | .syscall _ _ _ _ => .syscall 0 0 0 0
  | .mfhi _ _ rd _ => .mfhi 0 0 rd 0
  | .mflo _ _ rd _ => .mflo 0 0 rd 0
  | .mul rs rt rd _ => .mul rs rt rd 0
  | .div rs rt rd _ => .div rs rt rd 0
  | .add rs rt rd _ => .add rs rt rd 0
  | .sub rs rt rd _ => .sub rs rt rd 0
  | .and rs rt rd _ => .and rs rt rd 0
  | .or rs rt rd _ => .or rs rt rd 0
  | .xor rs rt rd _ => .xor rs rt rd 0
  | .nor rs rt rd _ => .nor rs rt rd 0
  | .slt rs rt rd _ => .slt rs rt rd 0
  | .bltz rs _ imm => .bltz rs 0 imm
  | .lui _ rt imm => .lui 0 rt imm
  | i => i

theorem instrTokens_clearUnprinted (r : RegIx → Text) (i : Instr) :
    instrTokens r (clearUnprinted i) = instrTokens r i := by
  cases i <;> rfl

theorem eq_clearUnprinted_iff (i : Instr) : i = clearUnprinted i ↔ i.canonical = true := by
  cases i <;> simp [clearUnprinted, Instr.canonical, and_assoc]

/-- The text of a word that selects an instruction is made from the instruction alone. -/
theorem disassemble_of_decode {c : Config} {w : Word} {i : Instr} (h : decode c.encoding w = .ok i) :
    disassemble c w = String.ofList (joinTokens (instrTokens (regText c.regNames) i)) := by
  simp only [disassemble, disassembleText, h]

section
variable {c : Config} (h : c.wf = true)
include h

theorem plainToken_instrTokens (i : Instr) : ∀ t ∈ instrTokens (regText c.regNames) i, PlainToken t := by
  have hr := plainToken_regText h
  have hdecimal := plainToken_printNat (base := 10) (by decide)
  have hoperand (imm : Imm16) (rs : RegIx) := plainToken_memOperand imm (hr rs)
  cases i <;> simp only [instrTokens, List.forall_mem_cons, hr, hdecimal, hoperand, plainToken_functText,
    plainToken_primaryText, plainToken_printInt, plainToken_hex, List.not_mem_nil, false_imp_iff, implies_true,
    and_self]

theorem assembleTokens_instrTokens (i : Instr) :
    assembleTokens c.regNames (instrTokens (regText c.regNames) i) = some (clearUnprinted i) := by
  have hr := parseReg_regText h
  cases i
  case sll | srl | sra => exact assembleTokens_shift (by decide) (hr _) (hr _) (parseShamt_printNat _)
  case jr => exact assembleTokens_jr (hr _)
  case syscall => rfl
  case mfhi | mflo => exact assembleTokens_moveFrom (by decide) (hr _)
  case mul | div | add | sub | and | or | xor | nor | slt =>
    exact assembleTokens_three (by decide) (hr _) (hr _) (hr _)
  case bltz => exact assembleTokens_bltz (hr _) (parseImm_printInt _)
  case beq | bne => exact assembleTokens_branch (by decide) (hr _) (hr _) (parseImm_printInt _)
  case addi | addiu | slti | sltiu | andi | ori | xori =>
    exact assembleTokens_immediate (by decide) (hr _) (hr _) (parseImm_printInt _)
  case lui => exact assembleTokens_lui (hr _) (parseImm_printInt _)
  case lb | lw | lbu | sb | sw =>
    exact assembleTokens_loadStore (by decide) (splitMemOperand_memOperand _ _) (hr _) (parseImm_printInt _) (hr _)
  case j | jal => exact assembleTokens_jump (by decide) (parseTarget_hex _)

/-- Assembling a word's text gives the word of the instruction without its unprinted fields. -/
theorem assemble_disassemble {w : Word} {i : Instr} (hdecode : decode c.encoding w = .ok i) :
    assemble c (disassemble c w) = some (encode c.encoding (clearUnprinted i)) := by
  rw [disassemble_of_decode hdecode, assemble, String.toList_ofList, assembleText,
    lineTokens_joinTokens (plainToken_instrTokens h i), assembleTokens_instrTokens h, Option.map_some]

end

theorem Config.encoding_wf {c : Config} (h : c.wf = true) : c.encoding.wf = true := by
  simp only [Config.wf, Bool.and_eq_true] at h
  exact h.1

theorem Encoding.positionsWf_of_wf {e : Encoding} (h : e.wf = true) : e.positionsWf = true := by
  simp only [Encoding.wf, Bool.and_eq_true] at h
  exact h.2

theorem encode_inj {e : Encoding} (h : e.wf = true) {i j : Instr} : encode e i = encode e j ↔ i = j := by
  refine ⟨fun he => ?_, congrArg _⟩
  have hdecode := decodeOfEncodeIsTheInstruction e i h
  rw [he, decodeOfEncodeIsTheInstruction e j h] at hdecode
  exact (Except.ok.inj hdecode).symm

/-- Settles O7: the word assembled is that of the instruction without its unprinted fields, which prints the same. -/
theorem disassembledTextAssemblesBack : Obligations.DisassembledTextAssemblesBack := by
  intro c w i hwf hdecode
  have henc := Config.encoding_wf hwf
  have hword : encode c.encoding i = w := encodeOfDecodeIsTheWord _ w i (Encoding.positionsWf_of_wf henc) hdecode
  refine ⟨_, assemble_disassemble hwf hdecode, ?_, ?_⟩
  · rw [disassemble_of_decode (decodeOfEncodeIsTheInstruction _ _ henc), disassemble_of_decode hdecode,
      instrTokens_clearUnprinted]
  · rw [← hword, encode_inj henc, eq_comm, eq_clearUnprinted_iff]

/-! ### What the assembler makes -/

/-- If a family answers an instruction, every field its text does not name is 0 (R287). -/
def YieldsCanonical (answer : Option (Option Instr)) : Prop :=
  ∀ i, answer = some (some i) → i.canonical = true

/-- What every family does: the mnemonic selects an operation, and its operands are resolved. -/
theorem yieldsCanonical_map_find? {α : Type} {ops : List α} {named : α → Bool} {operands : α → Option Instr}
    (h : ∀ o ∈ ops, ∀ i, operands o = some i → i.canonical = true) :
    YieldsCanonical ((ops.find? named).map operands) := by
  intro i hi
  obtain ⟨o, hfound, ho⟩ := Option.map_eq_some_iff.1 hi
  exact h o (List.mem_of_find?_eq_some hfound) i ho

section
variable (names tokens : List Text)

theorem asmShift_canonical : YieldsCanonical (asmShift names tokens) := by
  unfold asmShift
  split
  · refine yieldsCanonical_map_find? fun o ho i hi => ?_
    split at hi <;> cases hi
    fin_cases ho <;> rfl
  · nofun

theorem asmSyscall_canonical : YieldsCanonical (asmSyscall tokens) := by
  unfold asmSyscall
  split
  · refine yieldsCanonical_map_find? fun o ho i hi => ?_
    cases hi
    fin_cases ho; rfl
  · nofun

/-- The families with one register. -/
theorem asmJr_asmMoveFrom_canonical :
    YieldsCanonical (asmJr names tokens) ∧ YieldsCanonical (asmMoveFrom names tokens) := by
  constructor
  all_goals
    simp only [asmJr, asmMoveFrom]
    split
    · refine yieldsCanonical_map_find? fun o ho i hi => ?_
      obtain ⟨r, -, rfl⟩ := Option.map_eq_some_iff.1 hi
      fin_cases ho <;> rfl
    · nofun

theorem asmThree_canonical {ops : List FunctOp}
    (hops : ops ⊆ [.add, .sub, .and, .or, .xor, .nor, .slt, .div, .mul]) :
    YieldsCanonical (asmThree ops names tokens) := by
  unfold asmThree
  split
  · refine yieldsCanonical_map_find? fun o ho i hi => ?_
    split at hi <;> cases hi
    have hmem := hops ho
    fin_cases hmem <;> rfl
  · nofun

theorem asmJump_canonical : YieldsCanonical (asmJump tokens) := by
  unfold asmJump
  split
  · refine yieldsCanonical_map_find? fun o ho i hi => ?_
    obtain ⟨target, -, rfl⟩ := Option.map_eq_some_iff.1 hi
    fin_cases ho <;> rfl
  · nofun

/-- The families with registers and an immediate as separate tokens. -/
theorem asmBltz_asmBranch_asmImmediate_asmLui_canonical :
    YieldsCanonical (asmBltz names tokens) ∧ YieldsCanonical (asmBranch names tokens) ∧
      YieldsCanonical (asmImmediate names tokens) ∧ YieldsCanonical (asmLui names tokens) := by
  and_intros
  all_goals
    simp only [asmBltz, asmBranch, asmImmediate, asmLui]
    split
    · refine yieldsCanonical_map_find? fun o ho i hi => ?_
      split at hi <;> cases hi
      fin_cases ho <;> rfl
    · nofun

theorem asmLoadStore_canonical : YieldsCanonical (asmLoadStore names tokens) := by
  unfold asmLoadStore
  split
  · refine yieldsCanonical_map_find? fun o ho i hi => ?_
    repeat' split at hi
    all_goals cases hi
    fin_cases ho <;> rfl
  · nofun

theorem asmFamilies_canonical : ∀ family ∈ asmFamilies names, YieldsCanonical (family tokens) := by
  obtain ⟨hjr, hmove⟩ := asmJr_asmMoveFrom_canonical names tokens
  obtain ⟨hbltz, hbranch, himmediate, hlui⟩ := asmBltz_asmBranch_asmImmediate_asmLui_canonical names tokens
  simp only [asmFamilies, List.cons_append, List.nil_append, List.forall_mem_cons, List.not_mem_nil,
    false_imp_iff, implies_true, and_true]
  exact ⟨asmShift_canonical names tokens, hjr, asmSyscall_canonical tokens, hmove,
    asmThree_canonical names tokens (by decide), asmJump_canonical tokens, hbltz, hbranch, himmediate, hlui,
    asmLoadStore_canonical names tokens, asmThree_canonical names tokens (by decide)⟩

/-- The assembler sets no field that the instruction's text does not name (R287). -/
theorem canonical_of_assembleTokens {i : Instr} (h : assembleTokens names tokens = some i) : i.canonical = true := by
  unfold assembleTokens at h
  split at h
  case h_1 answer hanswer =>
    subst h
    obtain ⟨family, hmem, hyields⟩ := List.exists_of_findSome?_eq_some hanswer
    exact asmFamilies_canonical names tokens family hmem i hyields
  case h_2 => cases h

end

/-- Settles O8: the assembler makes canonical instructions only, and of these O7 gives the word back. -/
theorem assembledLinesReassemble : Obligations.AssembledLinesReassemble := by
  intro c line w hwf h
  obtain ⟨i, hi, rfl⟩ := Option.map_eq_some_iff.1 h
  have hdecode := decodeOfEncodeIsTheInstruction c.encoding i (Config.encoding_wf hwf)
  have hcanonical := canonical_of_assembleTokens _ _ hi
  rw [assemble_disassemble hwf hdecode, ← (eq_clearUnprinted_iff i).2 hcanonical]

/-- Settles O6: one fixed line and one fixed word. -/
theorem workedExampleBothWays : Obligations.WorkedExampleBothWays := by
  unfold Obligations.WorkedExampleBothWays
  decide

end Sys2Proof.Machine
end

section
/-! Control transfer and SYSCALL (spec/47_control.md R240 to R245, spec/48_system.md R260, R262). Every one of these
instructions completes; the two targets are read here as numbers. -/

namespace Sys2Proof.Machine

/-! ### Targets -/

/-- Keeping the top four bits is shifting the others out and zeros in. -/
theorem and_top_four (x : Word) : x &&& 0xF0000000 = x >>> 28 <<< 28 := by
  refine BitVec.eq_of_getLsbD_eq fun i hi => ?_
  simp only [BitVec.getLsbD_and, BitVec.getLsbD_shiftLeft, BitVec.getLsbD_ushiftRight]
  interval_cases i <;> simp

theorem top_four_or_target_toNat (x : Word) (target : Target) :
    (x >>> 28 <<< 28 ||| target.setWidth 32 <<< 2).toNat = x.toNat / 2 ^ 28 * 2 ^ 28 + target.toNat * 4 := by
  have hlow : target.toNat * 4 < 2 ^ 28 := by omega
  have htop : (x >>> 28 <<< 28).toNat = (x.toNat / 2 ^ 28) <<< 28 := by
    rw [BitVec.toNat_shiftLeft, BitVec.toNat_ushiftRight, Nat.shiftRight_eq_div_pow, Nat.shiftLeft_eq]
    omega
  have htarget : (target.setWidth 32 <<< 2).toNat = target.toNat * 4 := by
    rw [BitVec.toNat_shiftLeft, BitVec.toNat_setWidth, Nat.shiftLeft_eq]
    omega
  rw [BitVec.toNat_or, htop, htarget, ← Nat.shiftLeft_add_eq_or_of_lt hlow, Nat.shiftLeft_eq]

/-- The jump target as a number: the target's 28 bits below the top four bits of `PCf + 4` (R240). -/
theorem jumpTarget_toNat (pcf : Word) (target : Target) :
    (jumpTarget pcf target).toNat = (pcf + 4).toNat / 2 ^ 28 * 2 ^ 28 + target.toNat * 4 := by
  rw [jumpTarget, and_top_four]
  exact top_four_or_target_toNat (pcf + 4) target

/-- The branch target as a number modulo 2^32 (R243). -/
theorem branchTarget_eq_ofInt (pcf : Word) (imm : Imm16) :
    branchTarget pcf imm = BitVec.ofInt 32 ((pcf.toNat + 4 * imm.toInt) % 2 ^ 32) := by
  refine BitVec.eq_of_toNat_eq ?_
  rw [branchTarget, sext32_toInt, BitVec.toNat_add, BitVec.toNat_ofInt, BitVec.toNat_ofInt]
  omega

/-! ### What the instructions write -/

theorem State.setPc_writesPc (s : State) (v : Word) : WritesPc s (s.setPc v) v :=
  ⟨fun _ => rfl, rfl, rfl, rfl, fun _ => rfl, rfl, rfl, rfl, rfl, rfl⟩

/-- A branch writes its target or leaves `PC` as it is (R243 to R245). -/
theorem State.branchIf_writesPc (s : State) (taken : Bool) (imm : Imm16) :
    WritesPc s (s.branchIf taken imm)
      (if taken = true then BitVec.ofInt 32 ((s.pc.toNat + 4 * imm.toInt) % 2 ^ 32) else s.pc) := by
  rcases s.branchIf_cases taken imm with ⟨rfl, e⟩ | ⟨rfl, e⟩ <;> rw [e]
  · rw [if_pos rfl, ← branchTarget_eq_ofInt]
    exact s.setPc_writesPc _
  · exact s.setPc_writesPc s.pc

/-- Settles O37: both jumps go to the target read as a number; adding 4 carries into the top bits from the last word
of a 256 MiB region on. -/
theorem jumpsKeepTheTopBitsOfPcPlusFour : Obligations.JumpsKeepTheTopBitsOfPcPlusFour := by
  refine ⟨fun s target => ⟨_, jumpTarget_toNat s.pc target, ⟨_, rfl, s.setPc_writesPc _⟩, _, rfl, ?_⟩, fun pcf => ?_⟩
  · exact ⟨s.setReg_reg regRa s.pc, rfl, rfl, rfl, fun _ => rfl, rfl, rfl, rfl, rfl, rfl⟩
  · have hadd : (pcf + 4).toNat = (pcf.toNat + 4) % 2 ^ 32 := BitVec.toNat_add pcf 4
    omega

/-- Settles O38: a write of `PC`, and two branches on one comparison. -/
theorem registerJumpAndEqualityBranches : Obligations.RegisterJumpAndEqualityBranches := by
  intro s rs rt rd sh imm
  refine ⟨⟨_, rfl, s.setPc_writesPc _⟩, ⟨_, rfl, ?_⟩, ⟨_, rfl, ?_⟩⟩
  · simpa only [decide_eq_true_eq] using s.branchIf_writesPc (decide (s.reg rs = s.reg rt)) imm
  · simpa only [decide_eq_true_eq, ne_eq, ite_not] using s.branchIf_writesPc (decide (s.reg rs ≠ s.reg rt)) imm

/-- Settles O39: a branch on the comparison the parameter selects. -/
theorem bltzComparesTwoRegisters : Obligations.BltzComparesTwoRegisters := by
  intro s rs rt imm
  have hbranch := s.branchIf_writesPc (bltzLess s.cfg (s.reg rs) (s.reg rt)) imm
  refine ⟨fun hc => ⟨_, rfl, ?_⟩, fun hc => ⟨_, rfl, ?_⟩⟩
  · simpa [bltzLess, lessThan, hc] using hbranch
  · simpa [bltzLess, lessThan, hc] using hbranch

/-! ### SYSCALL -/

theorem State.emit_leaves (s : State) (e : NormalEvent) :
    Leaves s (s.emit e) s.reg s.pc s.hi s.lo s.mem.byte (s.sinkWithPrint e) s.outcome :=
  ⟨fun _ => rfl, rfl, rfl, rfl, fun _ => rfl, rfl, rfl, rfl, rfl, rfl⟩

theorem State.haltWith_leaves (s : State) (r : HaltReason) :
    Leaves s (s.haltWith r) s.reg s.pc s.hi s.lo s.mem.byte s.sink (.halt r) :=
  ⟨fun _ => rfl, rfl, rfl, rfl, fun _ => rfl, rfl, rfl, rfl, rfl, rfl⟩

/-- Everything SYSCALL can do, by the service number in `R[2]` (R260). -/
theorem execSyscall_cases (s : State) :
    (s.reg 2 = 1 ∧ execSyscall s = .next (s.emit (.printInt (s.reg 4)))) ∨
    (s.reg 2 = 10 ∧ execSyscall s = .next (s.haltWith .syscall10)) ∨
    (s.reg 2 = 11 ∧ execSyscall s = .next (s.emit (.printChar (s.reg 4)))) ∨
    ((s.reg 2 ≠ 1 ∧ s.reg 2 ≠ 10 ∧ s.reg 2 ≠ 11) ∧ execSyscall s = .next s) := by
  unfold execSyscall
  split_ifs with h1 h10 h11
  · exact .inl ⟨h1, rfl⟩
  · exact .inr (.inl ⟨h10, rfl⟩)
  · exact .inr (.inr (.inl ⟨h11, rfl⟩))
  · exact .inr (.inr (.inr ⟨⟨h1, h10, h11⟩, rfl⟩))

/-- Settles O40: the service numbers are distinct, so each clause meets one of the four cases. -/
theorem syscallServices : Obligations.SyscallServices := by
  intro s rs rt rd sh
  have hexec : exec (.syscall rs rt rd sh) s = execSyscall s := rfl
  rw [hexec]
  have hcases := execSyscall_cases s
  generalize s.reg 2 = service at hcases ⊢
  rcases hcases with ⟨rfl, e⟩ | ⟨rfl, e⟩ | ⟨rfl, e⟩ | ⟨⟨h1, h10, h11⟩, e⟩ <;> rw [e]
  · exact ⟨fun _ => ⟨_, rfl, s.emit_leaves _⟩, nofun, nofun, fun h => absurd rfl h⟩
  · exact ⟨nofun, fun _ => ⟨_, rfl, s.haltWith_leaves _⟩, nofun, fun _ h => absurd rfl h⟩
  · exact ⟨nofun, nofun, fun _ => ⟨_, rfl, s.emit_leaves _⟩, fun _ _ h => absurd rfl h⟩
  · exact ⟨fun h => absurd h h1, fun h => absurd h h10, fun h => absurd h h11, fun _ _ _ => rfl⟩

end Sys2Proof.Machine
end

section
/-! Where a step can stop, and what a run's error channel says of its steps (spec/20_memory.md R61,
spec/41_engine_step.md R151, spec/60_exceptions.md R300, spec/70_reset_and_hazards.md R346). -/

namespace Sys2Proof.Machine

/-- A next state, or the refusal of an access that overruns its segment under `SEG_OVERRUN` = REFUSE. -/
def NextOrOverrun (c : Config) (r : Result) : Prop :=
  (∃ t, r = .next t) ∨ ∃ dir a n, r = .refused (.segmentOverrun dir a n) ∧ RefusedAccess c a n

theorem State.loadTo_nextOrOverrun (s : State) (d : RegIx) (a : Word) (n : Width) :
    NextOrOverrun s.cfg (s.loadTo d a n) := by
  rcases s.loadTo_cases d a n with ⟨-, e⟩ | ⟨-, e⟩ | ⟨hrefused, e⟩
  · exact .inl ⟨_, e⟩
  · exact .inl ⟨_, e⟩
  · exact .inr ⟨_, _, _, e, answerOf_refused hrefused⟩

theorem State.storeTo_nextOrOverrun (s : State) (a : Word) (n : Width) (v : Word) :
    NextOrOverrun s.cfg (s.storeTo a n v) := by
  rcases s.storeTo_cases a n v with ⟨-, e⟩ | ⟨-, e⟩ | ⟨hrefused, e⟩
  · exact .inl ⟨_, e⟩
  · exact .inl ⟨_, e⟩
  · exact .inr ⟨_, _, _, e, answerOf_refused hrefused⟩

/-- Only loads and stores can fail to complete. -/
theorem exec_nextOrOverrun (i : Instr) (s : State) : NextOrOverrun s.cfg (exec i s) := by
  cases i with
  | lb | lw | lbu => exact s.loadTo_nextOrOverrun _ _ _
  | sb | sw => exact s.storeTo_nextOrOverrun _ _ _
  | syscall => rcases execSyscall_cases s with ⟨-, e⟩ | ⟨-, e⟩ | ⟨-, e⟩ | ⟨-, e⟩ <;> exact .inl ⟨_, e⟩
  | _ => exact .inl ⟨_, rfl⟩

/-- A fetch that is refused overruns its segment under REFUSE. -/
theorem State.fetch_error {s : State} {r : Refusal} (h : s.fetch = .error r) :
    r = .segmentOverrun .read s.pc .word ∧ RefusedAccess s.cfg s.pc .word := by
  rcases s.fetch_cases with ⟨-, e⟩ | ⟨-, e⟩ | ⟨hrefused, e⟩ <;> rw [e] at h <;> cases h
  exact ⟨rfl, answerOf_refused hrefused⟩

theorem step_nextOrOverrun (s : State) : NextOrOverrun s.cfg (step s) := by
  unfold step
  split
  case h_1 r hfetch =>
    obtain ⟨rfl, hrefused⟩ := State.fetch_error hfetch
    exact .inr ⟨_, _, _, rfl, hrefused⟩
  case h_2 w u hfetch =>
    have hcfg : u.cfg = s.cfg := (State.fetch_pc_cfg hfetch).2
    split
    · exact .inl ⟨_, rfl⟩
    · split
      · exact hcfg ▸ exec_nextOrOverrun _ u
      · exact .inl ⟨_, rfl⟩

/-- Settles O47: the two settings other than REFUSE have no refused access. -/
theorem stepStopsOnlyOnARefusedOverrun : Obligations.StepStopsOnlyOnARefusedOverrun := by
  refine ⟨step_nextOrOverrun, fun s hc => ?_⟩
  rcases step_nextOrOverrun s with hnext | ⟨_, _, _, -, -, -, hrefuse⟩
  · exact hnext
  · exact absurd hrefuse hc

/-! ### Safe runs -/

/-- A step takes nothing out of the error channel. -/
theorem step_keeps_errors {s t : State} (h : step s = .next t) : s.sink.error <+: t.sink.error := by
  obtain ⟨events, hevents, -⟩ := (step_grows h).error
  exact ⟨events, hevents.symm⟩

/-- Nor does a run that halts. -/
theorem run_keeps_errors {n : Nat} {s t : State} {reason : HaltReason} (h : run n s = .halted reason t) :
    s.sink.error <+: t.sink.error := by
  induction n generalizing s with
  | zero => cases h
  | succ n ih =>
    obtain ⟨v, hstep, ⟨-, rfl⟩ | ⟨-, hrest⟩⟩ := run_succ_eq_halted_iff.1 h
    · exact step_keeps_errors hstep
    · exact (step_keeps_errors hstep).trans (ih hrest)

/-- Settles O60: the error channel after the first step lies between those at the two ends, which are equal. -/
theorem aSafeRunLogsNoFaultInItsFirstStep : Obligations.ASafeRunLogsNoFaultInItsFirstStep := by
  rintro (_ | n) s ⟨reason, t, hrun, hsafe⟩
  · cases hrun
  · obtain ⟨v, hstep, ⟨-, rfl⟩ | ⟨-, hrest⟩⟩ := run_succ_eq_halted_iff.1 hrun
    · exact ⟨v, hstep, hsafe⟩
    · have hend : v.sink.error <+: s.sink.error := hsafe ▸ run_keeps_errors hrest
      exact ⟨v, hstep, hend.eq_of_length_le (step_keeps_errors hstep).length_le⟩

end Sys2Proof.Machine
end

section
/-! The boot sequence (spec/70_reset_and_hazards.md R333): loading a program is storing its words one after another, and
each store leaves the bytes of the words before it alone. -/

namespace Sys2Proof.Machine

/-- The memory after words are stored at `base`, `base + 4`, ... -/
def Memory.writeWords (m : Memory) (base : Word) : List Word → Memory
  | [] => m
  | w :: ws => Memory.writeWords (m.write base .word w) (base + 4) ws

/-- The words lie in one segment from `base` on. -/
def FitsFrom (base : Word) (ws : List Word) : Prop :=
  (ws ≠ [] → mapped base = true) ∧ (offsetOf base).toNat + 4 * ws.length ≤ 0x100000

/-- The first word lies in the segment, and the others after it. -/
theorem FitsFrom.cons {base w : Word} {ws : List Word} (h : FitsFrom base (w :: ws)) :
    (mapped base = true ∧ (offsetOf base).toNat + 4 ≤ 0x100000) ∧ FitsFrom (base + 4) ws := by
  obtain ⟨hmapped, hend⟩ := h
  have hbase : mapped base = true := hmapped (List.cons_ne_nil w ws)
  rw [List.length_cons] at hend
  refine ⟨⟨hbase, by omega⟩, fun hne => ?_, ?_⟩
  · have hlen : 0 < ws.length := List.length_pos_iff.2 hne
    exact (mapped_add (k := 4) hbase (by omega)).2 (by omega)
  · have hsum : (base + 4).toNat = (base.toNat + 4) % 2 ^ 32 := BitVec.toNat_add base 4
    rw [offsetOf_toNat] at hend ⊢
    omega

theorem State.loadWords_of_fits {ws : List Word} (s : State) {base : Word} (h : FitsFrom base ws) :
    s.loadWords base ws = .ok (s.setMem (s.mem.writeWords base ws)) := by
  induction ws generalizing s base with
  | nil => rfl
  | cons w ws ih =>
    obtain ⟨⟨hbase, hend⟩, hrest⟩ := h.cons
    have hwrite := State.memWrite_of_performed (s := s) (performed_add (n := .word) (k := 0) hbase hend) w
    rw [BitVec.add_zero] at hwrite
    simp only [State.loadWords, State.hostPut, hwrite, ih _ hrest]
    rfl

section
variable {m : Memory} (hm : m.wf = true)
include hm

/-- The bytes outside the words stored are as before. -/
theorem Memory.byte_writeWords_of_ge {ws : List Word} {base b : Word} (hb : 4 * ws.length ≤ (b - base).toNat) :
    (m.writeWords base ws).byte b = m.byte b := by
  induction ws generalizing m base with
  | nil => rfl
  | cons w ws ih =>
    rw [List.length_cons] at hb
    rw [Memory.writeWords, ih (Memory.write_wf hm _ _ _) (by bv_omega), Memory.byte_write hm, if_neg]
    rintro ⟨hlt, -⟩
    exact absurd hlt (by simp only [Width.bytes]; omega)

/-- Each word stored reads back. -/
theorem Memory.read_writeWords {ws : List Word} {base : Word} (h : FitsFrom base ws) {i : Nat} (hi : i < ws.length) :
    (m.writeWords base ws).read (base + BitVec.ofNat 32 (4 * i)) .word = ws[i] := by
  induction ws generalizing m base i with
  | nil => exact absurd hi i.not_lt_zero
  | cons w ws ih =>
    obtain ⟨⟨hbase, hend⟩, hrest⟩ := h.cons
    have hwf := Memory.write_wf hm base .word w
    cases i with
    | zero =>
      have hlen := h.2
      have hkeeps (k : Nat) (hk : k < 4) : (m.writeWords base (w :: ws)).byte (base + BitVec.ofNat 32 k) =
          (m.write base .word w).byte (base + BitVec.ofNat 32 k) := by
        refine Memory.byte_writeWords_of_ge hwf ?_
        rw [List.length_cons] at hlen
        bv_omega
      rw [Nat.mul_zero, BitVec.add_zero, Memory.read_word_numbered, hkeeps 0 (by decide), hkeeps 1 (by decide),
        hkeeps 2 (by decide), hkeeps 3 (by decide), ← Memory.read_word_numbered]
      simpa [Width.bytes] using Memory.read_write_word hm w hbase hend (n := .word) (k := 0) (by decide)
    | succ i =>
      have hplace : base + BitVec.ofNat 32 (4 * (i + 1)) = base + 4 + BitVec.ofNat 32 (4 * i) := by bv_omega
      rw [hplace]
      exact ih hwf hrest (Nat.lt_of_succ_lt_succ hi)

end

/-- Settles O59: both resets, the words stored in an empty memory, and a jump. -/
theorem bootPlacesTheProgramAndJumps : Obligations.BootPlacesTheProgramAndJumps := by
  intro s base entry program hbase hend
  have hfits : FitsFrom base program := ⟨fun _ => hbase, hend⟩
  have hboot : s.boot base entry program =
      .ok ((s.registerReset.setMem (Memory.writeWords [] base program)).hostJump entry) := by
    simp only [State.boot, State.loadWords_of_fits _ hfits]
    rfl
  exact ⟨_, hboot, fun i hi => Memory.read_writeWords Memory.wf_nil hfits hi,
    fun a ha => (Memory.byte_writeWords_of_ge Memory.wf_nil ha).trans (Memory.byte_nil a),
    RegFile.reset_gpr _, rfl, rfl, rfl, rfl, rfl⟩

end Sys2Proof.Machine
end
